-- ==== Sys2Proof/Word.lean ====
section
/-! DEFINITION. The word of the machine and its register numbers (spec/00_scope.md R6, R8, R9, R10). -/

namespace Sys2Proof

/-- A register, a memory cell, an address or an instruction: 16 bits, bit 15 the most significant (R8, R9).
`u(w)` of the spec is `w.toNat`, `s(w)` is `w.toInt`, and arithmetic on words wraps modulo 2^16. -/
abbrev Word := BitVec 16

/-- The 4-bit register number of a d, a or b field (R10, R81): every value names a register. -/
abbrev RegNo := BitVec 4

/-- The zero register R0 (R22). -/
abbrev r0 : RegNo := 0#4

/-- R13, the temporary register R_t (R23). -/
abbrev rt : RegNo := 13#4

/-- R14, the frame pointer FP (R24). -/
abbrev fp : RegNo := 14#4

/-- R15, the stack pointer SP (R24). -/
abbrev sp : RegNo := 15#4

end Sys2Proof
end

