-- ==== Sys2Proof/Syntax.lean ====
section
/-! DEFINITION. The syntax: one constructor per row of spec/opcode_table.json, and the branch conditions of
spec/46_branches.md R211. -/

namespace Sys2Proof

/-- The fifteen conditions of R211; code 0001 is no condition. The docstrings give the source's formula. -/
inductive Cond where
  /-- 0000: true -/
  | always
  /-- 0010: s xor v -/
  | less
  /-- 0011: not (s xor v) -/
  | greaterEq
  /-- 0100: (s xor v) or z -/
  | lessEq
  /-- 0101: not ((s xor v) or z) -/
  | greater
  /-- 0110: (not c) or z -/
  | lessEqU
  /-- 0111: c and not z -/
  | greaterU
  /-- 1000: z -/
  | zero
  /-- 1001: not z -/
  | notZero
  /-- 1010: c -/
  | carry
  /-- 1011: not c -/
  | notCarry
  /-- 1100: s -/
  | sign
  /-- 1101: not s -/
  | notSign
  /-- 1110: v -/
  | overflow
  /-- 1111: not v -/
  | notOverflow
  deriving DecidableEq, Repr

/-- The 4-bit condition field c of a condition (R211). -/
def Cond.code : Cond → BitVec 4
  | .always => 0b0000#4
  | .less => 0b0010#4
  | .greaterEq => 0b0011#4
  | .lessEq => 0b0100#4
  | .greater => 0b0101#4
  | .lessEqU => 0b0110#4
  | .greaterU => 0b0111#4
  | .zero => 0b1000#4
  | .notZero => 0b1001#4
  | .carry => 0b1010#4
  | .notCarry => 0b1011#4
  | .sign => 0b1100#4
  | .notSign => 0b1101#4
  | .overflow => 0b1110#4
  | .notOverflow => 0b1111#4

/-- The 56 instructions. Register operands and bit patterns are bit vectors of their field's width; amounts, offsets and
sizes are the assembler's numbers (R93, R299), which `WellFormed.lean` bounds. Each docstring names the rule of the spec. -/
inductive Instr where
  /-- R121 -/
  | setlo (d : RegNo) (v : BitVec 8)
  /-- R122 -/
  | sethi (d : RegNo) (v : BitVec 8)
  /-- R134 -/
  | and (d a b : RegNo)
  /-- R135 -/
  | or (d a b : RegNo)
  /-- R136 -/
  | add (d a b : RegNo)
  /-- R137 -/
  | sub (d a b : RegNo)
  /-- R138 -/
  | mult (d a b : RegNo)
  /-- R139 -/
  | xor (d a b : RegNo)
  /-- R152 -/
  | lsl (d b : RegNo)
  /-- R153 -/
  | lsr (d b : RegNo)
  /-- R154 -/
  | lsl8 (d b : RegNo)
  /-- R155 -/
  | lsr8 (d b : RegNo)
  /-- R156 -/
  | asl (d b : RegNo)
  /-- R157 -/
  | asr (d b : RegNo)
  /-- R172; bit n of the mask selects F_n -/
  | setf (v : BitVec 5)
  /-- R173; bit n of the mask selects F_n -/
  | clrf (v : BitVec 5)
  /-- R174 -/
  | savef (d : RegNo)
  /-- R175; d is the source -/
  | rstrf (d : RegNo)
  /-- R186; delta is the amount, 1 to 64, one more than the field (R188) -/
  | inc (d : RegNo) (delta : Nat)
  /-- R187; delta is the amount, 1 to 64, one more than the field (R188) -/
  | dec (d : RegNo) (delta : Nat)
  /-- R196; o is 0 to 31 -/
  | load (d : RegNo) (o : Nat) (b : RegNo)
  /-- R199; o is 0 to 31 -/
  | store (d : RegNo) (o : Nat) (b : RegNo)
  /-- R214 -/
  | br (b : RegNo)
  /-- R215 -/
  | bl (b : RegNo)
  /-- R216 -/
  | bge (b : RegNo)
  /-- R217 -/
  | ble (b : RegNo)
  /-- R218 -/
  | bg (b : RegNo)
  /-- R219 -/
  | bule (b : RegNo)
  /-- R220 -/
  | bug (b : RegNo)
  /-- R221 -/
  | bz (b : RegNo)
  /-- R222 -/
  | bnz (b : RegNo)
  /-- R223 -/
  | bc (b : RegNo)
  /-- R224 -/
  | bnc (b : RegNo)
  /-- R225 -/
  | bs (b : RegNo)
  /-- R226 -/
  | bns (b : RegNo)
  /-- R227 -/
  | bv (b : RegNo)
  /-- R228 -/
  | bnv (b : RegNo)
  /-- R229; o is -128 to 127; 0 is HALT and 1 is NOP (R247) -/
  | brr (o : Int)
  /-- R230; o is -128 to 127 -/
  | blr (o : Int)
  /-- R231; o is -128 to 127 -/
  | bger (o : Int)
  /-- R232; o is -128 to 127 -/
  | bler (o : Int)
  /-- R233; o is -128 to 127 -/
  | bgr (o : Int)
  /-- R234; o is -128 to 127 -/
  | buler (o : Int)
  /-- R235; o is -128 to 127 -/
  | bugr (o : Int)
  /-- R236; o is -128 to 127 -/
  | bzr (o : Int)
  /-- R237; o is -128 to 127 -/
  | bnzr (o : Int)
  /-- R238; o is -128 to 127 -/
  | bcr (o : Int)
  /-- R239; o is -128 to 127 -/
  | bncr (o : Int)
  /-- R240; o is -128 to 127 -/
  | bsr (o : Int)
  /-- R241; o is -128 to 127 -/
  | bnsr (o : Int)
  /-- R242; o is -128 to 127 -/
  | bvr (o : Int)
  /-- R243; o is -128 to 127 -/
  | bnvr (o : Int)
  /-- R244; i is 0 to 15 -/
  | swi (i : Nat)
  /-- R245 -/
  | rti
  /-- R264, the mnemonic RETURN -/
  | ret
  /-- R261; s is 0 to 255 -/
  | call (s : Nat) (b : RegNo)
  deriving DecidableEq, Repr

/-- The register-mode branch of a condition (R211, R212). -/
def Cond.branchReg (c : Cond) (b : RegNo) : Instr :=
  match c with
  | .always => .br b
  | .less => .bl b
  | .greaterEq => .bge b
  | .lessEq => .ble b
  | .greater => .bg b
  | .lessEqU => .bule b
  | .greaterU => .bug b
  | .zero => .bz b
  | .notZero => .bnz b
  | .carry => .bc b
  | .notCarry => .bnc b
  | .sign => .bs b
  | .notSign => .bns b
  | .overflow => .bv b
  | .notOverflow => .bnv b

/-- The relative branch of a condition (R211, R213). -/
def Cond.branchRel (c : Cond) (o : Int) : Instr :=
  match c with
  | .always => .brr o
  | .less => .blr o
  | .greaterEq => .bger o
  | .lessEq => .bler o
  | .greater => .bgr o
  | .lessEqU => .buler o
  | .greaterU => .bugr o
  | .zero => .bzr o
  | .notZero => .bnzr o
  | .carry => .bcr o
  | .notCarry => .bncr o
  | .sign => .bsr o
  | .notSign => .bnsr o
  | .overflow => .bvr o
  | .notOverflow => .bnvr o

end Sys2Proof
end

