-- ==== Sys2Proof/WellFormed.lean ====
section
/-! DEFINITION. Well-formed instructions: the operand ranges of spec/48_assembly_pseudo_ops.md R299 and
spec/30_encoding.md R93, which are exactly the operands that have an encoding (R108). -/

namespace Sys2Proof

/-- The amount of INC and DEC: "there is no increment or decrement by zero" (R93, R299). -/
def deltaInRange (delta : Nat) : Bool := 1 ≤ delta && delta ≤ 64

/-- The unsigned 5-bit offset of LOAD and STORE (R93, R299). -/
def offsetInRange (o : Nat) : Bool := o ≤ 31

/-- The signed 8-bit offset of a relative branch (R93, R299). -/
def relOffsetInRange (o : Int) : Bool := -128 ≤ o && o ≤ 127

/-- The software interrupt number (R93, R299). -/
def swiNumberInRange (i : Nat) : Bool := i ≤ 15

/-- The initial frame size of CALL (R93, R299). -/
def frameSizeInRange (s : Nat) : Bool := s ≤ 255

/-- The check on each instruction. Operands whose type already has the field's width need none. -/
def Instr.wellFormed : Instr → Bool
  | .setlo _ _ => true
  | .sethi _ _ => true
  | .and _ _ _ => true
  | .or _ _ _ => true
  | .add _ _ _ => true
  | .sub _ _ _ => true
  | .mult _ _ _ => true
  | .xor _ _ _ => true
  | .lsl _ _ => true
  | .lsr _ _ => true
  | .lsl8 _ _ => true
  | .lsr8 _ _ => true
  | .asl _ _ => true
  | .asr _ _ => true
  | .setf _ => true
  | .clrf _ => true
  | .savef _ => true
  | .rstrf _ => true
  | .inc _ delta => deltaInRange delta
  | .dec _ delta => deltaInRange delta
  | .load _ o _ => offsetInRange o
  | .store _ o _ => offsetInRange o
  | .br _ => true
  | .bl _ => true
  | .bge _ => true
  | .ble _ => true
  | .bg _ => true
  | .bule _ => true
  | .bug _ => true
  | .bz _ => true
  | .bnz _ => true
  | .bc _ => true
  | .bnc _ => true
  | .bs _ => true
  | .bns _ => true
  | .bv _ => true
  | .bnv _ => true
  | .brr o => relOffsetInRange o
  | .blr o => relOffsetInRange o
  | .bger o => relOffsetInRange o
  | .bler o => relOffsetInRange o
  | .bgr o => relOffsetInRange o
  | .buler o => relOffsetInRange o
  | .bugr o => relOffsetInRange o
  | .bzr o => relOffsetInRange o
  | .bnzr o => relOffsetInRange o
  | .bcr o => relOffsetInRange o
  | .bncr o => relOffsetInRange o
  | .bsr o => relOffsetInRange o
  | .bnsr o => relOffsetInRange o
  | .bvr o => relOffsetInRange o
  | .bnvr o => relOffsetInRange o
  | .swi i => swiNumberInRange i
  | .rti => true
  | .ret => true
  | .call s _ => frameSizeInRange s

/-- The instruction has an encoding. -/
abbrev Instr.WellFormed (i : Instr) : Prop := i.wellFormed = true

end Sys2Proof
end

