-- ==== Sys2Proof/Decode.lean ====
section
/-! DEFINITION. The decoder (spec/30_encoding.md R100, R101, R102) and, after it, the encoder (R108, formats R82 to R92). -/

namespace Sys2Proof

/-- Why a word is none of the 61026 instruction words (R103, R104). -/
inductive DecodeError where
  /-- `0x01xx`: a relative branch with condition field 0001 (R103) -/
  | relativeCondition
  /-- `0x11xx` other than SWI, RTI and RETURN (R103) -/
  | specialSpace
  /-- bits 7:4 of a register-mode branch are not 0 (R104) -/
  | branchRegBits
  /-- bits 10:9 of SETF or CLRF are not 0 (R104) -/
  | flagMaskBits
  /-- bits 2:0 of SAVEF or RSTRF are not 0 (R104) -/
  | flagRegBits
  deriving DecidableEq, Repr

/-- The condition of a condition field; 0001 is none (R211). -/
def condOf (c : BitVec 4) : Option Cond :=
  match c with
  | 0b0000#4 => some .always
  | 0b0010#4 => some .less
  | 0b0011#4 => some .greaterEq
  | 0b0100#4 => some .lessEq
  | 0b0101#4 => some .greater
  | 0b0110#4 => some .lessEqU
  | 0b0111#4 => some .greaterU
  | 0b1000#4 => some .zero
  | 0b1001#4 => some .notZero
  | 0b1010#4 => some .carry
  | 0b1011#4 => some .notCarry
  | 0b1100#4 => some .sign
  | 0b1101#4 => some .notSign
  | 0b1110#4 => some .overflow
  | 0b1111#4 => some .notOverflow
  | _ => none

/-- The register field d of a word, `w[11:8]` (R81). -/
def fieldD (w : Word) : RegNo := w.extractLsb' 8 4

/-- The register field a of a word, `w[7:4]` (R81). -/
def fieldA (w : Word) : RegNo := w.extractLsb' 4 4

/-- The register field b of a word, `w[3:0]` (R81). -/
def fieldB (w : Word) : RegNo := w.extractLsb' 0 4

/-- The 8-bit immediate `w[7:0]` (R82, R90). -/
def fieldImm8 (w : Word) : BitVec 8 := w.extractLsb' 0 8

/-- The flag mask `w[8] ++ w[3:0]` of SETF and CLRF (R85). -/
def fieldMask (w : Word) : BitVec 5 := w.extractLsb' 8 1 ++ w.extractLsb' 0 4

/-- The amount `u(w[5:0]) + 1` of INC and DEC (R87, R93). -/
def fieldDelta (w : Word) : Nat := (w.extractLsb' 0 6).toNat + 1

/-- The offset `w[12] ++ w[7:4]` of LOAD and STORE, unsigned (R88; conflict C3). -/
def fieldOffset (w : Word) : Nat := (w.extractLsb' 12 1 ++ w.extractLsb' 4 4).toNat

/-- The frame size `w[11:4]` of CALL, unsigned (R92). -/
def fieldFrame (w : Word) : Nat := (w.extractLsb' 4 8).toNat

/-- The group b15:12 = 0011 (R101): shifts, flag operations, INC and DEC. -/
def decodeMinor (w : Word) : Except DecodeError Instr :=
  match w.extractLsb' 4 4 with
  | 0b0000#4 => .ok (.lsl (fieldD w) (fieldB w))
  | 0b0001#4 => .ok (.lsr (fieldD w) (fieldB w))
  | 0b0010#4 => .ok (.lsl8 (fieldD w) (fieldB w))
  | 0b0011#4 => .ok (.lsr8 (fieldD w) (fieldB w))
  | 0b0100#4 => .ok (.asl (fieldD w) (fieldB w))
  | 0b0101#4 => .ok (.asr (fieldD w) (fieldB w))
  | 0b0110#4 =>
    if w.extractLsb' 9 2 ≠ 0#2 then .error .flagMaskBits
    else if w.extractLsb' 11 1 = 0#1 then .ok (.setf (fieldMask w)) else .ok (.clrf (fieldMask w))
  | 0b0111#4 =>
    if w.extractLsb' 0 3 ≠ 0#3 then .error .flagRegBits
    else if w.extractLsb' 3 1 = 0#1 then .ok (.savef (fieldD w)) else .ok (.rstrf (fieldD w))
  | _ =>
    if w.extractLsb' 6 1 = 0#1 then .ok (.inc (fieldD w) (fieldDelta w)) else .ok (.dec (fieldD w) (fieldDelta w))

/-- The special space `0x11xx` (R102). -/
def decodeSpecial (w : Word) : Except DecodeError Instr :=
  if w.extractLsb' 4 4 = 0#4 then .ok (.swi (fieldB w).toNat)
  else if w.extractLsb' 0 8 = 0x10#8 then .ok .rti
  else if w.extractLsb' 0 8 = 0x11#8 then .ok .ret
  else .error .specialSpace

/-- Register-mode branches and the special space, b15:12 = 0001 (R100, R104). -/
def decodeBranchReg (w : Word) : Except DecodeError Instr :=
  match condOf (w.extractLsb' 8 4) with
  | none => decodeSpecial w
  | some c => if w.extractLsb' 4 4 = 0#4 then .ok (c.branchReg (fieldB w)) else .error .branchRegBits

/-- Relative branches, b15:12 = 0000 (R100, R103). -/
def decodeBranchRel (w : Word) : Except DecodeError Instr :=
  match condOf (w.extractLsb' 8 4) with
  | none => .error .relativeCondition
  | some c => .ok (c.branchRel (fieldImm8 w).toInt)

/-- The decoder (R100): the instruction of a word, or the reason why it is undefined. -/
def decode (w : Word) : Except DecodeError Instr :=
  match w.extractLsb' 12 4 with
  | 0x0#4 => decodeBranchRel w
  | 0x1#4 => decodeBranchReg w
  | 0x2#4 => .ok (.call (fieldFrame w) (fieldB w))
  | 0x3#4 => decodeMinor w
  | 0x4#4 => .ok (.load (fieldD w) (fieldOffset w) (fieldB w))
  | 0x5#4 => .ok (.load (fieldD w) (fieldOffset w) (fieldB w))
  | 0x6#4 => .ok (.store (fieldD w) (fieldOffset w) (fieldB w))
  | 0x7#4 => .ok (.store (fieldD w) (fieldOffset w) (fieldB w))
  | 0x8#4 => .ok (.and (fieldD w) (fieldA w) (fieldB w))
  | 0x9#4 => .ok (.or (fieldD w) (fieldA w) (fieldB w))
  | 0xA#4 => .ok (.add (fieldD w) (fieldA w) (fieldB w))
  | 0xB#4 => .ok (.sub (fieldD w) (fieldA w) (fieldB w))
  | 0xC#4 => .ok (.mult (fieldD w) (fieldA w) (fieldB w))
  | 0xD#4 => .ok (.xor (fieldD w) (fieldA w) (fieldB w))
  | 0xE#4 => .ok (.setlo (fieldD w) (fieldImm8 w))
  | _ => .ok (.sethi (fieldD w) (fieldImm8 w))

/-- The instruction of a table word of `nbits` bits: every instruction is one word of 16 bits (R80), so a longer one is none. -/
def decodeTableWord (nbits w : Nat) : Option Instr :=
  if nbits ≤ 16 then (decode (BitVec.ofNat 16 (w % 2 ^ nbits))).toOption else none

/-- Format RRR (R83). -/
def wordRRR (op d a b : BitVec 4) : Word := op ++ d ++ a ++ b

/-- Format IMM8 (R82). -/
def wordImm8 (op d : BitVec 4) (v : BitVec 8) : Word := op ++ d ++ v

/-- Format SHIFT (R84). -/
def wordShift (o d b : BitVec 4) : Word := 0x3#4 ++ d ++ o ++ b

/-- Format FLAGMASK (R85): `k` is 0 for SETF and 1 for CLRF. -/
def wordFlagMask (k : BitVec 1) (v : BitVec 5) : Word :=
  0x3#4 ++ k ++ 0b00#2 ++ v.extractLsb' 4 1 ++ 0b0110#4 ++ v.extractLsb' 0 4

/-- Format FLAGREG (R86): `r` is 0 for SAVEF and 1 for RSTRF. -/
def wordFlagReg (r : BitVec 1) (d : BitVec 4) : Word := 0x3#4 ++ d ++ 0b0111#4 ++ r ++ 0b000#3

/-- Format INCDEC (R87): `m` is 0 for INC and 1 for DEC; the field holds the amount less one. -/
def wordIncDec (m : BitVec 1) (d : BitVec 4) (delta : Nat) : Word :=
  0x3#4 ++ d ++ 0b1#1 ++ m ++ BitVec.ofNat 6 (delta - 1)

/-- Format MEM (R88): `t` is 0 for LOAD and 1 for STORE; the offset's top bit is bit 12. -/
def wordMem (t : BitVec 1) (d : BitVec 4) (o : Nat) (b : BitVec 4) : Word :=
  0b01#2 ++ t ++ (BitVec.ofNat 5 o).extractLsb' 4 1 ++ d ++ (BitVec.ofNat 5 o).extractLsb' 0 4 ++ b

/-- Format BREG (R89). -/
def wordBreg (c : Cond) (b : BitVec 4) : Word := 0x1#4 ++ c.code ++ 0x0#4 ++ b

/-- Format BREL (R90). -/
def wordBrel (c : Cond) (o : Int) : Word := 0x0#4 ++ c.code ++ BitVec.ofInt 8 o

/-- Format SPECIAL, SWI's word (R91). -/
def wordSwi (i : Nat) : Word := 0x110#12 ++ BitVec.ofNat 4 i

/-- Format CALLF (R92). -/
def wordCall (s : Nat) (b : BitVec 4) : Word := 0x2#4 ++ BitVec.ofNat 8 s ++ b

/-- The encoder (R108): the word of a well-formed instruction. -/
def encode : Instr → Word
  | .setlo d v => wordImm8 0xE#4 d v
  | .sethi d v => wordImm8 0xF#4 d v
  | .and d a b => wordRRR 0x8#4 d a b
  | .or d a b => wordRRR 0x9#4 d a b
  | .add d a b => wordRRR 0xA#4 d a b
  | .sub d a b => wordRRR 0xB#4 d a b
  | .mult d a b => wordRRR 0xC#4 d a b
  | .xor d a b => wordRRR 0xD#4 d a b
  | .lsl d b => wordShift 0#4 d b
  | .lsr d b => wordShift 1#4 d b
  | .lsl8 d b => wordShift 2#4 d b
  | .lsr8 d b => wordShift 3#4 d b
  | .asl d b => wordShift 4#4 d b
  | .asr d b => wordShift 5#4 d b
  | .setf v => wordFlagMask 0#1 v
  | .clrf v => wordFlagMask 1#1 v
  | .savef d => wordFlagReg 0#1 d
  | .rstrf d => wordFlagReg 1#1 d
  | .inc d delta => wordIncDec 0#1 d delta
  | .dec d delta => wordIncDec 1#1 d delta
  | .load d o b => wordMem 0#1 d o b
  | .store d o b => wordMem 1#1 d o b
  | .br b => wordBreg .always b
  | .bl b => wordBreg .less b
  | .bge b => wordBreg .greaterEq b
  | .ble b => wordBreg .lessEq b
  | .bg b => wordBreg .greater b
  | .bule b => wordBreg .lessEqU b
  | .bug b => wordBreg .greaterU b
  | .bz b => wordBreg .zero b
  | .bnz b => wordBreg .notZero b
  | .bc b => wordBreg .carry b
  | .bnc b => wordBreg .notCarry b
  | .bs b => wordBreg .sign b
  | .bns b => wordBreg .notSign b
  | .bv b => wordBreg .overflow b
  | .bnv b => wordBreg .notOverflow b
  | .brr o => wordBrel .always o
  | .blr o => wordBrel .less o
  | .bger o => wordBrel .greaterEq o
  | .bler o => wordBrel .lessEq o
  | .bgr o => wordBrel .greater o
  | .buler o => wordBrel .lessEqU o
  | .bugr o => wordBrel .greaterU o
  | .bzr o => wordBrel .zero o
  | .bnzr o => wordBrel .notZero o
  | .bcr o => wordBrel .carry o
  | .bncr o => wordBrel .notCarry o
  | .bsr o => wordBrel .sign o
  | .bnsr o => wordBrel .notSign o
  | .bvr o => wordBrel .overflow o
  | .bnvr o => wordBrel .notOverflow o
  | .swi i => wordSwi i
  | .rti => 0x1110#16
  | .ret => 0x1111#16
  | .call s b => wordCall s b

end Sys2Proof
end

