-- ==== Sys2Proof/Config.lean ====
section
/-! DEFINITION. What an implementation fixes and what the spec leaves open (spec/00_scope.md R7,
spec/93_implementation_defined.md part 2). The free values have no body: no proof can see which value they hold. -/

namespace Sys2Proof

/-- The two values of the spec's parameter `ASR_FILL` (R7, R157, decision D10). -/
inductive AsrFill where
  /-- bit 15 of the operand is kept; the spec's default -/
  | sign
  /-- zero enters bit 15 -/
  | zero
  deriving DecidableEq, Repr

/-- FREE VALUE (R138, U1, decision D8): the carry flag after the n-th MULT of a run, "any value, fresh each time".
The MULT applies it to `State.draws` and advances that counter. Assumption 1. -/
opaque Config.multCarry : Nat → Bool

/-- The values of the spec's parameter `MULT_D13` (R7, R138, decision D9), and one of the model's own. Assumption 2. -/
inductive MultD13 where
  /-- a MULT into R13 stops the model; the spec's default -/
  | refuse
  /-- R13 keeps the low half of the product -/
  | lowWins
  /-- R13 keeps the high half of the product -/
  | highWins
  /-- the MODEL's own value: one of the two halves, and nothing says which -/
  | either
  deriving DecidableEq, Repr

/-- The two values of the spec's parameter `DM_UNINIT` (R7, R58, decision D25). Assumption 3. -/
inductive Uninit where
  /-- a read of a cell that holds no word stops the model; the spec's default -/
  | fault
  /-- it gives a free value, the same one until the cell is written -/
  | draw
  deriving DecidableEq, Repr

/-- The parameters that R7 leaves OPEN, "a named parameter that the model takes as an argument". `SWI_RTI_SEMANTICS` is no
plain data and is the argument `SwiRtiSemantics` of Machine/Inputs.lean. -/
structure Params where
  /-- `ASR_FILL` -/
  asrFill : AsrFill
  /-- `MULT_D13` -/
  multD13 : MultD13
  /-- `DM_UNINIT` for the data reads of LOAD and RETURN -/
  dmUninit : Uninit
  /-- `DM_UNINIT` for the fetch ("The same holds for a fetch", R58) -/
  imUninit : Uninit
  deriving DecidableEq, Repr

/-- The default of every parameter (R7; part 2 of spec/93_implementation_defined.md). -/
def Params.specDefaults : Params := ⟨.sign, .refuse, .fault, .fault⟩

/-- FREE VALUE (R138, N9, decision D9): which half R13 keeps after a MULT into R13 under `MultD13.either`: true the low one,
false the high one. Assumption 2. -/
opaque Config.multD13LowWins : Bool

/-- FREE VALUE (R58, N18, decision D25, `DM_UNINIT = draw`): what a data cell reads as before anything has stored to it,
"the same value on every later read of the cell until it is written". Assumption 3. -/
opaque Config.uninitData : Word → Word

/-- FREE VALUE (R58, D25): what a cell of instruction memory that the image does not cover is fetched as under
`Params.imUninit = draw`. Assumption 3. -/
opaque Config.uninitCode : Word → Word

end Sys2Proof
end

