-- ==== Sys2Proof/Machine/State.lean ====
section
/-! DEFINITION. The state of the machine and its reset value (spec/10_state.md R20, R39), and the ways a step can stop
(spec/60_exceptions.md R341). -/

namespace Sys2Proof.Machine

/-- The five flags (R11, R29, R30). -/
structure Flags where
  /-- F0, sign -/
  s : Bool
  /-- F1, zero -/
  z : Bool
  /-- F2, overflow -/
  v : Bool
  /-- F3, carry -/
  c : Bool
  /-- F4, carry-block -/
  cb : Bool
  deriving DecidableEq, Repr

/-- One cell of a memory: an address below 2^16 and the word it holds (R50, R51: the word is the unit of memory and a
model must not introduce bytes). Assumption 5. -/
abbrev Cell := Nat × Word

/-- The cells of a memory that hold a word, addresses strictly rising; a cell that is not listed holds no word. -/
abbrev Memory := List Cell

/-- The two memories (R35, R36). -/
inductive Space where
  /-- DM -/
  | data
  /-- IM -/
  | code
  deriving DecidableEq, Repr

/-- Why the machine stops with a fault (R14, R341). The source has no traps, so both are model outcomes of the spec. -/
inductive Fault where
  /-- `UndefinedInstruction(w)` at address `pc`: raised by the decoding of a fetched word that is none of the instructions
  (R103, R104). Safe: the model stops where the spec gives the hardware no behaviour. -/
  | undefinedInstruction (w pc : Word)
  /-- `UninitialisedRead(addr)`, with the memory it was read from (R341): raised by LOAD and RETURN under
  `Params.dmUninit = fault` and by the fetch under `Params.imUninit = fault`, for a cell that holds no word (R58, the spec's
  default). Safe: the model stops where hardware would go on. -/
  | uninitialisedRead (space : Space) (addr : Word)
  deriving DecidableEq, Repr

/-- Why the model refuses an instruction. -/
inductive Refusal where
  /-- An instruction without a meaning in this model, raised by an arm of `exec`; no arm raises it. Safe. -/
  | notModelled (mnemonic : String)
  /-- `Unspecified("SWI", i)`: raised by SWI, to which no source gives an effect (R244, R341). Safe. -/
  | unspecifiedSwi (i : Nat)
  /-- `Unspecified("RTI")`: raised by RTI, to which no source gives an effect (R245, R341). Safe. -/
  | unspecifiedRti
  /-- `Unspecified("MULT d=13")`, with the word: raised by a MULT into R13 under `Params.multD13 = refuse`, the spec's default
  (R138, R341, D9). Safe. -/
  | unspecifiedMultD13 (w : Word)
  deriving DecidableEq, Repr

/-- What the fault mark records: the outcome that ended the run (R14, R341). -/
inductive Stop where
  /-- a fault -/
  | fault (f : Fault)
  /-- a refusal -/
  | refusal (r : Refusal)
  deriving DecidableEq, Repr

/-- The whole state (R20). -/
structure State where
  /-- R0 to R15 (R21); the R0 slot is never written and never read (R22), see `State.getReg` -/
  regs : Vector Word 16
  /-- the address in instruction memory of the instruction being executed (R26) -/
  pc : Word
  /-- F4 to F0 (R29, R30) -/
  flags : Flags
  /-- the data memory DM (R35) -/
  dm : Memory
  /-- the instruction memory IM (R36) -/
  im : Memory
  /-- the fault mark, the spec's own bookkeeping (R14, R20, R39) -/
  faultMark : Option Stop
  /-- the MODEL's own field: how many free values the run has drawn (R14 `draw()`), advanced by each MULT. Assumption 1. -/
  draws : Nat
  /-- the MODEL's own field: the OPEN parameters of R7, inputs that no step changes (R40). Assumption 7. -/
  params : Params
  deriving DecidableEq, Repr

/-- The outcome of a step or of a meaning. -/
abbrev Result := Host.Outcome State Fault Refusal

/-- The machine after reset (R39, R370): every register and flag 0, PC 0, no cell of either memory holding a word (the
images are loaded from outside, R391), no fault mark. The 0 of `draws` (Assumption 1) and the value of each parameter
(`ASR_FILL` by its default, Assumption 4; the others by one under which the instruction runs, Assumptions 2 and 3; the fetch
by its default) are the model's choice. -/
def State.reset : State where
  regs := Vector.replicate 16 0
  pc := 0
  flags := ⟨false, false, false, false, false⟩
  dm := []
  im := []
  faultMark := none
  draws := 0
  params := ⟨.sign, .either, .draw, .fault⟩

end Sys2Proof.Machine
end

