-- ==== Sys2Proof/Machine/Ops.lean ====
section
/-! DEFINITION. The named operations on memories, registers and the program counter, the fetch, and the model outcome
that stands where other machines take an exception. -/

namespace Sys2Proof.Machine

/-! ### Memories (R12, R35, R36, R50, R58) -/

/-- The word at a numbered address, or nothing where no word is listed. -/
def Memory.find : Memory → Nat → Option Word
  | [], _ => none
  | (k, v) :: m, a => if k = a then some v else Memory.find m a

/-- The memory with the word `v` at a numbered address, in place of the one that was there. -/
def Memory.put : Memory → Nat → Word → Memory
  | [], a, v => [(a, v)]
  | (k, x) :: m, a, v =>
    if a < k then (a, v) :: (k, x) :: m else if a = k then (a, v) :: m else (k, x) :: Memory.put m a v

/-- `MemRead(addr, 1)` (R12): the word a cell holds, or nothing if neither an image nor a write ever gave it one (R58). -/
def Memory.read (m : Memory) (a : Word) : Option Word := Memory.find m a.toNat

/-- `MemWrite(addr, 1, v)` (R12): all 16 bits of one cell, no other cell (R50, R54). -/
def Memory.write (m : Memory) (a v : Word) : Memory := Memory.put m a.toNat v

/-- The canonical form: addresses below 2^16 and strictly rising. A cell that is not listed reads as no word, so no entry
can say what its absence would say. -/
def Memory.wf : Memory → Bool
  | [] => true
  | (k, _) :: m => decide (k < 65536) && m.all (fun c => decide (k < c.1)) && Memory.wf m

/-- A memory image, a list of addresses and words (R39, R391); a later entry for an address replaces an earlier one. -/
def Memory.ofImage (l : List (Word × Word)) : Memory := l.foldl (fun m p => Memory.write m p.1 p.2) []

/-- The image of consecutive words from address `base` upward (R392). -/
def imageFrom (base : Word) : List Word → List (Word × Word)
  | [] => []
  | w :: ws => (base, w) :: imageFrom (base + 1) ws

/-- A word of a memory, or what `DM_UNINIT` makes of a cell that holds none: a fault, or a free value that is the same one at
every read until the cell is written (R12, R58). Assumption 3. -/
def Memory.readOr (m : Memory) (u : Uninit) (free : Word → Word) (space : Space) (a : Word) : Except Fault Word :=
  match m.read a with
  | some v => .ok v
  | none =>
    match u with
    | .fault => .error (.uninitialisedRead space a)
    | .draw => .ok (free a)

/-- A word of data memory as LOAD and RETURN read it (R12, R35, R58). -/
def State.readData (s : State) (a : Word) : Except Fault Word :=
  s.dm.readOr s.params.dmUninit Config.uninitData .data a

/-- A word of data memory written by STORE or CALL (R12, R35). -/
def State.writeData (s : State) (a v : Word) : State := { s with dm := s.dm.write a v }

/-- `IFetch(pc)` (R12, R16, R58): the word at pc in instruction memory, which no data access reaches (R36). -/
def State.fetch (s : State) : Except Fault Word :=
  s.im.readOr s.params.imUninit Config.uninitCode .code s.pc

/-- The machine right after reset with its inputs, the parameters and the two images (R39, R391). -/
def State.ofImages (p : Params) (imImage dmImage : List (Word × Word)) : State :=
  { State.reset with im := Memory.ofImage imImage, dm := Memory.ofImage dmImage, params := p }

/-! ### Registers (R10, R22) -/

/-- `x[r]`: R0 reads 0 at all times (R10, R22). -/
def State.getReg (s : State) (r : RegNo) : Word :=
  if r = r0 then 0 else s.regs[r.toNat]'(r.isLt)

/-- `x[r] <- v`: a write to R0 is dropped (R10, R22). -/
def State.setReg (s : State) (r : RegNo) (v : Word) : State :=
  if r = r0 then s else { s with regs := s.regs.set r.toNat v r.isLt }

/-! ### Flags and the program counter -/

/-- The state with other flags. -/
def State.setFlags (s : State) (f : Flags) : State := { s with flags := f }

/-- `pc <- t` (R13). -/
def State.setPc (s : State) (t : Word) : State := { s with pc := t }

/-- `pc <- pc + 1` modulo 2^16 (R13, R27, R28). -/
def State.advance (s : State) : State := s.setPc (s.pc + 1)

/-- The end of every branch (R212, R213): to the target if the condition holds, else to the next instruction. -/
def State.branchTo (s : State) (taken : Bool) (target : Word) : State :=
  s.setPc (if taken then target else s.pc + 1)

/-- One `draw()` used up (R14). -/
def State.countDraw (s : State) : State := { s with draws := s.draws + 1 }

/-! ### Stopping

The source has no exception, no trap entry and no return from one (R340, R345, R346). What the spec puts in their place
is `raise`: a step that stops makes none of its writes and leaves a state that no later step leaves (R14, R341). -/

/-- The outcome of a step that stops. -/
def raise : Stop → Result
  | .fault f => .fault f
  | .refusal r => .refused r

/-- The end of an instruction that reads memory: what it does with the word, or the stop in its place. -/
def withRead (r : Except Fault Word) (k : Word → Result) : Result :=
  match r with
  | .ok v => k v
  | .error f => raise (.fault f)

/-- The state a stop leaves: everything as before the step, the fault mark set (R14, R341). -/
def State.mark (s : State) (x : Stop) : State := { s with faultMark := some x }

/-- Fetch and decode (R16, R344): the instruction at pc, or the fault of the first phase that fails. -/
def State.fetchDecode (s : State) : Except Fault Instr :=
  match s.fetch with
  | .error f => .error f
  | .ok w =>
    match decode w with
    | .error _ => .error (.undefinedInstruction w s.pc)
    | .ok i => .ok i

/-- One step of a machine whose instructions do what `run` says (R16, R344): fetch, decode, execute. A marked state answers
its stop again: "a fault state that no later step leaves" (R14). -/
def stepBy (run : Instr → State → Result) (s : State) : Result :=
  match s.faultMark with
  | some x => raise x
  | none =>
    match s.fetchDecode with
    | .error f => raise (.fault f)
    | .ok i => run i s

/-- The state after a step with the outcome `r` (R14, R341): a step that stops leaves the state as it was, marked. -/
def State.settle (s : State) (r : Result) : State :=
  match r with
  | .next t => t
  | .fault f => s.mark (.fault f)
  | .refused r => s.mark (.refusal r)

/-- The state with the word `w` at pc in instruction memory and no fault mark: a program of one word loaded from outside
(R391). -/
def State.loadAtPc (s : State) (w : Word) : State := { s with im := s.im.write s.pc w, faultMark := none }

end Sys2Proof.Machine
end

