-- ==== Sys2Proof/Machine/Operands.lean ====
section
/-! DEFINITION. The operand forms: immediates, the effective address, branch targets, and the results of the shifts
(spec/30_encoding.md R93, spec/20_memory.md R57, spec/42_shifts.md R151). -/

namespace Sys2Proof.Machine

/-- SETLO's immediate: `sext_16(v)` (R93, R121). -/
def signExtend8 (v : BitVec 8) : Word := v.signExtend 16

/-- SETHI's result: `v ++ old[7:0]` (R93, R122). -/
def replaceHigh (v : BitVec 8) (old : Word) : Word := v ++ old.extractLsb' 0 8

/-- The amount of INC and DEC as a word: `zext_16(delta)` (R186, R187). -/
def amount (delta : Nat) : Word := BitVec.ofNat 16 delta

/-- The only data addressing mode: `trunc_16(u(x[b]) + o)` (R57). -/
def State.effectiveAddress (s : State) (b : RegNo) (o : Nat) : Word := s.getReg b + BitVec.ofNat 16 o

/-- The target of a relative branch: `trunc_16(u(pc) + s(sext_16(o)))`, from the branch's own address (R213). -/
def State.relTarget (s : State) (o : Int) : Word := s.pc + BitVec.ofInt 16 o

/-- CALL's new stack pointer: `trunc_16(u(x[15]) + s)` (R261). -/
def State.raisedSp (s : State) (size : Nat) : Word := s.getReg sp + BitVec.ofNat 16 size

/-- One bit to the left, `bit` entering bit 0 (R152, R156). -/
def shiftLeft1 (w : Word) (bit : Bool) : Word := w.extractLsb' 0 15 ++ BitVec.ofBool bit

/-- One bit to the right, `bit` entering bit 15 (R153, R157). -/
def shiftRight1 (w : Word) (bit : Bool) : Word := BitVec.ofBool bit ++ w.extractLsb' 1 15

/-- Eight bits to the left, zeros entering (R154). -/
def shiftLeft8 (w : Word) : Word := w.extractLsb' 0 8 ++ 0#8

/-- Eight bits to the right, zeros entering (R155). -/
def shiftRight8 (w : Word) : Word := 0#8 ++ w.extractLsb' 8 8

/-- The bit entering bit 15 in ASR under a value of `ASR_FILL` (R157; conflict C5, decision D10). -/
def asrIn (fill : AsrFill) (w : Word) : Bool :=
  match fill with
  | .sign => w.msb
  | .zero => false

end Sys2Proof.Machine
end

