-- ==== Sys2Proof/Machine/Flags.lean ====
section
/-! DEFINITION. The flag computations (spec/00_scope.md R11, R17; spec/41_three_address.md R131, R132, R138) and the
conditions of spec/46_branches.md R211. -/

namespace Sys2Proof.Machine

/-- F as a 5-bit vector: bit 4 cb, bit 3 c, bit 2 v, bit 1 z, bit 0 s (R11, R33). -/
def Flags.toBits (f : Flags) : BitVec 5 :=
  BitVec.ofBool f.cb ++ BitVec.ofBool f.c ++ BitVec.ofBool f.v ++ BitVec.ofBool f.z ++ BitVec.ofBool f.s

/-- The flags of a 5-bit vector (R11, R33). -/
def Flags.ofBits (m : BitVec 5) : Flags where
  s := m.getLsbD 0
  z := m.getLsbD 1
  v := m.getLsbD 2
  c := m.getLsbD 3
  cb := m.getLsbD 4

/-- SETF: `F | m` (R172). -/
def Flags.setMask (f : Flags) (m : BitVec 5) : Flags := Flags.ofBits (f.toBits ||| m)

/-- CLRF: `F & ~m` (R173). -/
def Flags.clearMask (f : Flags) (m : BitVec 5) : Flags := Flags.ofBits (f.toBits &&& ~~~m)

/-- `Z(r)` of a 16-bit result (R17). -/
def zeroOf (r : Word) : Bool := r == 0

/-- `S(r)` of a 16-bit result (R17). -/
def signOf (r : Word) : Bool := r.msb

/-- z and s of a result, the other flags kept (R131, R196). -/
def Flags.withSZ (f : Flags) (r : Word) : Flags := { f with s := signOf r, z := zeroOf r }

/-- The result, carry out and signed overflow of `AddWithCarry(a, b, k)` (R17). -/
structure AdderOut where
  /-- `trunc_16(u(a) + u(b) + k)` -/
  result : Word
  /-- the unsigned sum does not fit 16 bits -/
  carry : Bool
  /-- the signed sum does not fit 16 bits -/
  overflow : Bool
  deriving DecidableEq, Repr

/-- `AddWithCarry(a, b, k)` (R17), computed exactly on integers and narrowed. -/
def addWithCarry (a b : Word) (k : Bool) : AdderOut :=
  let unsignedSum := a.toNat + b.toNat + k.toNat
  let signedSum := a.toInt + b.toInt + k.toNat
  { result := BitVec.ofNat 16 unsignedSum
    carry := decide (65536 ≤ unsignedSum)
    overflow := decide (signedSum < -32768) || decide (32767 < signedSum) }

/-- All four arithmetic flags of an adder's output, carry-block kept (R136, R137, R186, R187). -/
def Flags.withAdder (f : Flags) (out : AdderOut) : Flags :=
  { f with s := signOf out.result, z := zeroOf out.result, v := out.overflow, c := out.carry }

/-- ADD's adder carry-in and the bit LSL, LSR and ASL shift in: `c and not cb` (R132, R151). -/
def Flags.addCarryIn (f : Flags) : Bool := f.c && !f.cb

/-- SUB's adder carry-in: `c or cb` (R132). -/
def Flags.subCarryIn (f : Flags) : Bool := f.c || f.cb

/-- The carry, the other flags kept (R151: "Shift operations do not set any flags except carry"). -/
def Flags.withCarry (f : Flags) (c : Bool) : Flags := { f with c := c }

/-- MULT's exact signed product as a 32-bit vector (R138). -/
def signedProduct (a b : Word) : BitVec 32 := BitVec.ofInt 32 (a.toInt * b.toInt)

/-- The low half of a product, `P[15:0]` (R138). -/
def productLow (p : BitVec 32) : Word := p.extractLsb' 0 16

/-- The high half of a product, `P[31:16]` (R138). -/
def productHigh (p : BitVec 32) : Word := p.extractLsb' 16 16

/-- MULT's flags from the 32-bit product; the carry is the free value it is given (R138). -/
def Flags.withProduct (f : Flags) (p : BitVec 32) (carry : Bool) : Flags :=
  { f with s := p.msb, z := p == 0, v := (productLow p).signExtend 32 != p, c := carry }

/-- `cond(c)` on the flags before the branch (R211). -/
def Flags.holds (f : Flags) : Cond → Bool
  | .always => true
  | .less => f.s ^^ f.v
  | .greaterEq => !(f.s ^^ f.v)
  | .lessEq => (f.s ^^ f.v) || f.z
  | .greater => !((f.s ^^ f.v) || f.z)
  | .lessEqU => !f.c || f.z
  | .greaterU => f.c && !f.z
  | .zero => f.z
  | .notZero => !f.z
  | .carry => f.c
  | .notCarry => !f.c
  | .sign => f.s
  | .notSign => !f.s
  | .overflow => f.v
  | .notOverflow => !f.v

end Sys2Proof.Machine
end

