-- ==== Sys2Proof/Machine/BranchReg.lean ====
section
/-! DEFINITION. The fifteen register-mode branches (spec/46_branches.md R212): no register and no flag is written, and a
branch does not touch R13 (D26). -/

namespace Sys2Proof.Machine

/-- A register-mode branch (R212): the target is the whole of R_b. -/
def branchReg (c : Cond) (b : RegNo) (s : State) : Result := .next (s.branchTo (s.flags.holds c) (s.getReg b))

/-- BR (R214). -/
def execBr (b : RegNo) (s : State) : Result := branchReg .always b s

/-- BL (R215). -/
def execBl (b : RegNo) (s : State) : Result := branchReg .less b s

/-- BGE (R216). -/
def execBge (b : RegNo) (s : State) : Result := branchReg .greaterEq b s

/-- BLE (R217). -/
def execBle (b : RegNo) (s : State) : Result := branchReg .lessEq b s

/-- BG (R218). -/
def execBg (b : RegNo) (s : State) : Result := branchReg .greater b s

/-- BULE (R219). -/
def execBule (b : RegNo) (s : State) : Result := branchReg .lessEqU b s

/-- BUG (R220). -/
def execBug (b : RegNo) (s : State) : Result := branchReg .greaterU b s

/-- BZ (R221). -/
def execBz (b : RegNo) (s : State) : Result := branchReg .zero b s

/-- BNZ (R222). -/
def execBnz (b : RegNo) (s : State) : Result := branchReg .notZero b s

/-- BC (R223). -/
def execBc (b : RegNo) (s : State) : Result := branchReg .carry b s

/-- BNC (R224). -/
def execBnc (b : RegNo) (s : State) : Result := branchReg .notCarry b s

/-- BS (R225). -/
def execBs (b : RegNo) (s : State) : Result := branchReg .sign b s

/-- BNS (R226). -/
def execBns (b : RegNo) (s : State) : Result := branchReg .notSign b s

/-- BV (R227). -/
def execBv (b : RegNo) (s : State) : Result := branchReg .overflow b s

/-- BNV (R228). -/
def execBnv (b : RegNo) (s : State) : Result := branchReg .notOverflow b s

end Sys2Proof.Machine
end

