-- ==== Sys2Proof/Machine/BranchRel.lean ====
section
/-! DEFINITION. The fifteen relative branches (spec/46_branches.md R213); HALT is BRR(0) and NOP is BRR(1) (R247). -/

namespace Sys2Proof.Machine

/-- A relative branch (R213): the offset counts from the branch's own address. -/
def branchRel (c : Cond) (o : Int) (s : State) : Result := .next (s.branchTo (s.flags.holds c) (s.relTarget o))

/-- BRR (R229). -/
def execBrr (o : Int) (s : State) : Result := branchRel .always o s

/-- BLR (R230). -/
def execBlr (o : Int) (s : State) : Result := branchRel .less o s

/-- BGER (R231). -/
def execBger (o : Int) (s : State) : Result := branchRel .greaterEq o s

/-- BLER (R232). -/
def execBler (o : Int) (s : State) : Result := branchRel .lessEq o s

/-- BGR (R233). -/
def execBgr (o : Int) (s : State) : Result := branchRel .greater o s

/-- BULER (R234). -/
def execBuler (o : Int) (s : State) : Result := branchRel .lessEqU o s

/-- BUGR (R235). -/
def execBugr (o : Int) (s : State) : Result := branchRel .greaterU o s

/-- BZR (R236). -/
def execBzr (o : Int) (s : State) : Result := branchRel .zero o s

/-- BNZR (R237). -/
def execBnzr (o : Int) (s : State) : Result := branchRel .notZero o s

/-- BCR (R238). -/
def execBcr (o : Int) (s : State) : Result := branchRel .carry o s

/-- BNCR (R239). -/
def execBncr (o : Int) (s : State) : Result := branchRel .notCarry o s

/-- BSR (R240). -/
def execBsr (o : Int) (s : State) : Result := branchRel .sign o s

/-- BNSR (R241). -/
def execBnsr (o : Int) (s : State) : Result := branchRel .notSign o s

/-- BVR (R242). -/
def execBvr (o : Int) (s : State) : Result := branchRel .overflow o s

/-- BNVR (R243). -/
def execBnvr (o : Int) (s : State) : Result := branchRel .notOverflow o s

end Sys2Proof.Machine
end

