-- ==== Sys2Proof/Machine/CallReturn.lean ====
section
/-! DEFINITION. CALL and RETURN (spec/47_call_return.md). Every right-hand side is the value from before the instruction
(R15, D21). -/

namespace Sys2Proof.Machine

/-- CALL (R261): the return address at the old SP, the target from R_b, R_t from FP, FP from SP, SP raised by s. -/
def execCall (size : Nat) (b : RegNo) (s : State) : Result :=
  .next (((((s.writeData (s.getReg sp) (s.pc + 1)).setReg rt (s.getReg fp)).setReg fp (s.getReg sp)).setReg sp
    (s.raisedSp size)).setPc (s.getReg b))

/-- RETURN (R264): the pc from the cell at the old FP, FP from R_t, SP from the old FP. -/
def execRet (s : State) : Result :=
  withRead (s.readData (s.getReg fp)) fun target =>
    .next (((s.setReg fp (s.getReg rt)).setReg sp (s.getReg fp)).setPc target)

end Sys2Proof.Machine
end

