-- ==== Sys2Proof/Machine/FlagOps.lean ====
section
/-! DEFINITION. SETF, CLRF, SAVEF, RSTRF (spec/43_flag_ops.md), the only instructions that can change carry-block (R170). -/

namespace Sys2Proof.Machine

/-- SETF (R172). -/
def execSetf (v : BitVec 5) (s : State) : Result := .next (s.setFlags (s.flags.setMask v)).advance

/-- CLRF (R173). -/
def execClrf (v : BitVec 5) (s : State) : Result := .next (s.setFlags (s.flags.clearMask v)).advance

/-- SAVEF (R174): the five flags zero-extended (D12). -/
def execSavef (d : RegNo) (s : State) : Result := .next (s.setReg d (s.flags.toBits.zeroExtend 16)).advance

/-- RSTRF (R175): bits 15:5 are ignored (D12). -/
def execRstrf (d : RegNo) (s : State) : Result :=
  .next (s.setFlags (Flags.ofBits ((s.getReg d).extractLsb' 0 5))).advance

end Sys2Proof.Machine
end

