-- ==== Sys2Proof/Machine/ThreeAddress.lean ====
section
/-! DEFINITION. AND, OR, ADD, SUB, MULT, XOR (spec/41_three_address.md). Every source register and the incoming carry are
read before anything is written (R133); the flags describe the computed result even when R0 drops it (R131, D22). -/

namespace Sys2Proof.Machine

/-- The end of AND, OR and XOR: R_d, s and z; v, c and cb are kept (R131, D7). -/
def logicResult (d : RegNo) (r : Word) (s : State) : Result :=
  .next ((s.setReg d r).setFlags (s.flags.withSZ r)).advance

/-- The end of ADD, SUB, INC and DEC: R_d and the four arithmetic flags. -/
def adderResult (d : RegNo) (out : AdderOut) (s : State) : Result :=
  .next ((s.setReg d out.result).setFlags (s.flags.withAdder out)).advance

/-- AND (R134). -/
def execAnd (d a b : RegNo) (s : State) : Result := logicResult d (s.getReg a &&& s.getReg b) s

/-- OR (R135). -/
def execOr (d a b : RegNo) (s : State) : Result := logicResult d (s.getReg a ||| s.getReg b) s

/-- ADD (R136). -/
def execAdd (d a b : RegNo) (s : State) : Result :=
  adderResult d (addWithCarry (s.getReg a) (s.getReg b) s.flags.addCarryIn) s

/-- SUB (R137): the carry is the carry out of `a + ~b + k`, true for no borrow (R32, D5). -/
def execSub (d a b : RegNo) (s : State) : Result :=
  adderResult d (addWithCarry (s.getReg a) (~~~(s.getReg b)) s.flags.subCarryIn) s

/-- Whether the low half wins in a MULT into R13, for each value of `MULT_D13` (R138, D9). Assumption 2. -/
def lowHalfWins : MultD13 → Bool
  | .refuse => false
  | .lowWins => true
  | .highWins => false
  | .either => Config.multD13LowWins

/-- What R13 holds after a MULT: the high half of the product; with d = 13 the half that `MULT_D13` lets win (R138, D9). -/
def multRt (choice : MultD13) (d : RegNo) (p : BitVec 32) : Word :=
  if d = rt && lowHalfWins choice then productLow p else productHigh p

/-- MULT (R138): the low half to R_d, the high half to R13, the carry a fresh free value (U1, D8; Assumption 1). With d = 13
and `MULT_D13 = refuse` it stops (D9). -/
def execMult (d a b : RegNo) (s : State) : Result :=
  let p := signedProduct (s.getReg a) (s.getReg b)
  if d = rt ∧ s.params.multD13 = .refuse then raise (.refusal (.unspecifiedMultD13 (encode (.mult d a b))))
  else .next ((((s.setReg d (productLow p)).setReg rt (multRt s.params.multD13 d p)).setFlags
    (s.flags.withProduct p (Config.multCarry s.draws))).countDraw).advance

/-- XOR (R139). -/
def execXor (d a b : RegNo) (s : State) : Result := logicResult d (s.getReg a ^^^ s.getReg b) s

end Sys2Proof.Machine
end

