-- ==== Sys2Proof/Machine/IncDec.lean ====
section
/-! DEFINITION. INC and DEC (spec/44_increments.md): neither c nor cb is read. -/

namespace Sys2Proof.Machine

/-- INC (R186). -/
def execInc (d : RegNo) (delta : Nat) (s : State) : Result :=
  adderResult d (addWithCarry (s.getReg d) (amount delta) false) s

/-- DEC (R187): a SUB whose borrow-in is always 0 (D6). -/
def execDec (d : RegNo) (delta : Nat) (s : State) : Result :=
  adderResult d (addWithCarry (s.getReg d) (~~~(amount delta)) true) s

end Sys2Proof.Machine
end

