-- ==== Sys2Proof/Machine/LoadStore.lean ====
section
/-! DEFINITION. LOAD and STORE (spec/45_load_store.md). -/

namespace Sys2Proof.Machine

/-- LOAD (R196): s and z from the loaded word; the base is read before R_d is written. -/
def execLoad (d : RegNo) (o : Nat) (b : RegNo) (s : State) : Result :=
  withRead (s.readData (s.effectiveAddress b o)) fun r => .next ((s.setReg d r).setFlags (s.flags.withSZ r)).advance

/-- STORE (R199): no flag and no register. -/
def execStore (d : RegNo) (o : Nat) (b : RegNo) (s : State) : Result :=
  .next (s.writeData (s.effectiveAddress b o) (s.getReg d)).advance

end Sys2Proof.Machine
end

