-- ==== Sys2Proof/Machine/SetLoHi.lean ====
section
/-! DEFINITION. SETLO and SETHI (spec/40_setlo_sethi.md). No flag is written. -/

namespace Sys2Proof.Machine

/-- SETLO (R121). -/
def execSetlo (d : RegNo) (v : BitVec 8) (s : State) : Result :=
  .next (s.setReg d (signExtend8 v)).advance

/-- SETHI (R122); it reads the low byte of R_d. -/
def execSethi (d : RegNo) (v : BitVec 8) (s : State) : Result :=
  .next (s.setReg d (replaceHigh v (s.getReg d))).advance

end Sys2Proof.Machine
end

