-- ==== Sys2Proof/Machine/Shifts.lean ====
section
/-! DEFINITION. LSL, LSR, LSL8, LSR8, ASL, ASR (spec/42_shifts.md). A one-bit shift writes the carry, an eight-bit shift no
flag (R151). -/

namespace Sys2Proof.Machine

/-- The end of a one-bit shift: R_d and the carry, which is the bit shifted out (R151). -/
def shiftResult (d : RegNo) (r : Word) (out : Bool) (s : State) : Result :=
  .next ((s.setReg d r).setFlags (s.flags.withCarry out)).advance

/-- LSL (R152). -/
def execLsl (d b : RegNo) (s : State) : Result :=
  shiftResult d (shiftLeft1 (s.getReg b) s.flags.addCarryIn) (s.getReg b).msb s

/-- LSR (R153). -/
def execLsr (d b : RegNo) (s : State) : Result :=
  shiftResult d (shiftRight1 (s.getReg b) s.flags.addCarryIn) ((s.getReg b).getLsbD 0) s

/-- LSL8 (R154). -/
def execLsl8 (d b : RegNo) (s : State) : Result := .next (s.setReg d (shiftLeft8 (s.getReg b))).advance

/-- LSR8 (R155). -/
def execLsr8 (d b : RegNo) (s : State) : Result := .next (s.setReg d (shiftRight8 (s.getReg b))).advance

/-- ASL (R156): by everything the source states, what LSL does (D11). -/
def execAsl (d b : RegNo) (s : State) : Result :=
  shiftResult d (shiftLeft1 (s.getReg b) s.flags.addCarryIn) (s.getReg b).msb s

/-- ASR (R157): the bit that `ASR_FILL` says enters bit 15 (conflict C5, decision D10). -/
def execAsr (d b : RegNo) (s : State) : Result :=
  shiftResult d (shiftRight1 (s.getReg b) (asrIn s.params.asrFill (s.getReg b))) ((s.getReg b).getLsbD 0) s

end Sys2Proof.Machine
end

