-- ==== Sys2Proof/Machine/Special.lean ====
section
/-! DEFINITION. SWI and RTI (spec/46_branches.md R244, R245): the source gives encodings and no effect, so both refuse under
the spec's default of `SWI_RTI_SEMANTICS` (D15); a meaning that the user supplies is `stepWith` in Machine/Inputs.lean. Assumption 6. -/

namespace Sys2Proof.Machine

/-- SWI (R244): no effect in any source. -/
def execSwi (i : Nat) (_s : State) : Result := raise (.refusal (.unspecifiedSwi i))

/-- RTI (R245): no effect in any source. -/
def execRti (_s : State) : Result := raise (.refusal .unspecifiedRti)

end Sys2Proof.Machine
end

