-- ==== Sys2Proof/Machine/Step.lean ====
section
/-! DEFINITION. One step of the machine (spec/00_scope.md R16) and the state it leaves (R14). -/

namespace Sys2Proof.Machine

/-- One step (R16, R344): fetch, decode, then the rule of the instruction. -/
def step (s : State) : Host.Outcome State Fault Refusal := stepBy exec s

/-- The state after a step, the fault mark included (R14, R341). -/
def State.afterStep (s : State) : State := s.settle (step s)

/-- `s` with the table word `w` stored where the next step fetches. -/
def State.withFetchWord (s : State) (nbits w : Nat) : State := s.loadAtPc (BitVec.ofNat 16 (w % 2 ^ nbits))

end Sys2Proof.Machine
end

