-- ==== Sys2Proof/Machine/Assembler.lean ====
section
/-! DEFINITION. The assembly conventions and pseudo-operations of spec/48_assembly_pseudo_ops.md, from program items to the two
memory images. The lexical form of the text (R275) is not modelled: a program is a list of items. -/

namespace Sys2Proof.Machine

/-- A label of the program text (R278). -/
abbrev Label := String

/-- Why a program has no image. The source does not say what an assembler does then (N17, U5). -/
inductive AsmError where
  /-- a label that no LABEL or DLABEL defines -/
  | undefinedLabel (l : Label)
  /-- a name that is not letters, numerals and underscores starting with a letter (R278) -/
  | badLabel (l : Label)
  /-- an operand outside the range its field can hold (R299) -/
  | operandRange (i : Instr)
  /-- a control character or a backslash in a TIGER_STRING (R293) -/
  | badCharacter (c : Char)
  deriving DecidableEq, Repr

/-- One operation of a program text (R279): a true instruction, a pseudo-operation, a label or data. -/
inductive Item where
  /-- a true instruction -/
  | instr (i : Instr)
  /-- `SET(d, l)` with a number (R280) -/
  | set (d : RegNo) (l : Int)
  /-- `SET(d, L)` with a label (R278, R315) -/
  | setLabel (d : RegNo) (l : Label)
  /-- `CMP(a, b)` (R281) -/
  | cmp (a b : RegNo)
  /-- `NEG(d, b)` (R282; conflict C15) -/
  | neg (d b : RegNo)
  /-- `NOT(d, b)` (R283) -/
  | not (d b : RegNo)
  /-- `HALT()` (R284) -/
  | halt
  /-- `NOP()` (R285) -/
  | nop
  /-- `SETC()` (R286) -/
  | setc
  /-- `CLRC()` (R287) -/
  | clrc
  /-- `SETCB()` (R288) -/
  | setcb
  /-- `CLCCB()` (R289) -/
  | clccb
  /-- `FLAGS(a)` (R290) -/
  | flags (a : RegNo)
  /-- `LABEL(L)`: the instruction address of the next instruction (R278, R291) -/
  | label (l : Label)
  /-- `DLABEL(L)`: the data address of the next data cell (R278, R291) -/
  | dlabel (l : Label)
  /-- `INTEGER(i)` (R292) -/
  | integer (i : Int)
  /-- `TIGER_STRING(s)` (R293) -/
  | tigerString (s : String)
  /-- `CALL(s, L)` (R294) -/
  | callLabel (s : Nat) (l : Label)
  /-- `BR(L)` and every other register-mode branch to a label (R295, R297) -/
  | branchLabel (c : Cond) (l : Label)
  /-- `BRR(L)` and every other relative branch to a label (R296): one word where the offset fits, else the register-mode
  form, which the assembler chooses in `chooseForms` -/
  | branchRelLabel (c : Cond) (l : Label)
  deriving DecidableEq, Repr

/-- `SET(d, l)`: SETLO of the low byte, then SETHI of the high byte (R280, R123). -/
def setSequence (d : RegNo) (l : Word) : List Instr := [.setlo d (l.extractLsb' 0 8), .sethi d (l.extractLsb' 8 8)]

/-- `CMP(a, b)` (R281). -/
def cmpSequence (a b : RegNo) : List Instr := [.setf 0x08#5, .sub r0 a b]

/-- `NEG(d, b)` (R282). -/
def negSequence (d b : RegNo) : List Instr := [.setf 0x08#5, .sub d r0 b]

/-- `NOT(d, b)` (R283). -/
def notSequence (d b : RegNo) : List Instr := setSequence rt 0xFFFF#16 ++ [.xor d rt b]

/-- `FLAGS(a)` (R290). -/
def flagsSequence (a : RegNo) : List Instr := [.clrf 0x08#5, .add r0 a r0]

/-- `CALL(s, L)` with the label at `target` (R294). -/
def callSequence (s : Nat) (target : Word) : List Instr := setSequence rt target ++ [.call s rt]

/-- A register-mode branch to a label at `target` (R295, R297): "when a register-mode branch is used with a label, R_t is
used". -/
def branchSequence (c : Cond) (target : Word) : List Instr := setSequence rt target ++ [c.branchReg rt]

/-- The offset of a relative branch at `here` to a label at `target` (R296, D28): from the branch itself, modulo 2^16. -/
def relOffset (target here : Word) : Int := (target - here).toInt

/-- How many words of instruction memory an item fills. -/
def Item.instrCount : Item → Nat
  | .instr _ => 1
  | .set _ _ => 2
  | .setLabel _ _ => 2
  | .cmp _ _ => 2
  | .neg _ _ => 2
  | .not _ _ => 3
  | .halt => 1
  | .nop => 1
  | .setc => 1
  | .clrc => 1
  | .setcb => 1
  | .clccb => 1
  | .flags _ => 2
  | .label _ => 0
  | .dlabel _ => 0
  | .integer _ => 0
  | .tigerString _ => 0
  | .callLabel _ _ => 3
  | .branchLabel _ _ => 3
  | .branchRelLabel _ _ => 1

/-- The data words of an item: INTEGER's operand modulo 2^16 (R292, D29); TIGER_STRING's count and then one cell for each
character (R293, D24). -/
def Item.dataWords : Item → List Word
  | .integer i => [BitVec.ofInt 16 i]
  | .tigerString s => BitVec.ofNat 16 s.toList.length :: s.toList.map (fun c => BitVec.ofNat 16 c.toNat)
  | _ => []

/-- The label an item defines, at instruction address `here` and data address `dataHere`. -/
def Item.defines (here dataHere : Word) : Item → Option (Label × Word)
  | .label l => some (l, here)
  | .dlabel l => some (l, dataHere)
  | _ => none

/-- The addresses of the labels, instructions placed from `here` and data from `dataHere` upward in text order (R392). -/
def symbols (here dataHere : Word) : List Item → List (Label × Word)
  | [] => []
  | it :: rest =>
    (it.defines here dataHere).toList ++
      symbols (here + BitVec.ofNat 16 it.instrCount) (dataHere + BitVec.ofNat 16 it.dataWords.length) rest

/-- `address(L)` (R278). -/
def addressOf (table : List (Label × Word)) (l : Label) : Except AsmError Word :=
  match table.lookup l with
  | some a => .ok a
  | none => .error (.undefinedLabel l)

/-- The instructions of an item that stands at instruction address `here` (R279). -/
def Item.expand (table : List (Label × Word)) (here : Word) : Item → Except AsmError (List Instr)
  | .instr i => .ok [i]
  | .set d l => .ok (setSequence d (BitVec.ofInt 16 l))
  | .setLabel d l => (addressOf table l).map (setSequence d)
  | .cmp a b => .ok (cmpSequence a b)
  | .neg d b => .ok (negSequence d b)
  | .not d b => .ok (notSequence d b)
  | .halt => .ok [.brr 0]
  | .nop => .ok [.brr 1]
  | .setc => .ok [.setf 0x08#5]
  | .clrc => .ok [.clrf 0x08#5]
  | .setcb => .ok [.setf 0x10#5]
  | .clccb => .ok [.clrf 0x18#5]
  | .flags a => .ok (flagsSequence a)
  | .label _ => .ok []
  | .dlabel _ => .ok []
  | .integer _ => .ok []
  | .tigerString _ => .ok []
  | .callLabel s l => (addressOf table l).map (callSequence s)
  | .branchLabel c l => (addressOf table l).map (branchSequence c)
  | .branchRelLabel c l => (addressOf table l).map (fun a => [c.branchRel (relOffset a here)])

/-- Whether a relative branch to a label, standing at `here`, has its label inside −128 to 127 (R296). Every other item, and a
label that nothing defines, needs no other form. -/
def Item.reaches (table : List (Label × Word)) (here : Word) : Item → Bool
  | .branchRelLabel _ l =>
    match table.lookup l with
    | some a => decide (-128 ≤ relOffset a here) && decide (relOffset a here ≤ 127)
    | none => true
  | _ => true

/-- The register-mode form of a relative branch to a label (R296, R298); every other item is its own. -/
def Item.longForm : Item → Item
  | .branchRelLabel c l => .branchLabel c l
  | it => it

/-- Every relative branch that does not reach its label, in the layout that `table` gives, in its register-mode form. -/
def lengthen (table : List (Label × Word)) (here : Word) : List Item → List Item
  | [] => []
  | it :: rest =>
    (if it.reaches table here then it else it.longForm) :: lengthen table (here + BitVec.ofNat 16 it.instrCount) rest

/-- `n` rounds of `lengthen`, each in the layout the round before it leaves: a longer form moves the labels behind it. -/
def lengthenRounds : Nat → List Item → List Item
  | 0, prog => prog
  | n + 1, prog => lengthenRounds n (lengthen (symbols 0 0 prog) 0 prog)

/-- Whether an item is a relative branch to a label. -/
def Item.isShort : Item → Bool
  | .branchRelLabel _ _ => true
  | _ => false

/-- The program with the form of every relative branch to a label chosen (R296, R298). A round that changes anything leaves
fewer of them, so as many rounds as there are leave one nothing to change. Assumption 15. -/
def chooseForms (prog : List Item) : List Item := lengthenRounds (prog.countP Item.isShort) prog

/-- The words of instructions, each inside its operand ranges (R299, R108). -/
def encodeAll : List Instr → Except AsmError (List Word)
  | [] => .ok []
  | i :: is =>
    if i.wellFormed then (encodeAll is).map (fun ws => encode i :: ws) else .error (.operandRange i)

/-- The words of the instruction image, from address `here` upward. -/
def instrImage (table : List (Label × Word)) (here : Word) : List Item → Except AsmError (List Word)
  | [] => .ok []
  | it :: rest => do
    let is ← it.expand table here
    let ws ← encodeAll is
    let more ← instrImage table (here + BitVec.ofNat 16 it.instrCount) rest
    return ws ++ more

/-- A label is letters, numerals and underscores starting with a letter (R278). -/
def validLabel (l : Label) : Bool :=
  match l.toList with
  | [] => false
  | c :: cs => c.isAlpha && cs.all (fun x => x.isAlphanum || x == '_')

/-- A character of the portable set (R293): no control character, no backslash, and ASCII. -/
def validCharacter (c : Char) : Bool := decide (32 ≤ c.toNat) && decide (c.toNat < 127) && c != '\\'

/-- What is wrong with an item's own text, if anything. -/
def Item.textError : Item → Option AsmError
  | .label l => if validLabel l then none else some (.badLabel l)
  | .dlabel l => if validLabel l then none else some (.badLabel l)
  | .tigerString s => (s.toList.find? (fun c => !validCharacter c)).map .badCharacter
  | _ => none

/-- The two images of a program whose branches have their form: the words of `IM` and of `DM`, each from address 0 upward in
text order (R392). -/
def layout (prog : List Item) : Except AsmError (List Word × List Word) :=
  (instrImage (symbols 0 0 prog) 0 prog).map (fun im => (im, (prog.map Item.dataWords).flatten))

/-- The assembler (R279, R296, R392). -/
def assemble (prog : List Item) : Except AsmError (List Word × List Word) :=
  match prog.findSome? Item.textError with
  | some e => .error e
  | none => layout (chooseForms prog)

/-- The machine right after reset with its parameters and an assembled program loaded (R391, R392). -/
def State.ofProgram (p : Params) (prog : List Item) : Except AsmError State :=
  (assemble prog).map (fun w => State.ofImages p (imageFrom 0 w.1) (imageFrom 0 w.2))

end Sys2Proof.Machine
end

