-- ==== Sys2Proof/Machine/Idioms.lean ====
section
/-! DEFINITION. The idioms and the two function-call conventions of spec/49_idioms_conventions.md, as the item sequences
programs are written with. The processor checks none of them (R310, R333). -/

namespace Sys2Proof.Machine

/-- `[dh dl] = [ah al] + [bh bl]` with carry-block off (R312): low words first, the carry chained. -/
def addDouble (dh dl ah al bh bl : RegNo) : List Instr := [.clrf 0x08#5, .add dl al bl, .add dh ah bh]

/-- `[dh dl] = [ah al] - [bh bl]` with carry-block off (R312). -/
def subDouble (dh dl ah al bh bl : RegNo) : List Instr := [.setf 0x08#5, .sub dl al bl, .sub dh ah bh]

/-- `[h l]` shifted left one bit with carry-block off (R158). -/
def shiftLeftDouble (h l : RegNo) : List Instr := [.clrf 0x08#5, .lsl l l, .lsl h h]

/-- `[h l]` shifted right one bit, logically, with carry-block off (R158). -/
def shiftRightDouble (h l : RegNo) : List Instr := [.clrf 0x08#5, .lsr h h, .lsr l l]

/-- Make room for `n` words of local storage (R323): an INC of SP, or nothing for none. -/
def growFrame (n : Nat) : List Item := if n = 0 then [] else [.instr (.inc sp n)]

/-- Convention A's frame (R321): the cell of the static link. -/
def cellStaticLink : Nat := 1

/-- Convention A's frame (R321): the cell of the control link. -/
def cellControlLink : Nat := 2

/-- Convention A's frame (R321): the cell of parameter k, counted from 1; parameter 1's holds the result on exit. -/
def cellParameter (k : Nat) : Nat := 2 + k

/-- Convention A's initial frame size, "the number of parameters + 3" (R321, R322). -/
def frameSizeA (params : Nat) : Nat := params + 3

/-- The registers of a list with the frame offsets from `first` upward. -/
def withOffsets (first : Nat) : List RegNo → List (RegNo × Nat)
  | [] => []
  | r :: rs => (r, first) :: withOffsets (first + 1) rs

/-- STOREs of registers at consecutive offsets from a base. -/
def storeAt (base : RegNo) (first : Nat) (rs : List RegNo) : List Item :=
  (withOffsets first rs).map (fun p => .instr (.store p.1 p.2 base))

/-- LOADs of registers from consecutive offsets from a base, the last one first, as the figures restore them. -/
def loadAt (base : RegNo) (first : Nat) (rs : List RegNo) : List Item :=
  ((withOffsets first rs).map (fun p => .instr (.load p.1 p.2 base))).reverse

/-- Convention A, the caller's steps 1 to 3 (R322): parameters, static link, CALL. -/
def callerA (params : List RegNo) (link : RegNo) (f : Label) : List Item :=
  storeAt sp (cellParameter 1) params ++ [.instr (.store link cellStaticLink sp), .callLabel (frameSizeA params.length) f]

/-- Convention A, the callee's steps 1 and 2 (R323): local storage, the old FP and the registers it will use. -/
def calleeEntryA (params : Nat) (saved : List RegNo) : List Item :=
  growFrame saved.length ++ [.instr (.store rt cellControlLink fp)] ++ storeAt fp (frameSizeA params) saved

/-- Convention A, the callee's steps 4 to 6 (R323): the result, the saved registers and R_t restored, RETURN. -/
def calleeExitA (params : Nat) (saved : List RegNo) (result : RegNo) : List Item :=
  [.instr (.store result (cellParameter 1) fp)] ++ loadAt fp (frameSizeA params) saved ++
    [.instr (.load rt cellControlLink fp), .instr .ret]

/-- Convention B's initial frame size, "for just return addr." (R330). -/
def frameSizeB : Nat := 1

/-- Convention B's cell for the caller's FP, as Figure 9 uses it (R330, N3). -/
def cellControlLinkB : Nat := 1

/-- Convention B, the caller's step 3 (R331); parameters are already in R1 to R11. -/
def callerB (f : Label) : List Item := [.callLabel frameSizeB f]

/-- Convention B, the callee's steps 1 and 2 (R331): local storage and the old FP. -/
def calleeEntryB (locals : Nat) : List Item := growFrame (locals + 1) ++ [.instr (.store rt cellControlLinkB fp)]

/-- Convention B, the callee's step 4 (R331): R_t restored, RETURN; the result is in R1. -/
def calleeExitB : List Item := [.instr (.load rt cellControlLinkB fp), .instr .ret]

end Sys2Proof.Machine
end

