-- ==== Sys2Proof/Machine/Inputs.lean ====
section
/-! DEFINITION. The model's interface to its user (spec/70_reset_and_hazards.md R391): the two images and the parameters of R7
as arguments, a machine as the answer. -/

namespace Sys2Proof.Machine

/-- The parameter `SWI_RTI_SEMANTICS` (R7, R244, R245, decision D15): "`refuse`, or a meaning supplied by the model's user". -/
inductive SwiRtiSemantics where
  /-- SWI and RTI stop the model; the spec's default, and what `exec` does -/
  | refuse
  /-- the user's own SWI(i) and RTI() -/
  | supplied (swi : Nat → State → Result) (rti : State → Result)

/-- The meaning of an instruction under a value of `SWI_RTI_SEMANTICS`. -/
def execWith (sem : SwiRtiSemantics) (i : Instr) (s : State) : Result :=
  match sem with
  | .refuse => exec i s
  | .supplied swi rti =>
    match i with
    | .swi n => swi n s
    | .rti => rti s
    | i => exec i s

/-- One step under a value of `SWI_RTI_SEMANTICS` (R16). -/
def stepWith (sem : SwiRtiSemantics) (s : State) : Result := stepBy (execWith sem) s

/-- The machine for its inputs (R391): the parameters of R7 and the images `IM_IMAGE` and `DM_IMAGE`. Its end state is its
output (R390, `State.Halted`). -/
def machine (p : Params) (sem : SwiRtiSemantics) (imImage dmImage : List (Word × Word)) : Host.Core where
  State := State
  Fault := Fault
  Refusal := Refusal
  step := stepWith sem
  reset := State.ofImages p imImage dmImage

end Sys2Proof.Machine
end

