-- ==== Sys2Proof/Safety.lean ====
section
/-! DEFINITION. What counts as a safe run, the invariant of the state, and the frame predicates that claims use. -/

namespace Sys2Proof.Machine

/-- The invariant: the slot of the hard-wired register holds 0 (R22) and both memories keep their canonical form. -/
def State.Inv (s : State) : Prop := s.regs[0] = 0 ∧ Memory.wf s.dm = true ∧ Memory.wf s.im = true

/-- The end of a run (R390): the word at pc is `0x0000`, HALT. -/
def State.Halted (s : State) : Prop := s.faultMark = none ∧ s.fetch = .ok 0

/-- The next `n` steps end in no fault and no refusal. -/
def State.SafeFor : Nat → State → Prop
  | 0, _ => True
  | n + 1, s => ∃ t, step s = .next t ∧ State.SafeFor n t

/-- A data cell that LOAD and RETURN can read: it holds a word, or `DM_UNINIT` draws one (R58). -/
def State.Readable (s : State) (a : Word) : Prop := s.params.dmUninit = .draw ∨ ∃ x, s.dm.read a = some x

/-- Every register but the listed ones reads as before. -/
def SameRegsBut (ds : List RegNo) (s t : State) : Prop := ∀ r, r ∉ ds → t.getReg r = s.getReg r

/-- Every cell of data memory holds what it held, or still holds no word. -/
def SameData (s t : State) : Prop := ∀ a, t.dm.read a = s.dm.read a

/-- Every cell of data memory but `a` holds what it held. -/
def SameDataBut (a : Word) (s t : State) : Prop := ∀ x, x ≠ a → t.dm.read x = s.dm.read x

/-- What no instruction writes is unchanged: the instruction memory, the fault mark and the parameters. -/
def SameCode (s t : State) : Prop := t.im = s.im ∧ t.faultMark = s.faultMark ∧ t.params = s.params

/-- What every instruction that only falls through leaves: pc advanced by one (R27), both memories, the fault mark, the
parameters and the count of draws as they were. -/
def OnlyAdvances (s t : State) : Prop := t.pc = s.pc + 1 ∧ SameData s t ∧ SameCode s t ∧ t.draws = s.draws

/-- The outcome with its next state changed. -/
def mapNext (f : State → State) : Result → Result
  | .next t => .next (f t)
  | .fault x => .fault x
  | .refused x => .refused x

/-- The flags an instruction may write, the W and U entries of R31's table. -/
def flagsWritten : Instr → Flags
  | .and _ _ _ | .or _ _ _ | .xor _ _ _ | .load _ _ _ => ⟨true, true, false, false, false⟩
  | .add _ _ _ | .sub _ _ _ | .mult _ _ _ | .inc _ _ | .dec _ _ => ⟨true, true, true, true, false⟩
  | .lsl _ _ | .lsr _ _ | .asl _ _ | .asr _ _ => ⟨false, false, false, true, false⟩
  | .setf v | .clrf v => Flags.ofBits v
  | .rstrf _ => ⟨true, true, true, true, true⟩
  | .setlo _ _ | .sethi _ _ | .lsl8 _ _ | .lsr8 _ _ | .savef _ | .store _ _ _ | .swi _ | .rti | .ret | .call _ _
  | .br _ | .bl _ | .bge _ | .ble _ | .bg _ | .bule _ | .bug _ | .bz _
  | .bnz _ | .bc _ | .bnc _ | .bs _ | .bns _ | .bv _ | .bnv _
  | .brr _ | .blr _ | .bger _ | .bler _ | .bgr _ | .buler _ | .bugr _ | .bzr _
  | .bnzr _ | .bcr _ | .bncr _ | .bsr _ | .bnsr _ | .bvr _ | .bnvr _ => ⟨false, false, false, false, false⟩

/-- The registers an instruction may write: its d field, R13 for MULT and CALL, FP and SP for CALL and RETURN (R23, R24). -/
def regsWritten : Instr → List RegNo
  | .setlo d _ | .sethi d _ | .and d _ _ | .or d _ _ | .add d _ _ | .sub d _ _ | .xor d _ _ => [d]
  | .mult d _ _ => [d, rt]
  | .lsl d _ | .lsr d _ | .lsl8 d _ | .lsr8 d _ | .asl d _ | .asr d _ => [d]
  | .savef d | .inc d _ | .dec d _ | .load d _ _ => [d]
  | .call _ _ => [rt, fp, sp]
  | .ret => [fp, sp]
  | .setf _ | .clrf _ | .rstrf _ | .store _ _ _ | .swi _ | .rti
  | .br _ | .bl _ | .bge _ | .ble _ | .bg _ | .bule _ | .bug _ | .bz _
  | .bnz _ | .bc _ | .bnc _ | .bs _ | .bns _ | .bv _ | .bnv _
  | .brr _ | .blr _ | .bger _ | .bler _ | .bgr _ | .buler _ | .bugr _ | .bzr _
  | .bnzr _ | .bcr _ | .bncr _ | .bsr _ | .bnsr _ | .bvr _ | .bnvr _ => []

/-- Run a list of instructions one after another through `exec`, as straight-line code does. -/
def execAll : List Instr → State → Result
  | [], s => .next s
  | i :: is, s =>
    match exec i s with
    | .next t => execAll is t
    | .fault f => .fault f
    | .refused r => .refused r

end Sys2Proof.Machine
end

