-- ==== Sys2Proof/Certificates/Slice0/Obligations.lean ====
section
/-! DEFINITION. The statements for the provers. Each names the rules of spec/ it formalises; where a clause rests on a decision the
spec marks as its own (D<n> of spec/92_eei_decisions.md) or on an assumption of this model, its docstring says so. -/

open Sys2Proof Sys2Proof.Machine

/-! ### Encoding -/

/-- The decoder reads back every well-formed instruction from the word the encoder gives it (R100, R108). -/
def Obligations.DecodeOfEncodeIsIdentity : Prop :=
  ∀ i : Instr, i.WellFormed → decode (encode i) = .ok i

/-- Every defined word re-encodes to itself: one assembly form for each (R104, R108). -/
def Obligations.EncodeOfDecodeIsIdentity : Prop :=
  ∀ (w : Word) (i : Instr), decode w = .ok i → i.WellFormed ∧ encode i = w

/-- The undefined words are exactly those of R103 and R104. The strict reading of the bits drawn as 0 is the spec's decision
D13. -/
def Obligations.UndefinedWordsAreThoseListed : Prop :=
  ∀ w : Word, (∃ e, decode w = .error e) ↔
    w.extractLsb' 8 8 = 0x01#8 ∨
    (w.extractLsb' 8 8 = 0x11#8 ∧ 0x11 < (w.extractLsb' 0 8).toNat) ∨
    (w.extractLsb' 12 4 = 0x1#4 ∧ w.extractLsb' 8 4 ≠ 0x1#4 ∧ w.extractLsb' 4 4 ≠ 0x0#4) ∨
    (w.extractLsb' 12 4 = 0x3#4 ∧ w.extractLsb' 4 4 = 0x6#4 ∧ w.extractLsb' 9 2 ≠ 0x0#2) ∨
    (w.extractLsb' 12 4 = 0x3#4 ∧ w.extractLsb' 4 4 = 0x7#4 ∧ w.extractLsb' 0 3 ≠ 0x0#3)

/-- The word of every instruction as the sum R108 gives. -/
def Obligations.EncodedWordsAreTheSumsOfTheTable : Prop :=
  (∀ (d : RegNo) (v : BitVec 8),
    (encode (.setlo d v)).toNat = 0xE000 + d.toNat * 2 ^ 8 + v.toNat ∧
    (encode (.sethi d v)).toNat = 0xF000 + d.toNat * 2 ^ 8 + v.toNat) ∧
  (∀ d a b : RegNo, ∀ p ∈ [(Instr.and d a b, 0x8000), (Instr.or d a b, 0x9000), (Instr.add d a b, 0xA000),
      (Instr.sub d a b, 0xB000), (Instr.mult d a b, 0xC000), (Instr.xor d a b, 0xD000)],
    (encode p.1).toNat = p.2 + d.toNat * 2 ^ 8 + a.toNat * 2 ^ 4 + b.toNat) ∧
  (∀ d b : RegNo, ∀ p ∈ [(Instr.lsl d b, 0x3000), (Instr.lsr d b, 0x3010), (Instr.lsl8 d b, 0x3020),
      (Instr.lsr8 d b, 0x3030), (Instr.asl d b, 0x3040), (Instr.asr d b, 0x3050)],
    (encode p.1).toNat = p.2 + d.toNat * 2 ^ 8 + b.toNat) ∧
  (∀ v : BitVec 5,
    (encode (.setf v)).toNat = 0x3060 + v.toNat / 16 * 2 ^ 8 + v.toNat % 16 ∧
    (encode (.clrf v)).toNat = 0x3860 + v.toNat / 16 * 2 ^ 8 + v.toNat % 16) ∧
  (∀ d : RegNo,
    (encode (.savef d)).toNat = 0x3070 + d.toNat * 2 ^ 8 ∧ (encode (.rstrf d)).toNat = 0x3078 + d.toNat * 2 ^ 8) ∧
  (∀ (d : RegNo) (delta : Nat), 1 ≤ delta → delta ≤ 64 →
    (encode (.inc d delta)).toNat = 0x3080 + d.toNat * 2 ^ 8 + (delta - 1) ∧
    (encode (.dec d delta)).toNat = 0x30C0 + d.toNat * 2 ^ 8 + (delta - 1)) ∧
  (∀ (d : RegNo) (o : Nat) (b : RegNo), o ≤ 31 →
    (encode (.load d o b)).toNat = 0x4000 + o / 16 * 2 ^ 12 + d.toNat * 2 ^ 8 + o % 16 * 2 ^ 4 + b.toNat ∧
    (encode (.store d o b)).toNat = 0x6000 + o / 16 * 2 ^ 12 + d.toNat * 2 ^ 8 + o % 16 * 2 ^ 4 + b.toNat) ∧
  (∀ b : RegNo, ∀ p ∈ [(Instr.br b, 0), (Instr.bl b, 2), (Instr.bge b, 3), (Instr.ble b, 4), (Instr.bg b, 5),
      (Instr.bule b, 6), (Instr.bug b, 7), (Instr.bz b, 8), (Instr.bnz b, 9), (Instr.bc b, 10), (Instr.bnc b, 11),
      (Instr.bs b, 12), (Instr.bns b, 13), (Instr.bv b, 14), (Instr.bnv b, 15)],
    (encode p.1).toNat = 0x1000 + p.2 * 2 ^ 8 + b.toNat) ∧
  (∀ o : Int, -128 ≤ o → o ≤ 127 →
    ∀ p ∈ [(Instr.brr o, 0), (Instr.blr o, 2), (Instr.bger o, 3), (Instr.bler o, 4), (Instr.bgr o, 5),
      (Instr.buler o, 6), (Instr.bugr o, 7), (Instr.bzr o, 8), (Instr.bnzr o, 9), (Instr.bcr o, 10), (Instr.bncr o, 11),
      (Instr.bsr o, 12), (Instr.bnsr o, 13), (Instr.bvr o, 14), (Instr.bnvr o, 15)],
    ((encode p.1).toNat : Int) = p.2 * 2 ^ 8 + o % 256) ∧
  (∀ i : Nat, i ≤ 15 → (encode (.swi i)).toNat = 0x1100 + i) ∧
  encode .rti = 0x1110#16 ∧
  encode .ret = 0x1111#16 ∧
  (∀ (n : Nat) (b : RegNo), n ≤ 255 → (encode (.call n b)).toNat = 0x2000 + n * 2 ^ 4 + b.toNat)

/-- Words the spec prints, one for each family, decode to the instructions it names (section V13 of spec/95_test_vectors.md). -/
def Obligations.PrintedWordsDecode : Prop :=
  decode 0xE1B6#16 = .ok (.setlo 1#4 0xB6#8) ∧ decode 0xA123#16 = .ok (.add 1#4 2#4 3#4) ∧
  decode 0x3211#16 = .ok (.lsr 2#4 1#4) ∧ decode 0x3165#16 = .ok (.setf 0x15#5) ∧
  decode 0x3F78#16 = .ok (.rstrf 15#4) ∧ decode 0x3185#16 = .ok (.inc 1#4 6) ∧
  decode 0x5112#16 = .ok (.load 1#4 17 2#4) ∧ decode 0x130D#16 = .ok (.bge 13#4) ∧
  decode 0x00FC#16 = .ok (.brr (-4)) ∧ decode 0x1111#16 = .ok .ret ∧ decode 0x205D#16 = .ok (.call 5 13#4) ∧
  decode 0x1112#16 = .error .specialSpace

/-! ### The step -/

/-- A step of a machine without a fault mark fetches, decodes and runs the instruction at pc, or stops in the first phase that
fails (R16, R344). That an undefined word stops is the spec's decision D14. A cell that holds no word is fetched as the
parameter says, a free value or a fault (R58, decision D25; Assumption 3). -/
def Obligations.StepRunsTheDecodedInstruction : Prop :=
  ∀ s : State, s.faultMark = none →
    (∀ w, s.im.read s.pc = some w ∨
        (s.im.read s.pc = none ∧ s.params.imUninit = .draw ∧ w = Config.uninitCode s.pc) →
      (∀ i, decode w = .ok i → step s = exec i s) ∧
      (∀ e, decode w = .error e → step s = .fault (.undefinedInstruction w s.pc))) ∧
    (s.im.read s.pc = none → s.params.imUninit = .fault → step s = .fault (.uninitialisedRead .code s.pc))

/-- A step that stops makes no write, leaves the fault mark, and no number of later steps leaves that state (R14, R341; the
spec's decision D14). -/
def Obligations.StoppedStateIsFinal : Prop :=
  ∀ s : State, s.faultMark = none →
    (∀ f, step s = .fault f → s.afterStep = { s with faultMark := some (.fault f) } ∧
      ∀ n : Nat, State.afterStep^[n] s.afterStep = s.afterStep ∧ step (State.afterStep^[n] s.afterStep) = .fault f) ∧
    (∀ r, step s = .refused r → s.afterStep = { s with faultMark := some (.refusal r) } ∧
      ∀ n : Nat, State.afterStep^[n] s.afterStep = s.afterStep ∧ step (State.afterStep^[n] s.afterStep) = .refused r) ∧
    (∀ t, step s = .next t → s.afterStep = t)

/-- Every instruction but SWI and RTI completes in every state with every operand: overflow, a write to R0 and a wrapping
address end no run (R342). Outside this stand the two cases the spec's OPEN parameters decide: a MULT into R13 under
`MULT_D13 = refuse` (decision D9, Assumption 2) and a LOAD or RETURN from a cell without a word under `DM_UNINIT = fault`
(decision D25, Assumption 3). -/
def Obligations.OnlySwiAndRtiStop : Prop :=
  ∀ (i : Instr) (s : State), (∀ n, i ≠ .swi n) → i ≠ .rti →
    (∀ a b, i = .mult rt a b → s.params.multD13 ≠ .refuse) →
    (∀ d o b, i = .load d o b → s.Readable (s.effectiveAddress b o)) → (i = .ret → s.Readable (s.getReg fp)) →
    ∃ t, exec i s = .next t

/-- SWI and RTI, to which the source gives no effect, stop in every state and leave it as it was but for the mark (R244,
R245, R341). The stop is the spec's default of an OPEN parameter, decision D15 (Assumption 6). -/
def Obligations.SwiAndRtiRefuse : Prop :=
  ∀ s : State,
    (∀ n, exec (.swi n) s = .refused (.unspecifiedSwi n)) ∧ exec .rti s = .refused .unspecifiedRti ∧
    (∀ n ≤ 15, s.faultMark = none → s.im.read s.pc = some (BitVec.ofNat 16 (0x1100 + n)) →
      s.afterStep = { s with faultMark := some (.refusal (.unspecifiedSwi n)) }) ∧
    (s.faultMark = none → s.im.read s.pc = some 0x1110#16 →
      s.afterStep = { s with faultMark := some (.refusal .unspecifiedRti) })

/-! ### Reset and the invariant -/

/-- Reset: all registers and flags 0 (R39). PC = 0 is the spec's decision D3, the memories without a word D4, and the count of
draws at 0 is this model's choice (Assumption 1). -/
def Obligations.ResetClearsRegistersAndFlags : Prop :=
  (∀ r, State.reset.getReg r = 0) ∧ State.reset.flags = ⟨false, false, false, false, false⟩ ∧ State.reset.pc = 0 ∧
  (∀ a, State.reset.dm.read a = none) ∧ (∀ a, State.reset.im.read a = none) ∧ State.reset.faultMark = none

/-- The state after reset, and with any two images loaded, meets the invariant (R22, R39, R391; memories as the model keeps
them, Assumption 5). -/
def Obligations.ResetMeetsTheInvariant : Prop :=
  State.reset.Inv ∧ ∀ p im dm, (State.ofImages p im dm).Inv

/-- From every state that meets the invariant a step gives one that meets it: R0's slot holds 0 (R22) and both memories keep
their canonical form (Assumption 5). -/
def Obligations.EveryStepKeepsTheInvariant : Prop :=
  ∀ s t : State, s.Inv → step s = .next t → t.Inv

/-- In canonical form a memory is its contents: memories that read the same everywhere are the same data (Assumption 5). -/
def Obligations.CanonicalMemoriesWithEqualReadsAreEqual : Prop :=
  ∀ m n : Memory, Memory.wf m = true → Memory.wf n = true → (∀ a, m.read a = n.read a) → m = n

/-! ### Whole-machine rules -/

/-- No instruction reads or writes instruction memory: with any other one it does the same and leaves that one (R36, R64). Two
separate memories are the spec's decisions D1 and D19. -/
def Obligations.NoInstructionTouchesInstructionMemory : Prop :=
  ∀ (i : Instr) (s : State) (m : Memory),
    exec i { s with im := m } = mapNext (fun t => { t with im := m }) (exec i s) ∧
    ∀ t, exec i s = .next t → t.im = s.im

/-- "All other instructions affect only registers and flags": but for LOAD, STORE, CALL and RETURN no instruction reads or
writes data memory, and of these four LOAD and RETURN write none (R35). -/
def Obligations.OnlyFourInstructionsReachDataMemory : Prop :=
  ∀ (i : Instr) (s : State),
    ((∀ d o b, i ≠ .load d o b) → (∀ d o b, i ≠ .store d o b) → (∀ n b, i ≠ .call n b) → i ≠ .ret →
      ∀ m, exec i { s with dm := m } = mapNext (fun t => { t with dm := m }) (exec i s)) ∧
    ((∀ d o b, i ≠ .store d o b) → (∀ n b, i ≠ .call n b) → ∀ t, exec i s = .next t → SameData s t)

/-- Carry-block is written by SETF, CLRF and RSTRF only and read by ADD, SUB, LSL, LSR, ASL and SAVEF only; while it is set,
the carry has no influence on these five arithmetic and shift operations (R30). -/
def Obligations.CarryBlockWritersAndReaders : Prop :=
  (∀ (d a b : RegNo) (s : State) (x : Bool), s.flags.cb = true →
    ∀ i ∈ [Instr.add d a b, Instr.sub d a b, Instr.lsl d b, Instr.lsr d b, Instr.asl d b],
      exec i (s.setFlags { s.flags with c := x }) = exec i s) ∧
  ∀ (i : Instr) (s : State),
    ((∀ v, i ≠ .setf v) → (∀ v, i ≠ .clrf v) → (∀ d, i ≠ .rstrf d) →
      ∀ t, exec i s = .next t → t.flags.cb = s.flags.cb) ∧
    ((∀ d a b, i ≠ .add d a b) → (∀ d a b, i ≠ .sub d a b) → (∀ d b, i ≠ .lsl d b) → (∀ d b, i ≠ .lsr d b) →
      (∀ d b, i ≠ .asl d b) → (∀ d, i ≠ .savef d) → ∀ x : Bool,
      (∀ t u, exec i s = .next t → exec i (s.setFlags { s.flags with cb := x }) = .next u →
        { t with flags := { t.flags with cb := u.flags.cb } } = u))

/-- Each instruction leaves every flag that R31's table does not give it a W or a U for. That flags not named are unchanged is
the spec's decision D7. -/
def Obligations.FlagsOutsideTheTableAreKept : Prop :=
  ∀ (i : Instr) (s t : State), exec i s = .next t →
    ((flagsWritten i).s = false → t.flags.s = s.flags.s) ∧
    ((flagsWritten i).z = false → t.flags.z = s.flags.z) ∧
    ((flagsWritten i).v = false → t.flags.v = s.flags.v) ∧
    ((flagsWritten i).c = false → t.flags.c = s.flags.c) ∧
    ((flagsWritten i).cb = false → t.flags.cb = s.flags.cb)

/-- Each instruction leaves every register but those it names as destination and the implicit R13, FP and SP of MULT, CALL and
RETURN (R22, R23, R24). -/
def Obligations.RegistersOutsideTheDestinationsAreKept : Prop :=
  ∀ (i : Instr) (s t : State), exec i s = .next t → SameRegsBut (regsWritten i) s t ∧ t.getReg r0 = 0

/-- Where control goes after every instruction (R27), RETURN reading a cell that holds a word (one that holds none: `ReturnUnlinksTheFrame`). -/
def Obligations.ProgramCounterFollowsTheInstruction : Prop :=
  ∀ (i : Instr) (s t : State), exec i s = .next t →
    (∀ c b, i = Cond.branchReg c b → t.pc = if s.flags.holds c then s.getReg b else s.pc + 1) ∧
    (∀ c o, i = Cond.branchRel c o → t.pc = if s.flags.holds c then s.pc + BitVec.ofInt 16 o else s.pc + 1) ∧
    (∀ n b, i = .call n b → t.pc = s.getReg b) ∧
    (i = .ret → ∀ x, s.dm.read (s.getReg fp) = some x → t.pc = x) ∧
    ((∀ c b, i ≠ Cond.branchReg c b) → (∀ c o, i ≠ Cond.branchRel c o) → (∀ n b, i ≠ .call n b) → i ≠ .ret →
      t.pc = s.pc + 1)

/-! ### SETLO, SETHI -/

/-- SETLO (R121): the sign-extended immediate, no flag. -/
def Obligations.SetloLoadsTheSignExtendedByte : Prop :=
  ∀ (d : RegNo) (v : BitVec 8) (s : State),
    encode (.setlo d v) = 0b1110#4 ++ d ++ v ∧
    ∃ t, exec (.setlo d v) s = .next t ∧
      (d ≠ r0 → (t.getReg d).toInt = v.toInt) ∧ SameRegsBut [d] s t ∧ t.getReg r0 = 0 ∧
      t.flags = s.flags ∧ OnlyAdvances s t

/-- SETHI (R122): the high byte replaced, the low byte kept, no flag. -/
def Obligations.SethiReplacesTheHighByte : Prop :=
  ∀ (d : RegNo) (v : BitVec 8) (s : State),
    encode (.sethi d v) = 0b1111#4 ++ d ++ v ∧
    ∃ t, exec (.sethi d v) s = .next t ∧
      (d ≠ r0 → (t.getReg d).toNat = v.toNat * 256 + (s.getReg d).toNat % 256) ∧ SameRegsBut [d] s t ∧
      t.getReg r0 = 0 ∧ t.flags = s.flags ∧ OnlyAdvances s t

/-- SET, the pair SETLO and SETHI, leaves every 16-bit constant and touches no flag (R123, R280). -/
def Obligations.SetPairLoadsAnyConstant : Prop :=
  ∀ (d : RegNo) (l : Word) (s : State), ∃ t, execAll (setSequence d l) s = .next t ∧
    t.getReg d = (if d = r0 then 0 else l) ∧ SameRegsBut [d] s t ∧ t.flags = s.flags ∧ t.pc = s.pc + 2 ∧
    SameData s t ∧ SameCode s t ∧ t.draws = s.draws

/-! ### Three-address operations -/

/-- AND, OR, XOR (R134, R135, R139): bit by bit, s and z from the result even when R0 drops it, v, c and cb kept (the spec's
decisions D7 and D22). -/
def Obligations.LogicOperationsAreBitwise : Prop :=
  ∀ (d a b : RegNo) (s : State), ∀ p ∈ [
      (Instr.and d a b, (0b1000#4 ++ d ++ a ++ b : Word), Bool.and), (Instr.or d a b, 0b1001#4 ++ d ++ a ++ b, Bool.or),
      (Instr.xor d a b, 0b1101#4 ++ d ++ a ++ b, Bool.xor)],
    encode p.1 = p.2.1 ∧
    ∃ t, ∃ r : Word, exec p.1 s = .next t ∧
      (∀ k < 16, r.getLsbD k = p.2.2 ((s.getReg a).getLsbD k) ((s.getReg b).getLsbD k)) ∧
      t.getReg d = (if d = r0 then 0 else r) ∧ SameRegsBut [d] s t ∧
      (t.flags.z = true ↔ r = 0) ∧ t.flags.s = r.getLsbD 15 ∧
      t.flags.v = s.flags.v ∧ t.flags.c = s.flags.c ∧ t.flags.cb = s.flags.cb ∧ OnlyAdvances s t

/-- ADD (R136): the exact sum with the carry-in unless carry-block is set, wrapped; c for unsigned and v for signed overflow. -/
def Obligations.AddAddsWithCarryUnlessBlocked : Prop :=
  ∀ (d a b : RegNo) (s : State),
    let k : Nat := if s.flags.c = true ∧ s.flags.cb = false then 1 else 0
    let u : Nat := (s.getReg a).toNat + (s.getReg b).toNat + k
    let i : Int := (s.getReg a).toInt + (s.getReg b).toInt + k
    encode (.add d a b) = 0b1010#4 ++ d ++ a ++ b ∧
    ∃ t, exec (.add d a b) s = .next t ∧
      (t.getReg d).toNat = (if d = r0 then 0 else u % 65536) ∧ SameRegsBut [d] s t ∧
      (t.flags.z = true ↔ u % 65536 = 0) ∧ (t.flags.s = true ↔ 32768 ≤ u % 65536) ∧
      (t.flags.c = true ↔ 65535 < u) ∧ (t.flags.v = true ↔ i < -32768 ∨ 32767 < i) ∧
      t.flags.cb = s.flags.cb ∧ OnlyAdvances s t

/-- SUB (R137): the exact difference less the borrow-in, wrapped; v for signed overflow. That c means "no borrow" is the
spec's decision D5. -/
def Obligations.SubSubtractsWithBorrowUnlessBlocked : Prop :=
  ∀ (d a b : RegNo) (s : State),
    let borrow : Nat := if s.flags.c = false ∧ s.flags.cb = false then 1 else 0
    let u : Int := (s.getReg a).toNat - (s.getReg b).toNat - borrow
    let i : Int := (s.getReg a).toInt - (s.getReg b).toInt - borrow
    encode (.sub d a b) = 0b1011#4 ++ d ++ a ++ b ∧
    ∃ t, exec (.sub d a b) s = .next t ∧
      ((t.getReg d).toNat : Int) = (if d = r0 then 0 else u % 65536) ∧ SameRegsBut [d] s t ∧
      (t.flags.z = true ↔ u % 65536 = 0) ∧ (t.flags.s = true ↔ 32768 ≤ u % 65536) ∧
      (t.flags.c = true ↔ (s.getReg b).toNat + borrow ≤ (s.getReg a).toNat) ∧
      (t.flags.v = true ↔ i < -32768 ∨ 32767 < i) ∧ t.flags.cb = s.flags.cb ∧ OnlyAdvances s t

/-- MULT into a register other than R13 (R138): the exact signed product in two halves; z, s and v from the 32 bits. Nothing is
said of c, which is undefined (U1, the spec's decision D8). -/
def Obligations.MultGivesTheSignedProduct : Prop :=
  ∀ (d a b : RegNo) (s : State), d ≠ rt →
    let p : Int := (s.getReg a).toInt * (s.getReg b).toInt
    encode (.mult d a b) = 0b1100#4 ++ d ++ a ++ b ∧
    ∃ t, exec (.mult d a b) s = .next t ∧
      ((t.getReg d).toNat : Int) = (if d = r0 then 0 else p % 65536) ∧ (t.getReg rt).toInt = p / 65536 ∧
      SameRegsBut [d, rt] s t ∧
      (t.flags.z = true ↔ p = 0) ∧ (t.flags.s = true ↔ p < 0) ∧
      (t.flags.v = true ↔ p < -32768 ∨ 32767 < p) ∧ t.flags.cb = s.flags.cb ∧
      t.pc = s.pc + 1 ∧ SameData s t ∧ SameCode s t

/-- MULT into R13 keeps there the half that the parameter MULT_D13 lets win, with the flags of any other MULT. The parameter is
OPEN (R138, decision D9); under the model's own value `either` one of the two halves wins and nothing says which
(Assumption 2). -/
def Obligations.MultIntoRtKeepsOneHalf : Prop :=
  ∀ (a b : RegNo) (s : State), s.params.multD13 ≠ .refuse →
    let p : Int := (s.getReg a).toInt * (s.getReg b).toInt
    ∃ t, exec (.mult rt a b) s = .next t ∧
      (s.params.multD13 = .lowWins → ((t.getReg rt).toNat : Int) = p % 65536) ∧
      (s.params.multD13 = .highWins → (t.getReg rt).toInt = p / 65536) ∧
      (((t.getReg rt).toNat : Int) = p % 65536 ∨ (t.getReg rt).toInt = p / 65536) ∧ SameRegsBut [rt] s t ∧
      (t.flags.z = true ↔ p = 0) ∧ (t.flags.s = true ↔ p < 0) ∧
      (t.flags.v = true ↔ p < -32768 ∨ 32767 < p) ∧ t.flags.cb = s.flags.cb ∧
      t.pc = s.pc + 1 ∧ SameData s t ∧ SameCode s t

/-- The carry after MULT is a fresh free value: no operand, register, flag or memory determines it, only how many were drawn,
and no other instruction draws. The spec's decision D8, in the model's form of it (Assumption 1). -/
def Obligations.MultCarryIsAFreshFreeValue : Prop :=
  ∀ (i : Instr) (s t : State), exec i s = .next t →
    (∀ d a b, i = .mult d a b → t.flags.c = Config.multCarry s.draws ∧ t.draws = s.draws + 1) ∧
    ((∀ d a b, i ≠ .mult d a b) → t.draws = s.draws)

/-- The two descriptions of signed overflow in R17 agree. -/
def Obligations.AdderOverflowIsTheSignRule : Prop :=
  ∀ (a b : Word) (k : Bool),
    (addWithCarry a b k).overflow = (a.msb == b.msb && (addWithCarry a b k).result.msb != a.msb)

/-! ### Shifts -/

/-- LSL and LSR (R152, R153): one bit, the unblocked carry entering, the bit shifted out in c, no other flag. -/
def Obligations.LogicalShiftsRotateThroughCarry : Prop :=
  ∀ (d b : RegNo) (s : State),
    let k : Nat := if s.flags.c = true ∧ s.flags.cb = false then 1 else 0
    let x : Nat := (s.getReg b).toNat
    encode (.lsl d b) = 0b0011#4 ++ d ++ 0b0000#4 ++ b ∧ encode (.lsr d b) = 0b0011#4 ++ d ++ 0b0001#4 ++ b ∧
    (∃ t, exec (.lsl d b) s = .next t ∧ (t.getReg d).toNat = (if d = r0 then 0 else (2 * x + k) % 65536) ∧
      SameRegsBut [d] s t ∧ t.flags = { s.flags with c := decide (32768 ≤ x) } ∧ OnlyAdvances s t) ∧
    (∃ t, exec (.lsr d b) s = .next t ∧ (t.getReg d).toNat = (if d = r0 then 0 else x / 2 + 32768 * k) ∧
      SameRegsBut [d] s t ∧ t.flags = { s.flags with c := decide (x % 2 = 1) } ∧ OnlyAdvances s t)

/-- LSL8 and LSR8 (R154, R155): eight bits, zeros entering, no flag written or read. -/
def Obligations.ByteShiftsMoveEightBits : Prop :=
  ∀ (d b : RegNo) (s : State),
    let x : Nat := (s.getReg b).toNat
    encode (.lsl8 d b) = 0b0011#4 ++ d ++ 0b0010#4 ++ b ∧ encode (.lsr8 d b) = 0b0011#4 ++ d ++ 0b0011#4 ++ b ∧
    (∃ t, exec (.lsl8 d b) s = .next t ∧ (t.getReg d).toNat = (if d = r0 then 0 else x * 256 % 65536) ∧
      SameRegsBut [d] s t ∧ t.flags = s.flags ∧ OnlyAdvances s t) ∧
    (∃ t, exec (.lsr8 d b) s = .next t ∧ (t.getReg d).toNat = (if d = r0 then 0 else x / 256) ∧
      SameRegsBut [d] s t ∧ t.flags = s.flags ∧ OnlyAdvances s t)

/-- ASL doubles modulo 2^16 with the unblocked carry entering and ASR halves, each leaving the bit shifted out in c (R156, R157).
That ASL is LSL is the spec's decision D11. ASR rounds toward minus infinity under `ASR_FILL = sign`, the default, and halves the
unsigned value under `zero` (decision D10, Assumption 4). -/
def Obligations.ArithmeticShiftsDoubleAndHalve : Prop :=
  ∀ (d b : RegNo) (s : State),
    let k : Nat := if s.flags.c = true ∧ s.flags.cb = false then 1 else 0
    encode (.asl d b) = 0b0011#4 ++ d ++ 0b0100#4 ++ b ∧ encode (.asr d b) = 0b0011#4 ++ d ++ 0b0101#4 ++ b ∧
    (∃ t, exec (.asl d b) s = .next t ∧
      (t.getReg d).toNat = (if d = r0 then 0 else (2 * (s.getReg b).toNat + k) % 65536) ∧
      SameRegsBut [d] s t ∧ t.flags = { s.flags with c := decide ((s.getReg b).toInt < 0) } ∧ OnlyAdvances s t) ∧
    (∃ t, exec (.asr d b) s = .next t ∧
      (s.params.asrFill = .sign → (t.getReg d).toInt = (if d = r0 then 0 else (s.getReg b).toInt / 2)) ∧
      (s.params.asrFill = .zero → (t.getReg d).toNat = (if d = r0 then 0 else (s.getReg b).toNat / 2)) ∧
      SameRegsBut [d] s t ∧ t.flags = { s.flags with c := decide ((s.getReg b).toInt % 2 = 1) } ∧ OnlyAdvances s t)

/-! ### Flag operations -/

/-- SETF and CLRF (R172, R173): each flag whose mask bit is 1 becomes 1 or 0, the others keep their value. -/
def Obligations.FlagMasksSetAndClear : Prop :=
  ∀ (v : BitVec 5) (s : State), ∀ p ∈ [
      (Instr.setf v, (0b0011000#7 ++ v.extractLsb' 4 1 ++ 0b0110#4 ++ v.extractLsb' 0 4 : Word), true),
      (Instr.clrf v, 0b0011100#7 ++ v.extractLsb' 4 1 ++ 0b0110#4 ++ v.extractLsb' 0 4, false)],
    encode p.1 = p.2.1 ∧
    ∃ t, exec p.1 s = .next t ∧
      t.flags.s = (if v.getLsbD 0 then p.2.2 else s.flags.s) ∧ t.flags.z = (if v.getLsbD 1 then p.2.2 else s.flags.z) ∧
      t.flags.v = (if v.getLsbD 2 then p.2.2 else s.flags.v) ∧ t.flags.c = (if v.getLsbD 3 then p.2.2 else s.flags.c) ∧
      t.flags.cb = (if v.getLsbD 4 then p.2.2 else s.flags.cb) ∧
      SameRegsBut [] s t ∧ OnlyAdvances s t

/-- SAVEF and RSTRF (R174, R175): F in bits 4:0 with the weights of R11. That SAVEF clears bits 15:5 and RSTRF ignores them is
the spec's decision D12. -/
def Obligations.FlagsAreSavedAndRestoredInBits4To0 : Prop :=
  ∀ (d : RegNo) (s : State),
    encode (.savef d) = 0b0011#4 ++ d ++ 0b01110000#8 ∧ encode (.rstrf d) = 0b0011#4 ++ d ++ 0b01111000#8 ∧
    (∃ t, exec (.savef d) s = .next t ∧
      (t.getReg d).toNat = (if d = r0 then 0 else s.flags.s.toNat + 2 * s.flags.z.toNat + 4 * s.flags.v.toNat +
        8 * s.flags.c.toNat + 16 * s.flags.cb.toNat) ∧
      SameRegsBut [d] s t ∧ t.flags = s.flags ∧ OnlyAdvances s t) ∧
    (∃ t, exec (.rstrf d) s = .next t ∧
      t.flags.s = (s.getReg d).getLsbD 0 ∧ t.flags.z = (s.getReg d).getLsbD 1 ∧ t.flags.v = (s.getReg d).getLsbD 2 ∧
      t.flags.c = (s.getReg d).getLsbD 3 ∧ t.flags.cb = (s.getReg d).getLsbD 4 ∧
      SameRegsBut [] s t ∧ OnlyAdvances s t)

/-- SAVEF followed later by RSTRF of the untouched register restores the five flags exactly, whatever happened to them in
between (R175). -/
def Obligations.SavedFlagsAreRestored : Prop :=
  ∀ (d : RegNo) (s t u : State), d ≠ r0 → exec (.savef d) s = .next t → u.getReg d = t.getReg d →
    ∃ w, exec (.rstrf d) u = .next w ∧ w.flags = s.flags

/-! ### INC, DEC -/

/-- INC (R186): the amount 1 to 64 added, the four arithmetic flags from the sum, no carry read. -/
def Obligations.IncAddsTheAmount : Prop :=
  ∀ (d : RegNo) (delta : Nat) (s : State), 1 ≤ delta → delta ≤ 64 →
    let u : Nat := (s.getReg d).toNat + delta
    encode (.inc d delta) = 0b0011#4 ++ d ++ 0b10#2 ++ BitVec.ofNat 6 (delta - 1) ∧
    ∃ t, exec (.inc d delta) s = .next t ∧
      (t.getReg d).toNat = (if d = r0 then 0 else u % 65536) ∧ SameRegsBut [d] s t ∧
      (t.flags.z = true ↔ u % 65536 = 0) ∧ (t.flags.s = true ↔ 32768 ≤ u % 65536) ∧
      (t.flags.c = true ↔ 65536 ≤ u) ∧ (t.flags.v = true ↔ 32767 < (s.getReg d).toInt + delta) ∧
      t.flags.cb = s.flags.cb ∧ OnlyAdvances s t

/-- DEC (R187): the amount 1 to 64 subtracted, no carry read. That c means "no borrow" is the spec's decision D6. -/
def Obligations.DecSubtractsTheAmount : Prop :=
  ∀ (d : RegNo) (delta : Nat) (s : State), 1 ≤ delta → delta ≤ 64 →
    let u : Int := (s.getReg d).toNat - delta
    encode (.dec d delta) = 0b0011#4 ++ d ++ 0b11#2 ++ BitVec.ofNat 6 (delta - 1) ∧
    ∃ t, exec (.dec d delta) s = .next t ∧
      ((t.getReg d).toNat : Int) = (if d = r0 then 0 else u % 65536) ∧ SameRegsBut [d] s t ∧
      (t.flags.z = true ↔ u % 65536 = 0) ∧ (t.flags.s = true ↔ 32768 ≤ u % 65536) ∧
      (t.flags.c = true ↔ delta ≤ (s.getReg d).toNat) ∧ (t.flags.v = true ↔ (s.getReg d).toInt - delta < -32768) ∧
      t.flags.cb = s.flags.cb ∧ OnlyAdvances s t

/-! ### LOAD, STORE -/

/-- LOAD (R196) of a cell it can read: its word, s and z from it. The wrapping address is the spec's decision D2 (Assumption 8),
the kept v and c its decision D7; a cell that holds no word reads as the free value of its address under `DM_UNINIT = draw`
(R58, decision D25; Assumption 3). -/
def Obligations.LoadReadsTheAddressedCell : Prop :=
  ∀ (d : RegNo) (o : Nat) (b : RegNo) (s : State), o ≤ 31 →
    let ea : Word := BitVec.ofNat 16 ((s.getReg b).toNat + o)
    encode (.load d o b) =
      0b010#3 ++ (BitVec.ofNat 5 o).extractLsb' 4 1 ++ d ++ (BitVec.ofNat 5 o).extractLsb' 0 4 ++ b ∧
    (s.Readable ea → ∃ t, ∃ r : Word, exec (.load d o b) s = .next t ∧
      (∀ x, s.dm.read ea = some x → r = x) ∧ (s.dm.read ea = none → r = Config.uninitData ea) ∧
      t.getReg d = (if d = r0 then 0 else r) ∧ SameRegsBut [d] s t ∧
      (t.flags.z = true ↔ r = 0) ∧ (t.flags.s = true ↔ r.toInt < 0) ∧
      t.flags.v = s.flags.v ∧ t.flags.c = s.flags.c ∧ t.flags.cb = s.flags.cb ∧ OnlyAdvances s t)

/-- STORE (R199): all 16 bits of R_d into the addressed cell, no other cell, no register, no flag. The wrapping address is the
spec's decision D2. -/
def Obligations.StoreWritesTheAddressedCell : Prop :=
  ∀ (d : RegNo) (o : Nat) (b : RegNo) (s : State), o ≤ 31 →
    let ea : Word := BitVec.ofNat 16 ((s.getReg b).toNat + o)
    encode (.store d o b) =
      0b011#3 ++ (BitVec.ofNat 5 o).extractLsb' 4 1 ++ d ++ (BitVec.ofNat 5 o).extractLsb' 0 4 ++ b ∧
    ∃ t, exec (.store d o b) s = .next t ∧
      t.dm.read ea = some (s.getReg d) ∧ SameDataBut ea s t ∧
      SameRegsBut [] s t ∧ t.flags = s.flags ∧ t.pc = s.pc + 1 ∧ SameCode s t ∧ t.draws = s.draws

/-- A LOAD after a STORE gives the word stored where the addresses agree modulo 2^16 (it completes, since the cell now holds a
word), and what it would have given before where they do not: the same word and flags from a cell it can read, the same stop
from one it cannot (R61; the spec's decision D18). The wrap modulo 2^16 is its decision D2 (Assumption 8). A cell that holds no
word is as the OPEN parameter says, whose default is the fault, and at this model's reset value a free value (R58, decision D25;
Assumption 3). -/
def Obligations.LoadAfterStoreReadsTheStoredWord : Prop :=
  ∀ (d e : RegNo) (o p : Nat) (b c : RegNo) (s t : State), exec (.store d o b) s = .next t →
    (((s.getReg b).toNat + o) % 65536 = ((s.getReg c).toNat + p) % 65536 →
      ∃ u, exec (.load e p c) t = .next u ∧ u.getReg e = if e = r0 then 0 else s.getReg d) ∧
    (((s.getReg b).toNat + o) % 65536 ≠ ((s.getReg c).toNat + p) % 65536 →
      (s.Readable (s.effectiveAddress c p) → ∃ u v, exec (.load e p c) t = .next u ∧ exec (.load e p c) s = .next v ∧
        u.getReg e = v.getReg e ∧ u.flags = v.flags) ∧
      (∀ f, exec (.load e p c) s = .fault f → exec (.load e p c) t = .fault f))

/-! ### Branches -/

/-- BR and the six register-mode branches on comparisons (R214 to R220). That they write the pc only, R13 kept, is the spec's
decision D26 (Assumption 13). -/
def Obligations.RegisterBranchesOnComparisons : Prop :=
  ∀ (b : RegNo) (s : State),
    let f := s.flags
    ∀ p ∈ [(Instr.br b, 0b0000#4, true), (Instr.bl b, 0b0010#4, f.s != f.v), (Instr.bge b, 0b0011#4, f.s == f.v),
      (Instr.ble b, 0b0100#4, f.s != f.v || f.z), (Instr.bg b, 0b0101#4, f.s == f.v && !f.z),
      (Instr.bule b, 0b0110#4, !f.c || f.z), (Instr.bug b, 0b0111#4, f.c && !f.z)],
    encode p.1 = 0b0001#4 ++ p.2.1 ++ 0b0000#4 ++ b ∧
    exec p.1 s = .next { s with pc := if p.2.2 then s.getReg b else s.pc + 1 }

/-- The eight register-mode branches on one flag (R221 to R228). That they write the pc only, R13 kept, is the spec's
decision D26 (Assumption 13). -/
def Obligations.RegisterBranchesOnFlags : Prop :=
  ∀ (b : RegNo) (s : State),
    let f := s.flags
    ∀ p ∈ [(Instr.bz b, 0b1000#4, f.z), (Instr.bnz b, 0b1001#4, !f.z), (Instr.bc b, 0b1010#4, f.c),
      (Instr.bnc b, 0b1011#4, !f.c), (Instr.bs b, 0b1100#4, f.s), (Instr.bns b, 0b1101#4, !f.s),
      (Instr.bv b, 0b1110#4, f.v), (Instr.bnv b, 0b1111#4, !f.v)],
    encode p.1 = 0b0001#4 ++ p.2.1 ++ 0b0000#4 ++ b ∧
    exec p.1 s = .next { s with pc := if p.2.2 then s.getReg b else s.pc + 1 }

/-- BRR and the six relative branches on comparisons (R229 to R235): the offset counts from the branch itself. That the target
is taken modulo 2^16 is the spec's decision D2 (R213; Assumption 8), that they write the pc only, R13 kept, its decision D26
(Assumption 13). -/
def Obligations.RelativeBranchesOnComparisons : Prop :=
  ∀ (o : Int) (s : State), -128 ≤ o → o ≤ 127 →
    let f := s.flags
    ∀ p ∈ [(Instr.brr o, 0b0000#4, true), (Instr.blr o, 0b0010#4, f.s != f.v), (Instr.bger o, 0b0011#4, f.s == f.v),
      (Instr.bler o, 0b0100#4, f.s != f.v || f.z), (Instr.bgr o, 0b0101#4, f.s == f.v && !f.z),
      (Instr.buler o, 0b0110#4, !f.c || f.z), (Instr.bugr o, 0b0111#4, f.c && !f.z)],
    encode p.1 = 0b0000#4 ++ p.2.1 ++ BitVec.ofInt 8 o ∧
    exec p.1 s = .next { s with pc := if p.2.2 then BitVec.ofInt 16 (s.pc.toNat + o) else s.pc + 1 }

/-- The eight relative branches on one flag (R236 to R243). That the target
is taken modulo 2^16 is the spec's decision D2 (R213; Assumption 8), that they write the pc only, R13 kept, its decision D26
(Assumption 13). -/
def Obligations.RelativeBranchesOnFlags : Prop :=
  ∀ (o : Int) (s : State), -128 ≤ o → o ≤ 127 →
    let f := s.flags
    ∀ p ∈ [(Instr.bzr o, 0b1000#4, f.z), (Instr.bnzr o, 0b1001#4, !f.z), (Instr.bcr o, 0b1010#4, f.c),
      (Instr.bncr o, 0b1011#4, !f.c), (Instr.bsr o, 0b1100#4, f.s), (Instr.bnsr o, 0b1101#4, !f.s),
      (Instr.bvr o, 0b1110#4, f.v), (Instr.bnvr o, 0b1111#4, !f.v)],
    encode p.1 = 0b0000#4 ++ p.2.1 ++ BitVec.ofInt 8 o ∧
    exec p.1 s = .next { s with pc := if p.2.2 then BitVec.ofInt 16 (s.pc.toNat + o) else s.pc + 1 }

/-- After CMP every conditional branch on a comparison, in its register-mode and in its relative form, is taken exactly when its
name says so of R_a and R_b, signed or unsigned, whatever the flags were (R250, R281). A relative one goes to its offset from its
own address, the third word of the sequence; that the target is taken modulo 2^16 is the spec's decision D2 (R213; Assumption 8).
The branches write the pc only: that they leave R13 is its decision D26 (Assumption 13). The unsigned rows rest on the carry's
sense, its decision D5 (Assumption 12). -/
def Obligations.BranchesAfterCompareMeanWhatTheySay : Prop :=
  ∀ (a b r : RegNo) (o : Int) (s : State), -128 ≤ o → o ≤ 127 → ∃ t, execAll (cmpSequence a b) s = .next t ∧
    SameRegsBut [] s t ∧ SameData s t ∧ t.flags.cb = s.flags.cb ∧
    ∀ p ∈ [(Instr.bl r, Instr.blr o, decide ((s.getReg a).toInt < (s.getReg b).toInt)),
      (Instr.bge r, Instr.bger o, decide ((s.getReg b).toInt ≤ (s.getReg a).toInt)),
      (Instr.ble r, Instr.bler o, decide ((s.getReg a).toInt ≤ (s.getReg b).toInt)),
      (Instr.bg r, Instr.bgr o, decide ((s.getReg b).toInt < (s.getReg a).toInt)),
      (Instr.bule r, Instr.buler o, decide ((s.getReg a).toNat ≤ (s.getReg b).toNat)),
      (Instr.bug r, Instr.bugr o, decide ((s.getReg b).toNat < (s.getReg a).toNat)),
      (Instr.bz r, Instr.bzr o, decide (s.getReg a = s.getReg b)),
      (Instr.bnz r, Instr.bnzr o, decide (s.getReg a ≠ s.getReg b)),
      (Instr.bc r, Instr.bcr o, decide ((s.getReg b).toNat ≤ (s.getReg a).toNat)),
      (Instr.bnc r, Instr.bncr o, decide ((s.getReg a).toNat < (s.getReg b).toNat))],
    exec p.1 t = .next { t with pc := if p.2.2 then s.getReg r else s.pc + 3 } ∧
    exec p.2.1 t = .next { t with pc := if p.2.2 then BitVec.ofInt 16 (s.pc.toNat + 2 + o) else s.pc + 3 }

/-- HALT and NOP (R247): the words 0x0000 and 0x0001, BRR(0) and BRR(1). HALT is a fixed point, so a machine whose pc points at
0x0000 stays as it is for any number of steps; NOP changes the pc only. -/
def Obligations.HaltIsAFixedPoint : Prop :=
  encode (.brr 0) = 0x0000#16 ∧ encode (.brr 1) = 0x0001#16 ∧
  (∀ s : State, exec (.brr 0) s = .next s ∧ exec (.brr 1) s = .next { s with pc := s.pc + 1 }) ∧
  ∀ (s : State) (n : Nat), s.Halted → Host.Core.run Sys2Proof.core n s = .next s ∧ s.SafeFor n

/-! ### CALL, RETURN -/

/-- CALL (R261): five transfers that all read the state from before. The simultaneous reading is the spec's decision D21, the
wrapping SP its decision D2. -/
def Obligations.CallLinksTheFrames : Prop :=
  ∀ (n : Nat) (b : RegNo) (s : State), n ≤ 255 →
    encode (.call n b) = 0b0010#4 ++ BitVec.ofNat 8 n ++ b ∧
    ∃ t, exec (.call n b) s = .next t ∧
      t.dm.read (s.getReg sp) = some (s.pc + 1) ∧ SameDataBut (s.getReg sp) s t ∧
      t.pc = s.getReg b ∧ t.getReg rt = s.getReg fp ∧ t.getReg fp = s.getReg sp ∧
      (t.getReg sp).toNat = ((s.getReg sp).toNat + n) % 65536 ∧ SameRegsBut [rt, fp, sp] s t ∧
      t.flags = s.flags ∧ SameCode s t ∧ t.draws = s.draws

/-- RETURN (R264) through a cell it can read: three transfers that all read the state from before (the spec's decision D21). A
frame cell that holds no word gives the free value of its address under `DM_UNINIT = draw` (R58, decision D25; Assumption 3). -/
def Obligations.ReturnUnlinksTheFrame : Prop :=
  ∀ s : State,
    encode .ret = 0b0001000100010001#16 ∧
    (s.Readable (s.getReg fp) → ∃ t, exec .ret s = .next t ∧
      (∀ x, s.dm.read (s.getReg fp) = some x → t.pc = x) ∧
      (s.dm.read (s.getReg fp) = none → t.pc = Config.uninitData (s.getReg fp)) ∧
      t.getReg fp = s.getReg rt ∧ t.getReg sp = s.getReg fp ∧ SameRegsBut [fp, sp] s t ∧
      t.flags = s.flags ∧ SameData s t ∧ SameCode s t ∧ t.draws = s.draws)

/-- A RETURN that finds FP, R_t and the return-address cell as CALL left them goes back behind the CALL with FP and SP as
before it, R_t holding the caller's FP (R265). -/
def Obligations.ReturnUndoesCall : Prop :=
  ∀ (n : Nat) (b : RegNo) (s t u : State), exec (.call n b) s = .next t →
    u.getReg fp = t.getReg fp → u.getReg rt = t.getReg rt →
    u.dm.read (t.getReg fp) = t.dm.read (t.getReg fp) →
    ∃ w, exec .ret u = .next w ∧ w.pc = s.pc + 1 ∧ w.getReg fp = s.getReg fp ∧ w.getReg sp = s.getReg sp ∧
      w.getReg rt = s.getReg fp

/-! ### Sequences of the spec -/

/-- Double-precision addition with carry-block off is addition of 32-bit numbers, with the carry and overflow of 32 bits
(R140, R312). -/
def Obligations.DoubleAdditionIsExact : Prop :=
  ∀ (dh dl ah al bh bl : RegNo) (s : State), s.flags.cb = false → dl ≠ r0 → dh ≠ r0 → dh ≠ dl → ah ≠ dl → bh ≠ dl →
    let x : Nat := (s.getReg ah).toNat * 65536 + (s.getReg al).toNat
    let y : Nat := (s.getReg bh).toNat * 65536 + (s.getReg bl).toNat
    let i : Int := (s.getReg ah ++ s.getReg al).toInt + (s.getReg bh ++ s.getReg bl).toInt
    ∃ t, execAll (addDouble dh dl ah al bh bl) s = .next t ∧
      (t.getReg dh).toNat * 65536 + (t.getReg dl).toNat = (x + y) % 2 ^ 32 ∧
      (t.flags.c = true ↔ 2 ^ 32 ≤ x + y) ∧ (t.flags.v = true ↔ i < -2 ^ 31 ∨ 2 ^ 31 ≤ i) ∧
      SameRegsBut [dh, dl] s t ∧ SameData s t ∧ t.pc = s.pc + 3

/-- Double-precision subtraction with carry-block off is subtraction of 32-bit numbers, c telling that no borrow left it (R140,
R312). The sense of c is the spec's decision D5. -/
def Obligations.DoubleSubtractionIsExact : Prop :=
  ∀ (dh dl ah al bh bl : RegNo) (s : State), s.flags.cb = false → dl ≠ r0 → dh ≠ r0 → dh ≠ dl → ah ≠ dl → bh ≠ dl →
    let x : Nat := (s.getReg ah).toNat * 65536 + (s.getReg al).toNat
    let y : Nat := (s.getReg bh).toNat * 65536 + (s.getReg bl).toNat
    ∃ t, execAll (subDouble dh dl ah al bh bl) s = .next t ∧
      ((t.getReg dh).toNat * 65536 + (t.getReg dl).toNat : Int) = ((x : Int) - y) % 2 ^ 32 ∧
      (t.flags.c = true ↔ y ≤ x) ∧ SameRegsBut [dh, dl] s t ∧ SameData s t ∧ t.pc = s.pc + 3

/-- The double-word shifts with carry-block off shift 32 bits by one, the bit shifted out in c (R158). -/
def Obligations.DoubleShiftsMoveThirtyTwoBits : Prop :=
  ∀ (h l : RegNo) (s : State), s.flags.cb = false → h ≠ r0 → l ≠ r0 → h ≠ l →
    let x : Nat := (s.getReg h).toNat * 65536 + (s.getReg l).toNat
    (∃ t, execAll (shiftLeftDouble h l) s = .next t ∧
      (t.getReg h).toNat * 65536 + (t.getReg l).toNat = 2 * x % 2 ^ 32 ∧ (t.flags.c = true ↔ 2 ^ 31 ≤ x) ∧
      SameRegsBut [h, l] s t ∧ SameData s t) ∧
    (∃ t, execAll (shiftRightDouble h l) s = .next t ∧
      (t.getReg h).toNat * 65536 + (t.getReg l).toNat = x / 2 ∧ (t.flags.c = true ↔ x % 2 = 1) ∧
      SameRegsBut [h, l] s t ∧ SameData s t)

/-- FLAGS (R290): s and z describe R_a, v and c are cleared, whatever carry-block is; no register changes. -/
def Obligations.FlagsSequenceDescribesTheRegister : Prop :=
  ∀ (a : RegNo) (s : State),
    (flagsSequence a).map encode = [0x3868#16, 0xA#4 ++ 0#4 ++ a ++ 0#4] ∧
    ∃ t, execAll (flagsSequence a) s = .next t ∧ SameRegsBut [] s t ∧
      (t.flags.z = true ↔ s.getReg a = 0) ∧ (t.flags.s = true ↔ (s.getReg a).toInt < 0) ∧
      t.flags.v = false ∧ t.flags.c = false ∧ t.flags.cb = s.flags.cb ∧ t.pc = s.pc + 2 ∧ SameData s t

/-- NEG (R282): the negation modulo 2^16 with all four flags of 0 - R_b, the sign that of the 16-bit result. NOT (R283): the
complement with its sign and zero flags, which leaves 0xFFFF in R13 and is 0 for R13 itself. The sense of NEG's c is the spec's
decision D5; that the flags describe the computed result under R0 is its decision D22, that NOT keeps v and c its decision D7. -/
def Obligations.NegAndNotSequences : Prop :=
  ∀ (d b : RegNo) (s : State),
    (∃ t, execAll (negSequence d b) s = .next t ∧ t.getReg d = (if d = r0 then 0 else -s.getReg b) ∧
      SameRegsBut [d] s t ∧ (t.flags.s = true ↔ (-s.getReg b).toInt < 0) ∧ (t.flags.z = true ↔ s.getReg b = 0) ∧
      (t.flags.c = true ↔ s.getReg b = 0) ∧ (t.flags.v = true ↔ s.getReg b = 0x8000#16) ∧
      t.flags.cb = s.flags.cb ∧ SameData s t) ∧
    (∃ t, ∃ r : Word, execAll (notSequence d b) s = .next t ∧ r = (if b = rt then 0 else ~~~(s.getReg b)) ∧
      t.getReg d = (if d = r0 then 0 else r) ∧
      (t.flags.s = true ↔ r.toInt < 0) ∧ (t.flags.z = true ↔ r = 0) ∧
      t.flags.v = s.flags.v ∧ t.flags.c = s.flags.c ∧ t.flags.cb = s.flags.cb ∧
      (d ≠ rt → t.getReg rt = 0xFFFF#16) ∧ SameRegsBut [d, rt] s t ∧ SameData s t)

/-- The assembler lays out what it counted. In the program with its branch forms chosen, each item expands to as many instructions
as its size says, and their encodings stand in the instruction image at the sum of the sizes before it, its data words in the data
image at the sum of the data before it; a label's address is that sum; nothing else is in the images, and every word of the
instruction image decodes (R278, R279, R299, R392). The items, the refusals and that the first definition of a label counts are
this model's (Assumption 15). -/
def Obligations.AssembledImagesAreLaidOutAndDecode : Prop :=
  (∀ (table : List (Label × Word)) (here : Word) (it : Item) (is : List Instr),
    it.expand table here = .ok is → is.length = it.instrCount) ∧
  ∀ (prog : List Item) (im dm : List Word), assemble prog = .ok (im, dm) →
    let q : List Item := chooseForms prog
    let table : List (Label × Word) := symbols 0 0 q
    (∀ pre it post, q = pre ++ it :: post →
      let here : Nat := (pre.map Item.instrCount).sum
      let dataHere : Nat := (pre.map (fun x => x.dataWords.length)).sum
      (∃ is, it.expand table (BitVec.ofNat 16 here) = .ok is ∧ (∀ i ∈ is, i.WellFormed) ∧
        (im.drop here).take it.instrCount = is.map encode) ∧
      (dm.drop dataHere).take it.dataWords.length = it.dataWords ∧
      ∀ l, .label l ∉ pre → .dlabel l ∉ pre →
        (it = .label l → addressOf table l = .ok (BitVec.ofNat 16 here)) ∧
        (it = .dlabel l → addressOf table l = .ok (BitVec.ofNat 16 dataHere))) ∧
    im.length = (q.map Item.instrCount).sum ∧ dm.length = (q.map (fun it => it.dataWords.length)).sum ∧
    ∀ w ∈ im, ∃ i, decode w = .ok i

/-- The forms of the relative branches to labels in the program the assembler lays out (R296, R297, R298; the offset's reading is
the spec's decision D28). One that is still relative has an offset from itself that fits -128 to 127, and that offset leads to
the label. One that has the register-mode form did not reach its label in the layout of some round before the last. Where all
of them reach in the program as written, all are kept. The rounds are this model's choice among the forms R298 allows
(Assumption 15). -/
def Obligations.RelativeBranchesReachTheirLabels : Prop :=
  ∀ prog : List Item,
    let q : List Item := chooseForms prog
    let table : List (Label × Word) := symbols 0 0 q
    List.Forall₂ (fun it x => x = it ∨ ∃ c l, it = .branchRelLabel c l ∧ x = .branchLabel c l) prog q ∧
    (∀ pre c l post a, q = pre ++ .branchRelLabel c l :: post → addressOf table l = .ok a →
      let here : Word := BitVec.ofNat 16 (pre.map Item.instrCount).sum
      let o : Int := relOffset a here
      o ≤ 127 ∧ -128 ≤ o ∧ here + BitVec.ofInt 16 o = a ∧
      (Item.branchRelLabel c l).expand table here = .ok [c.branchRel o]) ∧
    (∀ (here : Word) c l a, addressOf table l = .ok a →
      (Item.branchLabel c l).expand table here = .ok (setSequence rt a ++ [c.branchReg rt])) ∧
    (∀ pre c l post pre' post', prog = pre ++ .branchRelLabel c l :: post → q = pre' ++ .branchLabel c l :: post' →
      pre'.length = pre.length →
      ∃ n < prog.countP Item.isShort, ∃ before behind a,
        lengthenRounds n prog = before ++ .branchRelLabel c l :: behind ∧ before.length = pre.length ∧
        addressOf (symbols 0 0 (lengthenRounds n prog)) l = .ok a ∧
        (relOffset a (BitVec.ofNat 16 (before.map Item.instrCount).sum) < -128 ∨
          127 < relOffset a (BitVec.ofNat 16 (before.map Item.instrCount).sum))) ∧
    ((∀ pre c l post a, prog = pre ++ .branchRelLabel c l :: post → addressOf (symbols 0 0 prog) l = .ok a →
      let o : Int := relOffset a (BitVec.ofNat 16 (pre.map Item.instrCount).sum)
      o ≤ 127 ∧ -128 ≤ o) → q = prog)

/-! ### Parameters and inputs -/

/-- The stops that the OPEN parameters bring at the spec's defaults: LOAD and RETURN from a cell without a word
(`DM_UNINIT = fault`: R58, decision D25; Assumption 3) and MULT into R13 (`MULT_D13 = refuse`: R138, decision D9;
Assumption 2), each with what R341 says it carries. The wrapping address is the spec's decision D2 (Assumption 8). -/
def Obligations.OpenParametersStopAtTheirDefaults : Prop :=
  ∀ s : State,
    (s.params.dmUninit = .fault →
      (∀ (d : RegNo) (o : Nat) (b : RegNo), s.dm.read (BitVec.ofNat 16 ((s.getReg b).toNat + o)) = none →
        exec (.load d o b) s = .fault (.uninitialisedRead .data (BitVec.ofNat 16 ((s.getReg b).toNat + o)))) ∧
      (s.dm.read (s.getReg fp) = none → exec .ret s = .fault (.uninitialisedRead .data (s.getReg fp)))) ∧
    (s.params.multD13 = .refuse → ∀ a b : RegNo,
      exec (.mult rt a b) s = .refused (.unspecifiedMultD13 (0xCD#8 ++ a ++ b)))

/-- The parameters reach only the instructions the spec gives them to: ASR, LOAD, RETURN and MULT into R13 (R7, R58, R138,
R157). Any other instruction does the same under all values, and none changes them (R40). -/
def Obligations.ParametersReachOnlyTheirInstructions : Prop :=
  ∀ (i : Instr) (s : State),
    ((∀ a b, i ≠ .mult rt a b) → (∀ d b, i ≠ .asr d b) → (∀ d o b, i ≠ .load d o b) → i ≠ .ret →
      ∀ p : Params, exec i { s with params := p } = mapNext (fun t => { t with params := p }) (exec i s)) ∧
    ∀ t, exec i s = .next t → t.params = s.params

/-- The machine for its inputs (R391): it starts in the reset state with the parameters and the two images it is given, a later
entry for an address replacing an earlier one, and a meaning that its user supplies for SWI and RTI is what these two do
(R341, decision D15), every other instruction staying as it is. With none supplied it is the machine of `step`. How images
are held is this model's choice (Assumptions 5 and 7). -/
def Obligations.MachineTakesItsInputs : Prop :=
  ∀ (p : Params) (sem : SwiRtiSemantics) (im dm : List (Word × Word)),
    (machine p sem im dm).step = stepWith sem ∧
    (let s : State := (machine p sem im dm).reset
     (∀ r, s.getReg r = 0) ∧ s.flags = ⟨false, false, false, false, false⟩ ∧ s.pc = 0 ∧ s.faultMark = none ∧
     s.params = p ∧ (∀ a, s.im.read a = im.reverse.lookup a) ∧ (∀ a, s.dm.read a = dm.reverse.lookup a)) ∧
    ∀ s : State,
      (sem = .refuse → stepWith sem s = step s) ∧
      ∀ swi rti, sem = .supplied swi rti → s.faultMark = none → ∀ w, s.im.read s.pc = some w →
        (∀ n ≤ 15, w = BitVec.ofNat 16 (0x1100 + n) → stepWith sem s = swi n s) ∧
        (w = 0x1110#16 → stepWith sem s = rti s) ∧
        ((∀ n ≤ 15, w ≠ BitVec.ofNat 16 (0x1100 + n)) → w ≠ 0x1110#16 → stepWith sem s = step s)
end

