-- ==== Sys2Proof/Laws/Encoding.lean ====
section
/-! SUPPORT. The fields of a word of each format: the word as a number (the form of R108), and what each extraction of the
decoder reads from it. -/

namespace Sys2Proof

/-- A concatenation as a number. -/
theorem toNat_concat {m n : Nat} (x : BitVec m) (y : BitVec n) : (x ++ y).toNat = x.toNat * 2 ^ n + y.toNat := by
  rw [BitVec.toNat_append, ← Nat.shiftLeft_add_eq_or_of_lt y.isLt, Nat.shiftLeft_eq]

/-- An extraction as a number. -/
theorem toNat_extract {w : Nat} (x : BitVec w) (lo len : Nat) :
    (x.extractLsb' lo len).toNat = x.toNat / 2 ^ lo % 2 ^ len := by
  rw [BitVec.extractLsb'_toNat, Nat.shiftRight_eq_div_pow]

/-- A word is known by its number: the way the layouts below are read back. -/
theorem extract_eq {x : Word} {lo len n : Nat} {y : BitVec len} (hx : x.toNat = n)
    (h : n / 2 ^ lo % 2 ^ len = y.toNat) : x.extractLsb' lo len = y := by
  apply BitVec.eq_of_toNat_eq
  rw [toNat_extract, hx, h]

theorem wordRRR_toNat (op d a b : BitVec 4) :
    (wordRRR op d a b).toNat = op.toNat * 4096 + d.toNat * 256 + a.toNat * 16 + b.toNat := by
  simp only [wordRRR, toNat_concat]; omega

theorem wordImm8_toNat (op d : BitVec 4) (v : BitVec 8) :
    (wordImm8 op d v).toNat = op.toNat * 4096 + d.toNat * 256 + v.toNat := by
  simp only [wordImm8, toNat_concat]; omega

theorem wordShift_toNat (o d b : BitVec 4) :
    (wordShift o d b).toNat = 0x3000 + d.toNat * 256 + o.toNat * 16 + b.toNat := by
  simp only [wordShift, toNat_concat, BitVec.toNat_ofNat]; omega

theorem wordFlagMask_toNat (k : BitVec 1) (v : BitVec 5) :
    (wordFlagMask k v).toNat = 0x3060 + k.toNat * 2048 + v.toNat / 16 * 256 + v.toNat % 16 := by
  have := v.isLt
  simp only [wordFlagMask, toNat_concat, toNat_extract, BitVec.toNat_ofNat]; omega

theorem wordFlagReg_toNat (r : BitVec 1) (d : BitVec 4) :
    (wordFlagReg r d).toNat = 0x3070 + d.toNat * 256 + r.toNat * 8 := by
  simp only [wordFlagReg, toNat_concat, BitVec.toNat_ofNat]; omega

theorem wordIncDec_toNat (m : BitVec 1) (d : BitVec 4) (delta : Nat) :
    (wordIncDec m d delta).toNat = 0x3080 + d.toNat * 256 + m.toNat * 64 + (delta - 1) % 64 := by
  simp only [wordIncDec, toNat_concat, BitVec.toNat_ofNat]; omega

theorem wordMem_toNat (t : BitVec 1) (d : BitVec 4) (o : Nat) (b : BitVec 4) :
    (wordMem t d o b).toNat =
      0x4000 + t.toNat * 8192 + o % 32 / 16 * 4096 + d.toNat * 256 + o % 16 * 16 + b.toNat := by
  simp only [wordMem, toNat_concat, toNat_extract, BitVec.toNat_ofNat]; omega

theorem wordBreg_toNat (c : Cond) (b : BitVec 4) :
    (wordBreg c b).toNat = 0x1000 + c.code.toNat * 256 + b.toNat := by
  simp only [wordBreg, toNat_concat, BitVec.toNat_ofNat]; omega

theorem wordBrel_toNat (c : Cond) (o : Int) :
    (wordBrel c o).toNat = c.code.toNat * 256 + (o % 256).toNat := by
  simp only [wordBrel, toNat_concat, BitVec.toNat_ofNat, BitVec.toNat_ofInt]; omega

theorem wordSwi_toNat (i : Nat) : (wordSwi i).toNat = 0x1100 + i % 16 := by
  simp only [wordSwi, toNat_concat, BitVec.toNat_ofNat]; omega

theorem wordCall_toNat (s : Nat) (b : BitVec 4) : (wordCall s b).toNat = 0x2000 + s % 256 * 16 + b.toNat := by
  simp only [wordCall, toNat_concat, BitVec.toNat_ofNat]; omega

/-- What the decoder reads from a word of format RRR. -/
theorem wordRRR_fields (op d a b : BitVec 4) :
    (wordRRR op d a b).extractLsb' 12 4 = op ∧ fieldD (wordRRR op d a b) = d ∧ fieldA (wordRRR op d a b) = a ∧
      fieldB (wordRRR op d a b) = b := by
  have h := wordRRR_toNat op d a b
  refine ⟨extract_eq h ?_, extract_eq h ?_, extract_eq h ?_, extract_eq h ?_⟩ <;> omega

/-- What the decoder reads from a word of format IMM8. -/
theorem wordImm8_fields (op d : BitVec 4) (v : BitVec 8) :
    (wordImm8 op d v).extractLsb' 12 4 = op ∧ fieldD (wordImm8 op d v) = d ∧ fieldImm8 (wordImm8 op d v) = v := by
  have h := wordImm8_toNat op d v
  refine ⟨extract_eq h ?_, extract_eq h ?_, extract_eq h ?_⟩ <;> omega

/-- What the decoder reads from a word of format SHIFT. -/
theorem wordShift_fields (o d b : BitVec 4) :
    (wordShift o d b).extractLsb' 12 4 = 3#4 ∧ (wordShift o d b).extractLsb' 4 4 = o ∧
      fieldD (wordShift o d b) = d ∧ fieldB (wordShift o d b) = b := by
  have h := wordShift_toNat o d b
  refine ⟨extract_eq h ?_, extract_eq h ?_, extract_eq h ?_, extract_eq h ?_⟩ <;>
    first | omega | (simp only [BitVec.toNat_ofNat]; omega)

/-- What the decoder reads from a word of format FLAGREG. -/
theorem wordFlagReg_fields (r : BitVec 1) (d : BitVec 4) :
    (wordFlagReg r d).extractLsb' 12 4 = 3#4 ∧ (wordFlagReg r d).extractLsb' 4 4 = 7#4 ∧
      (wordFlagReg r d).extractLsb' 0 3 = 0#3 ∧ (wordFlagReg r d).extractLsb' 3 1 = r ∧
      fieldD (wordFlagReg r d) = d := by
  have h := wordFlagReg_toNat r d
  refine ⟨extract_eq h ?_, extract_eq h ?_, extract_eq h ?_, extract_eq h ?_, extract_eq h ?_⟩ <;>
    first | omega | (simp only [BitVec.toNat_ofNat]; omega)

/-- A condition's code names the condition (R211). -/
@[simp] theorem condOf_code (c : Cond) : condOf c.code = some c := by cases c <;> rfl

/-- The conditions' codes are the fields that name one (R211). -/
theorem code_condOf {m : BitVec 4} {c : Cond} (h : condOf m = some c) : c.code = m := by
  revert m c; decide

end Sys2Proof
end

