-- ==== Sys2Proof/Laws/Arith.lean ====
section
/-! SUPPORT. The operand forms and flag computations as numbers: one lemma for each, which proofs cite instead of unfolding. -/

namespace Sys2Proof.Machine

/-- `s(w)` from `u(w)` (R9). -/
theorem toInt_eq_ite (r : Word) : r.toInt = if r.toNat < 32768 then (r.toNat : Int) else (r.toNat : Int) - 65536 := by
  rw [BitVec.toInt_eq_toNat_cond]; split <;> split <;> omega

/-- s of a result (R17). -/
theorem signOf_iff (r : Word) : signOf r = true ↔ 32768 ≤ r.toNat := by
  simp [signOf, BitVec.msb_eq_decide]

/-- z of a result (R17). -/
theorem zeroOf_iff (r : Word) : zeroOf r = true ↔ r.toNat = 0 := by
  simp [zeroOf, ← BitVec.toNat_inj]

/-- One bit to the left (R152). -/
theorem shiftLeft1_toNat (w : Word) (b : Bool) : (shiftLeft1 w b).toNat = (2 * w.toNat + b.toNat) % 65536 := by
  have : b.toNat < 2 := by cases b <;> decide
  simp only [shiftLeft1, toNat_concat, toNat_extract]
  simp
  omega

/-- One bit to the right (R153). -/
theorem shiftRight1_toNat (w : Word) (b : Bool) : (shiftRight1 w b).toNat = w.toNat / 2 + 32768 * b.toNat := by
  have := w.isLt
  simp only [shiftRight1, toNat_concat, toNat_extract]
  simp
  omega

/-- The product of two signed words lies well inside 32 bits. -/
theorem signedProduct_bound (a b : Word) :
    -1073709056 ≤ a.toInt * b.toInt ∧ a.toInt * b.toInt ≤ 1073741824 := by
  have h1 := @BitVec.toInt_lt 16 a
  have h2 := @BitVec.le_toInt 16 a
  have h3 := @BitVec.toInt_lt 16 b
  have h4 := @BitVec.le_toInt 16 b
  norm_num at *
  constructor <;> nlinarith

/-- The 32-bit product is exact (R138). -/
theorem signedProduct_toInt (a b : Word) : (signedProduct a b).toInt = a.toInt * b.toInt := by
  have := signedProduct_bound a b
  unfold signedProduct
  rw [BitVec.toInt_ofInt]
  simp [Int.bmod]
  omega

/-- The low half of a product (R138). -/
theorem productLow_toNat (p : BitVec 32) : ((productLow p).toNat : Int) = p.toInt % 65536 := by
  simp only [productLow, toNat_extract]
  rw [BitVec.toInt_eq_toNat_cond]
  split <;> omega

/-- The high half of a product (R138). -/
theorem productHigh_toInt (p : BitVec 32) : (productHigh p).toInt = p.toInt / 65536 := by
  have := p.isLt
  rw [toInt_eq_ite]
  simp only [productHigh, toNat_extract]
  rw [BitVec.toInt_eq_toNat_cond]
  split <;> split <;> omega

/-- v of a product: it does not fit 16 bits (R138). -/
theorem product_overflow_iff (p : BitVec 32) :
    ((productLow p).signExtend 32 != p) = true ↔ p.toInt < -32768 ∨ 32767 < p.toInt := by
  have h1 : ((productLow p).signExtend 32).toInt = (productLow p).toInt := BitVec.toInt_signExtend_of_le (by decide)
  have h2 := toInt_eq_ite (productLow p)
  have h3 := productLow_toNat p
  have h4 : (productLow p).toNat < 65536 := (productLow p).isLt
  have h5 := @BitVec.toInt_lt 32 p
  have h6 := @BitVec.le_toInt 32 p
  simp only [bne_iff_ne, ne_eq, ← BitVec.toInt_inj, h1, h2]
  split <;> omega

/-- z of a product (R138). -/
theorem product_zero_iff (p : BitVec 32) : (p == 0) = true ↔ p.toInt = 0 := by
  simp [← BitVec.toInt_inj]

/-- s of a product (R138). -/
theorem product_sign_iff (p : BitVec 32) : p.msb = true ↔ p.toInt < 0 := by
  rw [BitVec.msb_eq_toInt]; simp

/-- The carry-in of ADD and of the one-bit shifts (R132, R151). -/
theorem Flags.addCarryIn_toNat (f : Flags) : f.addCarryIn.toNat = if f.c = true ∧ f.cb = false then 1 else 0 := by
  unfold Flags.addCarryIn; cases f.c <;> cases f.cb <;> rfl

/-- The carry-in of SUB and its borrow are complements (R132). -/
theorem Flags.subCarryIn_toNat (f : Flags) :
    f.subCarryIn.toNat + (if f.c = false ∧ f.cb = false then 1 else 0) = 1 := by
  unfold Flags.subCarryIn; cases f.c <;> cases f.cb <;> rfl

/-- SETC (R286). -/
theorem Flags.setMask_carry (f : Flags) : f.setMask 0x08#5 = { f with c := true } := by
  rcases f with ⟨_ | _, _ | _, _ | _, _ | _, _ | _⟩ <;> rfl

/-- CLRC (R287). -/
theorem Flags.clearMask_carry (f : Flags) : f.clearMask 0x08#5 = { f with c := false } := by
  rcases f with ⟨_ | _, _ | _, _ | _, _ | _, _ | _⟩ <;> rfl

/-- The effective address as the spec writes it (R57). -/
theorem State.effectiveAddress_eq (s : State) (b : RegNo) (o : Nat) :
    s.effectiveAddress b o = BitVec.ofNat 16 ((s.getReg b).toNat + o) := by
  apply BitVec.eq_of_toNat_eq; simp [State.effectiveAddress]

/-- A relative branch's target as the spec writes it (R213). -/
theorem State.relTarget_eq (s : State) (o : Int) : s.relTarget o = BitVec.ofInt 16 (s.pc.toNat + o) := by
  simp [State.relTarget, BitVec.ofInt_add]

end Sys2Proof.Machine
end

