-- ==== Sys2Proof/Laws/Assembler.lean ====
section
/-! SUPPORT. What the shared operations of the assembler give when they give something. -/

namespace Sys2Proof.Machine

/-- `encodeAll` gives the words of the instructions, all of them inside their operand ranges (R108, R299). -/
theorem encodeAll_ok {is : List Instr} {ws : List Word} (h : encodeAll is = .ok ws) :
    ws = is.map encode ∧ ∀ i ∈ is, i.WellFormed := by
  induction is generalizing ws with
  | nil => simpa [encodeAll] using h.symm
  | cons i is ih =>
    unfold encodeAll at h
    split at h
    · next hi =>
      cases hr : encodeAll is with
      | error e => rw [hr] at h; simp [Except.map] at h
      | ok rest =>
        rw [hr] at h
        obtain ⟨e, hw⟩ := ih hr
        simp only [Except.map, Except.ok.injEq] at h
        subst h e
        exact ⟨rfl, by simpa using ⟨hi, hw⟩⟩
    · simp at h

/-- One item of the instruction image: its instructions, their words, then the rest from the address behind it. -/
theorem instrImage_cons_ok {table : List (Label × Word)} {here : Word} {it : Item} {rest : List Item} {im : List Word}
    (h : instrImage table here (it :: rest) = .ok im) :
    ∃ is ws more, it.expand table here = .ok is ∧ encodeAll is = .ok ws ∧
      instrImage table (here + BitVec.ofNat 16 it.instrCount) rest = .ok more ∧ im = ws ++ more := by
  unfold instrImage at h
  cases h1 : it.expand table here with
  | error e => simp [h1, bind, Except.bind] at h
  | ok is =>
    cases h2 : encodeAll is with
    | error e => simp [h1, h2, bind, Except.bind] at h
    | ok ws =>
      cases h3 : instrImage table (here + BitVec.ofNat 16 it.instrCount) rest with
      | error e => simp [h1, h2, h3, bind, Except.bind] at h
      | ok more =>
        simp [h1, h2, h3, bind, Except.bind, pure, Except.pure] at h
        exact ⟨is, ws, more, rfl, h2, rfl, h.symm⟩

/-- A layout is the instruction image with the labels' addresses, and the data words in text order (R392). -/
theorem layout_ok {prog : List Item} {im dm : List Word} (h : layout prog = .ok (im, dm)) :
    instrImage (symbols 0 0 prog) 0 prog = .ok im ∧ dm = (prog.map Item.dataWords).flatten := by
  unfold layout at h
  cases hi : instrImage (symbols 0 0 prog) 0 prog with
  | error e => rw [hi] at h; simp [Except.map] at h
  | ok w =>
    rw [hi] at h
    simp only [Except.map, Except.ok.injEq, Prod.mk.injEq] at h
    exact ⟨by rw [h.1], h.2.symm⟩

/-- A program with images has no item with a fault of its own text, and its images are the layout of its chosen forms. -/
theorem assemble_ok {prog : List Item} {im dm : List Word} (h : assemble prog = .ok (im, dm)) :
    prog.findSome? Item.textError = none ∧ layout (chooseForms prog) = .ok (im, dm) := by
  unfold assemble at h
  split at h
  · simp at h
  · next hn => exact ⟨hn, h⟩

/-! ### The forms of branches (R296, R298) -/

/-- An item and what a round of `lengthen` may make of it. -/
def Item.SameOrLong (it x : Item) : Prop := x = it ∨ ∃ c l, it = .branchRelLabel c l ∧ x = .branchLabel c l

/-- The longer form is the register-mode form of a relative branch to a label, and of anything else itself. -/
theorem Item.sameOrLong_longForm (it : Item) : it.SameOrLong it.longForm := by
  cases it <;> simp [Item.SameOrLong, Item.longForm]

/-- Two rounds are no more than one. -/
theorem Item.SameOrLong.trans {it x y : Item} (h : it.SameOrLong x) (k : x.SameOrLong y) : it.SameOrLong y := by
  rcases h with rfl | ⟨c, l, rfl, rfl⟩
  · exact k
  · rcases k with rfl | ⟨_, _, e, _⟩
    · exact .inr ⟨c, l, rfl, rfl⟩
    · simp at e

/-- A round changes nothing but the form of relative branches to labels. -/
theorem lengthen_forall₂ (table : List (Label × Word)) (here : Word) (prog : List Item) :
    List.Forall₂ Item.SameOrLong prog (lengthen table here prog) := by
  induction prog generalizing here with
  | nil => exact .nil
  | cons it rest ih =>
    refine .cons ?_ (ih _)
    split
    · exact .inl rfl
    · exact it.sameOrLong_longForm

/-- A round that does not reach a label has one relative branch to a label fewer. -/
theorem Item.isShort_of_not_reaches {table : List (Label × Word)} {here : Word} {it : Item}
    (h : it.reaches table here = false) : it.isShort = true ∧ it.longForm.isShort = false := by
  cases it <;> simp_all [Item.reaches, Item.isShort, Item.longForm]

/-- A round changes nothing, or it leaves fewer relative branches to labels. -/
theorem lengthen_eq_or_lt (table : List (Label × Word)) (here : Word) (prog : List Item) :
    lengthen table here prog = prog ∨ (lengthen table here prog).countP Item.isShort < prog.countP Item.isShort := by
  induction prog generalizing here with
  | nil => exact .inl rfl
  | cons it rest ih =>
    simp only [lengthen, List.countP_cons]
    cases hr : it.reaches table here with
    | true => rcases ih (here + BitVec.ofNat 16 it.instrCount) with e | h <;> simp_all
    | false =>
      obtain ⟨h1, h2⟩ := Item.isShort_of_not_reaches hr
      right
      rcases ih (here + BitVec.ofNat 16 it.instrCount) with e | h
      · simp_all
      · simp_all; omega

/-- A round works item by item, each part of a program from the address where it stands. -/
theorem lengthen_append (table : List (Label × Word)) (here : Word) (pre post : List Item) :
    lengthen table here (pre ++ post) = lengthen table here pre ++
      lengthen table (here + BitVec.ofNat 16 (pre.map Item.instrCount).sum) post := by
  induction pre generalizing here with
  | nil => simp [lengthen]
  | cons it rest ih => simp [lengthen, ih, BitVec.add_assoc, BitVec.ofNat_add]

/-- A round keeps the number of items. -/
@[simp] theorem lengthen_length (table : List (Label × Word)) (here : Word) (prog : List Item) :
    (lengthen table here prog).length = prog.length :=
  (lengthen_forall₂ table here prog).length_eq.symm

/-- A relative branch that a round lengthens has a label, and an offset that does not fit (R296). -/
theorem Item.branchRelLabel_not_reaches {table : List (Label × Word)} {here : Word} {c : Cond} {l : Label} :
    (Item.branchRelLabel c l).reaches table here = false ↔
      ∃ a, addressOf table l = .ok a ∧ (relOffset a here < -128 ∨ 127 < relOffset a here) := by
  simp only [Item.reaches, addressOf]
  cases hl : table.lookup l with
  | none => simp
  | some a =>
    simp only [Bool.and_eq_false_iff, decide_eq_false_iff_not, Except.ok.injEq, exists_eq_left', not_le]

/-- A round changes nothing exactly where every item reaches. -/
theorem lengthen_eq_self_iff (table : List (Label × Word)) (here : Word) (prog : List Item) :
    lengthen table here prog = prog ↔ ∀ pre it post, prog = pre ++ it :: post →
      it.reaches table (here + BitVec.ofNat 16 (pre.map Item.instrCount).sum) = true := by
  induction prog generalizing here with
  | nil => simp [lengthen]
  | cons it rest ih =>
    have hl : ∀ x : Item, (if x.reaches table here then x else x.longForm) = x ↔ x.reaches table here = true := by
      intro x
      cases hr : x.reaches table here with
      | true => simp
      | false =>
        obtain ⟨h1, h2⟩ := Item.isShort_of_not_reaches hr
        simp only [Bool.false_eq_true, if_false, iff_false]
        intro e; rw [e, h1] at h2; cases h2
    simp only [lengthen, List.cons.injEq, hl, ih]
    constructor
    · rintro ⟨h, k⟩ pre x post e
      cases pre with
      | nil => obtain ⟨rfl, rfl⟩ := List.cons.inj e; simpa using h
      | cons y pre =>
        obtain ⟨rfl, rfl⟩ := List.cons.inj e
        simpa [BitVec.add_assoc, BitVec.ofNat_add] using k pre x post rfl
    · intro h
      refine ⟨by simpa using h [] it rest rfl, fun pre x post e => ?_⟩
      simpa [BitVec.add_assoc, BitVec.ofNat_add, e] using h (it :: pre) x post (by rw [e]; rfl)

end Sys2Proof.Machine
end

