-- ==== Sys2Proof/Laws/Memory.lean ====
section
/-! SUPPORT. Memories: read after write, and every memory operation keeps the canonical form. -/

namespace Sys2Proof.Machine

/-- A put is found, and no other address is touched; the memory need not be canonical. -/
theorem Memory.find_put (m : Memory) (a b : Nat) (v : Word) :
    Memory.find (Memory.put m a v) b = if b = a then some v else Memory.find m b := by
  induction m with
  | nil => simp only [Memory.put, Memory.find]; split <;> split <;> simp_all
  | cons c m ih =>
    obtain ⟨k, x⟩ := c
    simp only [Memory.put]
    split_ifs with h1 h2 h3 h4 h5 <;> simp only [Memory.find, ih] <;> split_ifs <;> first | rfl | omega

/-- The written cell holds the word written. -/
@[simp] theorem Memory.read_write_self (m : Memory) (a v : Word) : (m.write a v).read a = some v := by
  simp [Memory.read, Memory.write, Memory.find_put]

/-- A write leaves every other cell. -/
theorem Memory.read_write_of_ne (m : Memory) {a b : Word} (v : Word) (h : b ≠ a) : (m.write a v).read b = m.read b := by
  have : b.toNat ≠ a.toNat := fun e => h (BitVec.eq_of_toNat_eq e)
  simp [Memory.read, Memory.write, Memory.find_put, this]

/-- What any cell holds after a write to any cell. -/
theorem Memory.read_write (m : Memory) (a b v : Word) :
    (m.write a v).read b = if b = a then some v else m.read b := by
  split
  · next h => subst h; simp
  · next h => exact Memory.read_write_of_ne m v h

/-- Every address of a memory after a put is the address put or one that was there. -/
theorem Memory.mem_put {m : Memory} {a : Nat} {v : Word} {c : Cell} (h : c ∈ Memory.put m a v) : c.1 = a ∨ c ∈ m := by
  induction m with
  | nil => simp_all [Memory.put]
  | cons d m ih =>
    obtain ⟨k, x⟩ := d
    simp only [Memory.put] at h
    split_ifs at h <;> simp only [List.mem_cons] at h ⊢ <;> aesop

/-- The canonical form of a memory that is not empty. -/
theorem Memory.wf_cons (k : Nat) (x : Word) (m : Memory) :
    Memory.wf ((k, x) :: m) = true ↔ k < 65536 ∧ (∀ c ∈ m, k < c.1) ∧ Memory.wf m = true := by
  simp [Memory.wf, and_assoc]

/-- A put below 2^16 keeps the canonical form. -/
theorem Memory.wf_put {m : Memory} {a : Nat} (v : Word) (ha : a < 65536) (h : Memory.wf m = true) :
    Memory.wf (Memory.put m a v) = true := by
  induction m with
  | nil => simp [Memory.put, Memory.wf, ha]
  | cons d m ih =>
    obtain ⟨k, x⟩ := d
    obtain ⟨hk, hlt, hm⟩ := (Memory.wf_cons k x m).1 h
    simp only [Memory.put]
    split_ifs with h1 h2
    · refine (Memory.wf_cons _ _ _).2 ⟨ha, fun c hc => ?_, h⟩
      rcases List.mem_cons.1 hc with rfl | hc
      · exact h1
      · exact h1.trans (hlt c hc)
    · subst h2; exact (Memory.wf_cons _ _ _).2 ⟨hk, hlt, hm⟩
    · refine (Memory.wf_cons _ _ _).2 ⟨hk, fun c hc => ?_, ih hm⟩
      rcases Memory.mem_put hc with e | hc
      · omega
      · exact hlt c hc

/-- A write keeps the canonical form. -/
theorem Memory.wf_write {m : Memory} (a v : Word) (h : Memory.wf m = true) : Memory.wf (m.write a v) = true :=
  Memory.wf_put v a.isLt h

/-- An image is canonical. -/
theorem Memory.wf_ofImage (l : List (Word × Word)) : Memory.wf (Memory.ofImage l) = true := by
  suffices h : ∀ m : Memory, Memory.wf m = true → Memory.wf (l.foldl (fun m p => Memory.write m p.1 p.2) m) = true from
    h [] rfl
  induction l with
  | nil => exact fun m h => h
  | cons p l ih => exact fun m h => ih _ (Memory.wf_write p.1 p.2 h)

/-- Reset's memories are canonical. -/
theorem State.reset_wf : Memory.wf State.reset.dm = true ∧ Memory.wf State.reset.im = true := ⟨rfl, rfl⟩

/-- A read that gives a word found it in the cell, or the parameter drew it for a cell that holds none. -/
theorem Memory.readOr_eq_ok {m : Memory} {u : Uninit} {free : Word → Word} {space : Space} {a v : Word} :
    m.readOr u free space a = .ok v ↔ m.read a = some v ∨ (m.read a = none ∧ u = .draw ∧ free a = v) := by
  unfold Memory.readOr
  cases m.read a <;> cases u <;> simp

/-- A read that gives no word is the one fault, of a cell that holds none. -/
theorem Memory.readOr_eq_error {m : Memory} {u : Uninit} {free : Word → Word} {space : Space} {a : Word} {f : Fault} :
    m.readOr u free space a = .error f ↔ m.read a = none ∧ u = .fault ∧ .uninitialisedRead space a = f := by
  unfold Memory.readOr
  cases m.read a <;> cases u <;> simp

/-- What LOAD and RETURN read after a store. -/
theorem State.readData_writeData (s : State) (a b v : Word) :
    (s.writeData a v).readData b = if b = a then .ok v else s.readData b := by
  unfold State.readData State.writeData Memory.readOr
  simp only [Memory.read_write]
  by_cases h : b = a <;> simp [h]

end Sys2Proof.Machine
end

