-- ==== Sys2Proof/Laws/State.lean ====
section
/-! SUPPORT. What each update of the state leaves in each field: true by rfl or by the one case split of `setReg`, so that no
proof unfolds a record update. -/

namespace Sys2Proof.Machine

variable (s : State)

/-! ### setFlags -/

@[simp] theorem State.setFlags_regs (f : Flags) : (s.setFlags f).regs = s.regs := rfl
@[simp] theorem State.setFlags_pc (f : Flags) : (s.setFlags f).pc = s.pc := rfl
@[simp] theorem State.setFlags_flags (f : Flags) : (s.setFlags f).flags = f := rfl
@[simp] theorem State.setFlags_dm (f : Flags) : (s.setFlags f).dm = s.dm := rfl
@[simp] theorem State.setFlags_im (f : Flags) : (s.setFlags f).im = s.im := rfl
@[simp] theorem State.setFlags_faultMark (f : Flags) : (s.setFlags f).faultMark = s.faultMark := rfl
@[simp] theorem State.setFlags_draws (f : Flags) : (s.setFlags f).draws = s.draws := rfl
@[simp] theorem State.setFlags_params (f : Flags) : (s.setFlags f).params = s.params := rfl
@[simp] theorem State.setFlags_getReg (f : Flags) (r : RegNo) : (s.setFlags f).getReg r = s.getReg r := rfl

/-! ### setPc -/

@[simp] theorem State.setPc_regs (t : Word) : (s.setPc t).regs = s.regs := rfl
@[simp] theorem State.setPc_pc (t : Word) : (s.setPc t).pc = t := rfl
@[simp] theorem State.setPc_flags (t : Word) : (s.setPc t).flags = s.flags := rfl
@[simp] theorem State.setPc_dm (t : Word) : (s.setPc t).dm = s.dm := rfl
@[simp] theorem State.setPc_im (t : Word) : (s.setPc t).im = s.im := rfl
@[simp] theorem State.setPc_faultMark (t : Word) : (s.setPc t).faultMark = s.faultMark := rfl
@[simp] theorem State.setPc_draws (t : Word) : (s.setPc t).draws = s.draws := rfl
@[simp] theorem State.setPc_params (t : Word) : (s.setPc t).params = s.params := rfl
@[simp] theorem State.setPc_getReg (t : Word) (r : RegNo) : (s.setPc t).getReg r = s.getReg r := rfl

/-! ### advance -/

@[simp] theorem State.advance_regs : (s.advance).regs = s.regs := rfl
@[simp] theorem State.advance_pc : (s.advance).pc = s.pc + 1 := rfl
@[simp] theorem State.advance_flags : (s.advance).flags = s.flags := rfl
@[simp] theorem State.advance_dm : (s.advance).dm = s.dm := rfl
@[simp] theorem State.advance_im : (s.advance).im = s.im := rfl
@[simp] theorem State.advance_faultMark : (s.advance).faultMark = s.faultMark := rfl
@[simp] theorem State.advance_draws : (s.advance).draws = s.draws := rfl
@[simp] theorem State.advance_params : (s.advance).params = s.params := rfl
@[simp] theorem State.advance_getReg (r : RegNo) : (s.advance).getReg r = s.getReg r := rfl

/-! ### branchTo -/

@[simp] theorem State.branchTo_regs (c : Bool) (t : Word) : (s.branchTo c t).regs = s.regs := rfl
@[simp] theorem State.branchTo_pc (c : Bool) (t : Word) : (s.branchTo c t).pc = if c then t else s.pc + 1 := rfl
@[simp] theorem State.branchTo_flags (c : Bool) (t : Word) : (s.branchTo c t).flags = s.flags := rfl
@[simp] theorem State.branchTo_dm (c : Bool) (t : Word) : (s.branchTo c t).dm = s.dm := rfl
@[simp] theorem State.branchTo_im (c : Bool) (t : Word) : (s.branchTo c t).im = s.im := rfl
@[simp] theorem State.branchTo_faultMark (c : Bool) (t : Word) : (s.branchTo c t).faultMark = s.faultMark := rfl
@[simp] theorem State.branchTo_draws (c : Bool) (t : Word) : (s.branchTo c t).draws = s.draws := rfl
@[simp] theorem State.branchTo_params (c : Bool) (t : Word) : (s.branchTo c t).params = s.params := rfl
@[simp] theorem State.branchTo_getReg (c : Bool) (t : Word) (r : RegNo) : (s.branchTo c t).getReg r = s.getReg r := rfl

/-! ### countDraw -/

@[simp] theorem State.countDraw_regs : (s.countDraw).regs = s.regs := rfl
@[simp] theorem State.countDraw_pc : (s.countDraw).pc = s.pc := rfl
@[simp] theorem State.countDraw_flags : (s.countDraw).flags = s.flags := rfl
@[simp] theorem State.countDraw_dm : (s.countDraw).dm = s.dm := rfl
@[simp] theorem State.countDraw_im : (s.countDraw).im = s.im := rfl
@[simp] theorem State.countDraw_faultMark : (s.countDraw).faultMark = s.faultMark := rfl
@[simp] theorem State.countDraw_draws : (s.countDraw).draws = s.draws + 1 := rfl
@[simp] theorem State.countDraw_params : (s.countDraw).params = s.params := rfl
@[simp] theorem State.countDraw_getReg (r : RegNo) : (s.countDraw).getReg r = s.getReg r := rfl

/-! ### writeData -/

@[simp] theorem State.writeData_regs (a v : Word) : (s.writeData a v).regs = s.regs := rfl
@[simp] theorem State.writeData_pc (a v : Word) : (s.writeData a v).pc = s.pc := rfl
@[simp] theorem State.writeData_flags (a v : Word) : (s.writeData a v).flags = s.flags := rfl
@[simp] theorem State.writeData_dm (a v : Word) : (s.writeData a v).dm = s.dm.write a v := rfl
@[simp] theorem State.writeData_im (a v : Word) : (s.writeData a v).im = s.im := rfl
@[simp] theorem State.writeData_faultMark (a v : Word) : (s.writeData a v).faultMark = s.faultMark := rfl
@[simp] theorem State.writeData_draws (a v : Word) : (s.writeData a v).draws = s.draws := rfl
@[simp] theorem State.writeData_params (a v : Word) : (s.writeData a v).params = s.params := rfl
@[simp] theorem State.writeData_getReg (a v : Word) (r : RegNo) : (s.writeData a v).getReg r = s.getReg r := rfl

/-! ### mark -/

@[simp] theorem State.mark_regs (x : Stop) : (s.mark x).regs = s.regs := rfl
@[simp] theorem State.mark_pc (x : Stop) : (s.mark x).pc = s.pc := rfl
@[simp] theorem State.mark_flags (x : Stop) : (s.mark x).flags = s.flags := rfl
@[simp] theorem State.mark_dm (x : Stop) : (s.mark x).dm = s.dm := rfl
@[simp] theorem State.mark_im (x : Stop) : (s.mark x).im = s.im := rfl
@[simp] theorem State.mark_faultMark (x : Stop) : (s.mark x).faultMark = some x := rfl
@[simp] theorem State.mark_draws (x : Stop) : (s.mark x).draws = s.draws := rfl
@[simp] theorem State.mark_params (x : Stop) : (s.mark x).params = s.params := rfl
@[simp] theorem State.mark_getReg (x : Stop) (r : RegNo) : (s.mark x).getReg r = s.getReg r := rfl

/-! ### loadAtPc -/

@[simp] theorem State.loadAtPc_regs (w : Word) : (s.loadAtPc w).regs = s.regs := rfl
@[simp] theorem State.loadAtPc_pc (w : Word) : (s.loadAtPc w).pc = s.pc := rfl
@[simp] theorem State.loadAtPc_flags (w : Word) : (s.loadAtPc w).flags = s.flags := rfl
@[simp] theorem State.loadAtPc_dm (w : Word) : (s.loadAtPc w).dm = s.dm := rfl
@[simp] theorem State.loadAtPc_im (w : Word) : (s.loadAtPc w).im = s.im.write s.pc w := rfl
@[simp] theorem State.loadAtPc_faultMark (w : Word) : (s.loadAtPc w).faultMark = none := rfl
@[simp] theorem State.loadAtPc_draws (w : Word) : (s.loadAtPc w).draws = s.draws := rfl
@[simp] theorem State.loadAtPc_params (w : Word) : (s.loadAtPc w).params = s.params := rfl
@[simp] theorem State.loadAtPc_getReg (w : Word) (r : RegNo) : (s.loadAtPc w).getReg r = s.getReg r := rfl

/-! ### setReg -/

@[simp] theorem State.setReg_pc (d : RegNo) (v : Word) : (s.setReg d v).pc = s.pc := by
  unfold State.setReg; split <;> rfl
@[simp] theorem State.setReg_flags (d : RegNo) (v : Word) : (s.setReg d v).flags = s.flags := by
  unfold State.setReg; split <;> rfl
@[simp] theorem State.setReg_dm (d : RegNo) (v : Word) : (s.setReg d v).dm = s.dm := by
  unfold State.setReg; split <;> rfl
@[simp] theorem State.setReg_im (d : RegNo) (v : Word) : (s.setReg d v).im = s.im := by
  unfold State.setReg; split <;> rfl
@[simp] theorem State.setReg_faultMark (d : RegNo) (v : Word) : (s.setReg d v).faultMark = s.faultMark := by
  unfold State.setReg; split <;> rfl
@[simp] theorem State.setReg_draws (d : RegNo) (v : Word) : (s.setReg d v).draws = s.draws := by
  unfold State.setReg; split <;> rfl
@[simp] theorem State.setReg_params (d : RegNo) (v : Word) : (s.setReg d v).params = s.params := by
  unfold State.setReg; split <;> rfl

/-- R0 reads 0 in every state (R10, R22). -/
@[simp] theorem State.getReg_zero : s.getReg 0#4 = 0 := by simp [State.getReg]

/-- A write to R0 changes nothing (R10, R22). -/
@[simp] theorem State.setReg_zero (v : Word) : s.setReg 0#4 v = s := by simp [State.setReg]

/-- What any register reads after a write to any register (R10). -/
theorem State.getReg_setReg (d r : RegNo) (v : Word) :
    (s.setReg d v).getReg r = if r = d then (if d = 0#4 then 0 else v) else s.getReg r := by
  unfold State.getReg State.setReg
  by_cases hd : d = 0#4
  · subst hd; by_cases hr : r = 0#4 <;> simp [hr]
  · by_cases hr : r = 0#4
    · have : (0#4 : RegNo) ≠ d := fun h => hd h.symm
      simp [hr, this]
    · by_cases h : r = d
      · subst h; simp [hd]
      · have hn : d.toNat ≠ r.toNat := fun e => h (BitVec.eq_of_toNat_eq e).symm
        simp [hd, hr, h, hn]

/-- A written register reads the value written, unless it is R0. -/
theorem State.getReg_setReg_self {d : RegNo} (h : d ≠ 0#4) (v : Word) : (s.setReg d v).getReg d = v := by
  simp [State.getReg_setReg, h]

/-- A write leaves every other register. -/
theorem State.getReg_setReg_of_ne {d r : RegNo} (h : r ≠ d) (v : Word) : (s.setReg d v).getReg r = s.getReg r := by
  simp [State.getReg_setReg, h]

/-- The slot of R0 is never written. -/
@[simp] theorem State.setReg_regs_zero (d : RegNo) (v : Word) : (s.setReg d v).regs[0] = s.regs[0] := by
  unfold State.setReg
  by_cases hd : d = 0#4
  · simp [hd]
  · have hn : d.toNat ≠ 0 := fun e => hd (BitVec.eq_of_toNat_eq (by simpa using e))
    simp [hd, hn]

/-! ### The flag updates -/

@[simp] theorem Flags.withSZ_s (g : Flags) (r : Word) : (g.withSZ r).s = signOf r := rfl
@[simp] theorem Flags.withSZ_z (g : Flags) (r : Word) : (g.withSZ r).z = zeroOf r := rfl
@[simp] theorem Flags.withSZ_v (g : Flags) (r : Word) : (g.withSZ r).v = g.v := rfl
@[simp] theorem Flags.withSZ_c (g : Flags) (r : Word) : (g.withSZ r).c = g.c := rfl
@[simp] theorem Flags.withSZ_cb (g : Flags) (r : Word) : (g.withSZ r).cb = g.cb := rfl

@[simp] theorem Flags.withAdder_s (g : Flags) (out : AdderOut) : (g.withAdder out).s = signOf out.result := rfl
@[simp] theorem Flags.withAdder_z (g : Flags) (out : AdderOut) : (g.withAdder out).z = zeroOf out.result := rfl
@[simp] theorem Flags.withAdder_v (g : Flags) (out : AdderOut) : (g.withAdder out).v = out.overflow := rfl
@[simp] theorem Flags.withAdder_c (g : Flags) (out : AdderOut) : (g.withAdder out).c = out.carry := rfl
@[simp] theorem Flags.withAdder_cb (g : Flags) (out : AdderOut) : (g.withAdder out).cb = g.cb := rfl

@[simp] theorem Flags.withCarry_s (g : Flags) (b : Bool) : (g.withCarry b).s = g.s := rfl
@[simp] theorem Flags.withCarry_z (g : Flags) (b : Bool) : (g.withCarry b).z = g.z := rfl
@[simp] theorem Flags.withCarry_v (g : Flags) (b : Bool) : (g.withCarry b).v = g.v := rfl
@[simp] theorem Flags.withCarry_c (g : Flags) (b : Bool) : (g.withCarry b).c = b := rfl
@[simp] theorem Flags.withCarry_cb (g : Flags) (b : Bool) : (g.withCarry b).cb = g.cb := rfl

@[simp] theorem Flags.withProduct_s (g : Flags) (p : BitVec 32) (b : Bool) : (g.withProduct p b).s = p.msb := rfl
@[simp] theorem Flags.withProduct_z (g : Flags) (p : BitVec 32) (b : Bool) : (g.withProduct p b).z = (p == 0) := rfl
@[simp] theorem Flags.withProduct_v (g : Flags) (p : BitVec 32) (b : Bool) : (g.withProduct p b).v = ((productLow p).signExtend 32 != p) := rfl
@[simp] theorem Flags.withProduct_c (g : Flags) (p : BitVec 32) (b : Bool) : (g.withProduct p b).c = b := rfl
@[simp] theorem Flags.withProduct_cb (g : Flags) (p : BitVec 32) (b : Bool) : (g.withProduct p b).cb = g.cb := rfl

/-- The 5-bit vector and the flags say the same (R33). -/
@[simp] theorem Flags.ofBits_toBits (f : Flags) : Flags.ofBits f.toBits = f := by
  rcases f with ⟨_ | _, _ | _, _ | _, _ | _, _ | _⟩ <;> rfl

/-- The flags and the 5-bit vector say the same (R33). -/
@[simp] theorem Flags.toBits_ofBits (m : BitVec 5) : (Flags.ofBits m).toBits = m := by
  revert m; decide

end Sys2Proof.Machine
end

