-- ==== Sys2Proof/Laws/Ops.lean ====
section
/-! SUPPORT. For each shared operation, once, everything it can do: the proofs about instructions cite these. -/

namespace Sys2Proof.Machine

/-- The end of AND, OR and XOR. -/
theorem logicResult_next {d : RegNo} {r : Word} {s t : State} (h : logicResult d r s = .next t) :
    t = ((s.setReg d r).setFlags (s.flags.withSZ r)).advance := by
  simpa [logicResult] using h.symm

/-- The end of ADD, SUB, INC and DEC. -/
theorem adderResult_next {d : RegNo} {out : AdderOut} {s t : State} (h : adderResult d out s = .next t) :
    t = ((s.setReg d out.result).setFlags (s.flags.withAdder out)).advance := by
  simpa [adderResult] using h.symm

/-- The end of a one-bit shift. -/
theorem shiftResult_next {d : RegNo} {r : Word} {out : Bool} {s t : State} (h : shiftResult d r out s = .next t) :
    t = ((s.setReg d r).setFlags (s.flags.withCarry out)).advance := by
  simpa [shiftResult] using h.symm

/-- A register-mode branch changes the pc only. -/
theorem branchReg_next {c : Cond} {b : RegNo} {s t : State} (h : branchReg c b s = .next t) :
    t = s.branchTo (s.flags.holds c) (s.getReg b) := by
  simpa [branchReg] using h.symm

/-- A relative branch changes the pc only. -/
theorem branchRel_next {c : Cond} {o : Int} {s t : State} (h : branchRel c o s = .next t) :
    t = s.branchTo (s.flags.holds c) (s.relTarget o) := by
  simpa [branchRel] using h.symm

/-- A stop is never a next state. -/
theorem raise_ne_next (x : Stop) (t : State) : raise x ≠ .next t := by
  cases x <;> simp [raise]

/-- An instruction that reads memory goes on exactly where the read gives a word. -/
theorem withRead_eq_next {r : Except Fault Word} {k : Word → Result} {t : State} :
    withRead r k = .next t ↔ ∃ v, r = .ok v ∧ k v = .next t := by
  cases r <;> simp [withRead, raise_ne_next]

/-- A readable cell gives a word (R58). -/
theorem State.Readable.readData {s : State} {a : Word} (h : s.Readable a) : ∃ v, s.readData a = .ok v := by
  obtain h | ⟨x, h⟩ := h
  · cases hr : s.dm.read a with
    | none => exact ⟨_, Memory.readOr_eq_ok.2 (.inr ⟨hr, h, rfl⟩)⟩
    | some x => exact ⟨x, Memory.readOr_eq_ok.2 (.inl hr)⟩
  · exact ⟨x, Memory.readOr_eq_ok.2 (.inl h)⟩

/-- LOAD answers a next state exactly where its cell gives a word, and that state. -/
theorem execLoad_eq_next {d : RegNo} {o : Nat} {b : RegNo} {s t : State} :
    execLoad d o b s = .next t ↔ ∃ v, s.readData (s.effectiveAddress b o) = .ok v ∧
      t = ((s.setReg d v).setFlags (s.flags.withSZ v)).advance := by
  simp only [execLoad, withRead_eq_next, Host.Outcome.next.injEq, eq_comm (b := t)]

/-- RETURN answers a next state exactly where the cell at FP gives a word, and that state. -/
theorem execRet_eq_next {s t : State} :
    execRet s = .next t ↔ ∃ v, s.readData (s.getReg fp) = .ok v ∧
      t = ((s.setReg fp (s.getReg rt)).setReg sp (s.getReg fp)).setPc v := by
  simp only [execRet, withRead_eq_next, Host.Outcome.next.injEq, eq_comm (b := t)]

/-- MULT answers a next state exactly where `MULT_D13` lets it, and that state. -/
theorem execMult_eq_next {d a b : RegNo} {s t : State} :
    execMult d a b s = .next t ↔ (d = rt → s.params.multD13 ≠ .refuse) ∧
      t = ((((s.setReg d (productLow (signedProduct (s.getReg a) (s.getReg b)))).setReg rt
        (multRt s.params.multD13 d (signedProduct (s.getReg a) (s.getReg b)))).setFlags
        (s.flags.withProduct (signedProduct (s.getReg a) (s.getReg b)) (Config.multCarry s.draws))).countDraw).advance := by
  simp only [execMult]
  split
  · next h => simp [raise_ne_next, h]
  · next h =>
    rw [Host.Outcome.next.injEq, eq_comm]
    exact ⟨fun e => ⟨fun hd hr => h ⟨hd, hr⟩, e⟩, fun e => e.2⟩

/-- The fetch and decode give an instruction exactly where the fetch gives a word that decodes to it. -/
theorem State.fetchDecode_eq_ok {s : State} {i : Instr} :
    s.fetchDecode = .ok i ↔ ∃ w, s.fetch = .ok w ∧ decode w = .ok i := by
  unfold State.fetchDecode
  split
  · simp_all
  · split <;> simp_all

/-- A step that answers a next state runs the instruction at pc in a machine without a fault mark, whatever `run` is. -/
theorem stepBy_next {run : Instr → State → Result} {s t : State} (h : stepBy run s = .next t) :
    s.faultMark = none ∧ ∃ w i, s.fetch = .ok w ∧ decode w = .ok i ∧ run i s = .next t := by
  unfold stepBy at h
  split at h
  · exact absurd h (raise_ne_next _ _)
  · next hm =>
    split at h
    · exact absurd h (raise_ne_next _ _)
    · next hi =>
      obtain ⟨w, hw, hd⟩ := State.fetchDecode_eq_ok.1 hi
      exact ⟨hm, w, _, hw, hd, h⟩

/-- A step that answers a next state runs the instruction at pc in a machine without a fault mark. -/
theorem step_next {s t : State} (h : step s = .next t) :
    s.faultMark = none ∧ ∃ w i, s.fetch = .ok w ∧ decode w = .ok i ∧ exec i s = .next t :=
  stepBy_next h

/-- The state after a step that answers a next state. -/
theorem State.afterStep_of_next {s t : State} (h : step s = .next t) : s.afterStep = t := by
  unfold State.afterStep; rw [h]; rfl

/-- The state after a step that faults. -/
theorem State.afterStep_of_fault {s : State} {f : Fault} (h : step s = .fault f) : s.afterStep = s.mark (.fault f) := by
  unfold State.afterStep; rw [h]; rfl

/-- The state after a step that refuses. -/
theorem State.afterStep_of_refused {s : State} {r : Refusal} (h : step s = .refused r) :
    s.afterStep = s.mark (.refusal r) := by
  unfold State.afterStep; rw [h]; rfl

/-- The adder's result as a word (R17). -/
theorem addWithCarry_result (a b : Word) (k : Bool) :
    (addWithCarry a b k).result = BitVec.ofNat 16 (a.toNat + b.toNat + k.toNat) := rfl

/-- The adder's carry out (R17). -/
theorem addWithCarry_carry (a b : Word) (k : Bool) :
    (addWithCarry a b k).carry = decide (65536 ≤ a.toNat + b.toNat + k.toNat) := rfl

/-- The adder's signed overflow (R17). -/
theorem addWithCarry_overflow (a b : Word) (k : Bool) :
    (addWithCarry a b k).overflow =
      (decide (a.toInt + b.toInt + k.toNat < -32768) || decide (32767 < a.toInt + b.toInt + k.toNat)) := rfl

end Sys2Proof.Machine
end

