-- ==== Sys2Proof/Laws/PerInstr.lean ====
section
/-! SUPPORT. The family `FixedBits`: an instruction's word, under the mask of its row of spec/opcode_table.json, is the row's
match value. No operand, in range or not, reaches a fixed bit. -/

namespace Sys2Proof.Laws

open Sys2Proof

/-- The `mask` and `match` columns of spec/opcode_table.json. -/
def FixedBits.row : Instr → Word × Word
  | .setlo _ _ => (0xF000#16, 0xE000#16)
  | .sethi _ _ => (0xF000#16, 0xF000#16)
  | .and _ _ _ => (0xF000#16, 0x8000#16)
  | .or _ _ _ => (0xF000#16, 0x9000#16)
  | .add _ _ _ => (0xF000#16, 0xA000#16)
  | .sub _ _ _ => (0xF000#16, 0xB000#16)
  | .mult _ _ _ => (0xF000#16, 0xC000#16)
  | .xor _ _ _ => (0xF000#16, 0xD000#16)
  | .lsl _ _ => (0xF0F0#16, 0x3000#16)
  | .lsr _ _ => (0xF0F0#16, 0x3010#16)
  | .lsl8 _ _ => (0xF0F0#16, 0x3020#16)
  | .lsr8 _ _ => (0xF0F0#16, 0x3030#16)
  | .asl _ _ => (0xF0F0#16, 0x3040#16)
  | .asr _ _ => (0xF0F0#16, 0x3050#16)
  | .setf _ => (0xFEF0#16, 0x3060#16)
  | .clrf _ => (0xFEF0#16, 0x3860#16)
  | .savef _ => (0xF0FF#16, 0x3070#16)
  | .rstrf _ => (0xF0FF#16, 0x3078#16)
  | .inc _ _ => (0xF0C0#16, 0x3080#16)
  | .dec _ _ => (0xF0C0#16, 0x30C0#16)
  | .load _ _ _ => (0xE000#16, 0x4000#16)
  | .store _ _ _ => (0xE000#16, 0x6000#16)
  | .br _ => (0xFFF0#16, 0x1000#16)
  | .bl _ => (0xFFF0#16, 0x1200#16)
  | .bge _ => (0xFFF0#16, 0x1300#16)
  | .ble _ => (0xFFF0#16, 0x1400#16)
  | .bg _ => (0xFFF0#16, 0x1500#16)
  | .bule _ => (0xFFF0#16, 0x1600#16)
  | .bug _ => (0xFFF0#16, 0x1700#16)
  | .bz _ => (0xFFF0#16, 0x1800#16)
  | .bnz _ => (0xFFF0#16, 0x1900#16)
  | .bc _ => (0xFFF0#16, 0x1A00#16)
  | .bnc _ => (0xFFF0#16, 0x1B00#16)
  | .bs _ => (0xFFF0#16, 0x1C00#16)
  | .bns _ => (0xFFF0#16, 0x1D00#16)
  | .bv _ => (0xFFF0#16, 0x1E00#16)
  | .bnv _ => (0xFFF0#16, 0x1F00#16)
  | .brr _ => (0xFF00#16, 0x0000#16)
  | .blr _ => (0xFF00#16, 0x0200#16)
  | .bger _ => (0xFF00#16, 0x0300#16)
  | .bler _ => (0xFF00#16, 0x0400#16)
  | .bgr _ => (0xFF00#16, 0x0500#16)
  | .buler _ => (0xFF00#16, 0x0600#16)
  | .bugr _ => (0xFF00#16, 0x0700#16)
  | .bzr _ => (0xFF00#16, 0x0800#16)
  | .bnzr _ => (0xFF00#16, 0x0900#16)
  | .bcr _ => (0xFF00#16, 0x0A00#16)
  | .bncr _ => (0xFF00#16, 0x0B00#16)
  | .bsr _ => (0xFF00#16, 0x0C00#16)
  | .bnsr _ => (0xFF00#16, 0x0D00#16)
  | .bvr _ => (0xFF00#16, 0x0E00#16)
  | .bnvr _ => (0xFF00#16, 0x0F00#16)
  | .swi _ => (0xFFF0#16, 0x1100#16)
  | .rti => (0xFFFF#16, 0x1110#16)
  | .ret => (0xFFFF#16, 0x1111#16)
  | .call _ _ => (0xF000#16, 0x2000#16)

/-- What the family says of an instruction. -/
def FixedBits.Statement (i : Instr) : Prop := encode i &&& (FixedBits.row i).1 = (FixedBits.row i).2

/-- A nibble under a mask of ones. -/
theorem nibble_and_ones (x : BitVec 4) : x &&& 0xF#4 = x := by revert x; decide

theorem wordRRR_and (op d a b : BitVec 4) :
    wordRRR op d a b &&& 0xF000#16 = op ++ 0#4 ++ 0#4 ++ 0#4 := by
  rw [wordRRR, show 0xF000#16 = 0xF#4 ++ 0#4 ++ 0#4 ++ 0#4 from rfl]
  repeat rw [BitVec.and_append]
  simp only [nibble_and_ones, BitVec.and_zero]

theorem wordImm8_and (op d : BitVec 4) (v : BitVec 8) :
    wordImm8 op d v &&& 0xF000#16 = op ++ 0#4 ++ 0#8 := by
  rw [wordImm8, show 0xF000#16 = 0xF#4 ++ 0#4 ++ 0#8 from rfl]
  repeat rw [BitVec.and_append]
  simp only [nibble_and_ones, BitVec.and_zero]

theorem wordShift_and (o d b : BitVec 4) :
    wordShift o d b &&& 0xF0F0#16 = 0x3#4 ++ 0#4 ++ o ++ 0#4 := by
  rw [wordShift, show 0xF0F0#16 = 0xF#4 ++ 0#4 ++ 0xF#4 ++ 0#4 from rfl]
  repeat rw [BitVec.and_append]
  simp only [nibble_and_ones, BitVec.and_zero]

theorem wordFlagMask_and (k : BitVec 1) (v : BitVec 5) :
    wordFlagMask k v &&& 0xFEF0#16 = 0x3#4 ++ k ++ 0x06#7 ++ 0#4 := by
  revert k v; decide

theorem wordFlagReg_and (r : BitVec 1) (d : BitVec 4) :
    wordFlagReg r d &&& 0xF0FF#16 = 0x307#12 ++ r ++ 0#3 := by
  revert r d; decide

/-- A bit under a mask of one. -/
theorem bit_and_one (x : BitVec 1) : x &&& 1#1 = x := by revert x; decide

theorem wordIncDec_and (m : BitVec 1) (d : BitVec 4) (delta : Nat) :
    wordIncDec m d delta &&& 0xF0C0#16 = 0x3#4 ++ 0#4 ++ 1#1 ++ m ++ 0#6 := by
  rw [wordIncDec, show 0xF0C0#16 = 0xF#4 ++ 0#4 ++ 1#1 ++ 1#1 ++ 0#6 from rfl]
  repeat rw [BitVec.and_append]
  simp only [nibble_and_ones, bit_and_one, BitVec.and_zero]

theorem wordMem_and (t : BitVec 1) (d : BitVec 4) (o : Nat) (b : BitVec 4) :
    wordMem t d o b &&& 0xE000#16 = 0b01#2 ++ t ++ 0#1 ++ 0#4 ++ 0#4 ++ 0#4 := by
  rw [wordMem, show 0xE000#16 = 3#2 ++ 1#1 ++ 0#1 ++ 0#4 ++ 0#4 ++ 0#4 from rfl]
  repeat rw [BitVec.and_append]
  simp only [bit_and_one, BitVec.and_zero, show 0b01#2 &&& 3#2 = 0b01#2 from rfl]

theorem wordBreg_and (c : Cond) (b : BitVec 4) :
    wordBreg c b &&& 0xFFF0#16 = 0x1#4 ++ c.code ++ 0#4 ++ 0#4 := by
  rw [wordBreg, show 0xFFF0#16 = 0xF#4 ++ 0xF#4 ++ 0xF#4 ++ 0#4 from rfl]
  repeat rw [BitVec.and_append]
  simp only [nibble_and_ones, BitVec.and_zero]

theorem wordBrel_and (c : Cond) (o : Int) :
    wordBrel c o &&& 0xFF00#16 = 0x0#4 ++ c.code ++ 0#8 := by
  rw [wordBrel, show 0xFF00#16 = 0xF#4 ++ 0xF#4 ++ 0#8 from rfl]
  repeat rw [BitVec.and_append]
  simp only [nibble_and_ones, BitVec.and_zero]

theorem wordSwi_and (i : Nat) :
    wordSwi i &&& 0xFFF0#16 = 0x110#12 ++ 0#4 := by
  rw [wordSwi, show 0xFFF0#16 = 0xFFF#12 ++ 0#4 from rfl]
  repeat rw [BitVec.and_append]
  simp only [BitVec.and_zero, show 0x110#12 &&& 0xFFF#12 = 0x110#12 from rfl]

theorem wordCall_and (s : Nat) (b : BitVec 4) :
    wordCall s b &&& 0xF000#16 = 0x2#4 ++ 0#8 ++ 0#4 := by
  rw [wordCall, show 0xF000#16 = 0xF#4 ++ 0#8 ++ 0#4 from rfl]
  repeat rw [BitVec.and_append]
  simp only [nibble_and_ones, BitVec.and_zero]

theorem FixedBits.setlo (d : RegNo) (v : BitVec 8) : FixedBits.Statement (.setlo d v) := wordImm8_and _ _ _
theorem FixedBits.sethi (d : RegNo) (v : BitVec 8) : FixedBits.Statement (.sethi d v) := wordImm8_and _ _ _
theorem FixedBits.and (d a b : RegNo) : FixedBits.Statement (.and d a b) := wordRRR_and _ _ _ _
theorem FixedBits.or (d a b : RegNo) : FixedBits.Statement (.or d a b) := wordRRR_and _ _ _ _
theorem FixedBits.add (d a b : RegNo) : FixedBits.Statement (.add d a b) := wordRRR_and _ _ _ _
theorem FixedBits.sub (d a b : RegNo) : FixedBits.Statement (.sub d a b) := wordRRR_and _ _ _ _
theorem FixedBits.mult (d a b : RegNo) : FixedBits.Statement (.mult d a b) := wordRRR_and _ _ _ _
theorem FixedBits.xor (d a b : RegNo) : FixedBits.Statement (.xor d a b) := wordRRR_and _ _ _ _
theorem FixedBits.lsl (d b : RegNo) : FixedBits.Statement (.lsl d b) := wordShift_and _ _ _
theorem FixedBits.lsr (d b : RegNo) : FixedBits.Statement (.lsr d b) := wordShift_and _ _ _
theorem FixedBits.lsl8 (d b : RegNo) : FixedBits.Statement (.lsl8 d b) := wordShift_and _ _ _
theorem FixedBits.lsr8 (d b : RegNo) : FixedBits.Statement (.lsr8 d b) := wordShift_and _ _ _
theorem FixedBits.asl (d b : RegNo) : FixedBits.Statement (.asl d b) := wordShift_and _ _ _
theorem FixedBits.asr (d b : RegNo) : FixedBits.Statement (.asr d b) := wordShift_and _ _ _
theorem FixedBits.setf (v : BitVec 5) : FixedBits.Statement (.setf v) := wordFlagMask_and _ _
theorem FixedBits.clrf (v : BitVec 5) : FixedBits.Statement (.clrf v) := wordFlagMask_and _ _
theorem FixedBits.savef (d : RegNo) : FixedBits.Statement (.savef d) := wordFlagReg_and _ _
theorem FixedBits.rstrf (d : RegNo) : FixedBits.Statement (.rstrf d) := wordFlagReg_and _ _
theorem FixedBits.inc (d : RegNo) (delta : Nat) : FixedBits.Statement (.inc d delta) := wordIncDec_and _ _ _
theorem FixedBits.dec (d : RegNo) (delta : Nat) : FixedBits.Statement (.dec d delta) := wordIncDec_and _ _ _
theorem FixedBits.load (d : RegNo) (o : Nat) (b : RegNo) : FixedBits.Statement (.load d o b) := wordMem_and _ _ _ _
theorem FixedBits.store (d : RegNo) (o : Nat) (b : RegNo) : FixedBits.Statement (.store d o b) := wordMem_and _ _ _ _
theorem FixedBits.br (b : RegNo) : FixedBits.Statement (.br b) := wordBreg_and _ _
theorem FixedBits.bl (b : RegNo) : FixedBits.Statement (.bl b) := wordBreg_and _ _
theorem FixedBits.bge (b : RegNo) : FixedBits.Statement (.bge b) := wordBreg_and _ _
theorem FixedBits.ble (b : RegNo) : FixedBits.Statement (.ble b) := wordBreg_and _ _
theorem FixedBits.bg (b : RegNo) : FixedBits.Statement (.bg b) := wordBreg_and _ _
theorem FixedBits.bule (b : RegNo) : FixedBits.Statement (.bule b) := wordBreg_and _ _
theorem FixedBits.bug (b : RegNo) : FixedBits.Statement (.bug b) := wordBreg_and _ _
theorem FixedBits.bz (b : RegNo) : FixedBits.Statement (.bz b) := wordBreg_and _ _
theorem FixedBits.bnz (b : RegNo) : FixedBits.Statement (.bnz b) := wordBreg_and _ _
theorem FixedBits.bc (b : RegNo) : FixedBits.Statement (.bc b) := wordBreg_and _ _
theorem FixedBits.bnc (b : RegNo) : FixedBits.Statement (.bnc b) := wordBreg_and _ _
theorem FixedBits.bs (b : RegNo) : FixedBits.Statement (.bs b) := wordBreg_and _ _
theorem FixedBits.bns (b : RegNo) : FixedBits.Statement (.bns b) := wordBreg_and _ _
theorem FixedBits.bv (b : RegNo) : FixedBits.Statement (.bv b) := wordBreg_and _ _
theorem FixedBits.bnv (b : RegNo) : FixedBits.Statement (.bnv b) := wordBreg_and _ _
theorem FixedBits.brr (o : Int) : FixedBits.Statement (.brr o) := wordBrel_and _ _
theorem FixedBits.blr (o : Int) : FixedBits.Statement (.blr o) := wordBrel_and _ _
theorem FixedBits.bger (o : Int) : FixedBits.Statement (.bger o) := wordBrel_and _ _
theorem FixedBits.bler (o : Int) : FixedBits.Statement (.bler o) := wordBrel_and _ _
theorem FixedBits.bgr (o : Int) : FixedBits.Statement (.bgr o) := wordBrel_and _ _
theorem FixedBits.buler (o : Int) : FixedBits.Statement (.buler o) := wordBrel_and _ _
theorem FixedBits.bugr (o : Int) : FixedBits.Statement (.bugr o) := wordBrel_and _ _
theorem FixedBits.bzr (o : Int) : FixedBits.Statement (.bzr o) := wordBrel_and _ _
theorem FixedBits.bnzr (o : Int) : FixedBits.Statement (.bnzr o) := wordBrel_and _ _
theorem FixedBits.bcr (o : Int) : FixedBits.Statement (.bcr o) := wordBrel_and _ _
theorem FixedBits.bncr (o : Int) : FixedBits.Statement (.bncr o) := wordBrel_and _ _
theorem FixedBits.bsr (o : Int) : FixedBits.Statement (.bsr o) := wordBrel_and _ _
theorem FixedBits.bnsr (o : Int) : FixedBits.Statement (.bnsr o) := wordBrel_and _ _
theorem FixedBits.bvr (o : Int) : FixedBits.Statement (.bvr o) := wordBrel_and _ _
theorem FixedBits.bnvr (o : Int) : FixedBits.Statement (.bnvr o) := wordBrel_and _ _
theorem FixedBits.swi (i : Nat) : FixedBits.Statement (.swi i) := wordSwi_and _
theorem FixedBits.rti : FixedBits.Statement (.rti) := rfl
theorem FixedBits.ret : FixedBits.Statement (.ret) := rfl
theorem FixedBits.call (s : Nat) (b : RegNo) : FixedBits.Statement (.call s b) := wordCall_and _ _

end Sys2Proof.Laws
end

