-- ==== Sys2Proof/Tests/Slice0.lean ====
section
/-! SUPPORT. The model's own tests: ill-formed terms refused, the decoding of one word for each constructor, one step from small
states with results from spec/95_test_vectors.md, and for each obligation with hypotheses a witness that meets them. -/

namespace Sys2Proof.Tests.Slice0

open Sys2Proof Sys2Proof.Machine

/-! ### Helpers -/

/-- The state after reset with some registers and the flags (as F of R11) set. -/
def small (regs : List (RegNo × Word)) (f : BitVec 5) : State :=
  (regs.foldl (fun s p => s.setReg p.1 p.2) State.reset).setFlags (Flags.ofBits f)

/-- The same with cells of data memory and a pc. -/
def smallAt (pc : Word) (regs : List (RegNo × Word)) (f : BitVec 5) (cells : List (Word × Word)) : State :=
  cells.foldl (fun s p => s.writeData p.1 p.2) ((small regs f).setPc pc)

/-- The outcome is a next state with the property. -/
def after (r : Result) (p : State → Bool) : Bool :=
  match r with
  | .next t => p t
  | .fault _ => false
  | .refused _ => false

/-- A register, the flags and the pc of a state. -/
def sees (d : RegNo) (v : Word) (f : BitVec 5) (pc : Word) (t : State) : Bool :=
  t.getReg d == v && t.flags.toBits == f && t.pc == pc

/-! ### WellFormed refuses -/

theorem test_wf_delta_zero : ¬ (Instr.inc 1#4 0).WellFormed := by decide
theorem test_wf_delta_65 : ¬ (Instr.dec 1#4 65).WellFormed := by decide
theorem test_wf_offset_32 : ¬ (Instr.load 1#4 32 2#4).WellFormed ∧ ¬ (Instr.store 1#4 32 2#4).WellFormed := by decide
theorem test_wf_rel_128 : ¬ (Instr.brr 128).WellFormed ∧ ¬ (Instr.bnvr (-129)).WellFormed := by decide
theorem test_wf_swi_16 : ¬ (Instr.swi 16).WellFormed := by decide
theorem test_wf_frame_256 : ¬ (Instr.call 256 1#4).WellFormed := by decide

/-! ### Decoding: each word written out from the row of its instruction in the encoding table -/

theorem test_decode_imm8 :
    decode 0b1110010010110110#16 = .ok (.setlo 4#4 0xB6#8) ∧
    decode 0b1111011101001101#16 = .ok (.sethi 7#4 0x4D#8) := by
  refine ⟨rfl, rfl⟩
theorem test_decode_three_address :
    decode 0b1000101000111011#16 = .ok (.and 10#4 3#4 11#4) ∧
    decode 0b1001110110000011#16 = .ok (.or 13#4 8#4 3#4) ∧
    decode 0b1010000111011010#16 = .ok (.add 1#4 13#4 10#4) ∧
    decode 0b1011010000110010#16 = .ok (.sub 4#4 3#4 2#4) ∧
    decode 0b1100011110001001#16 = .ok (.mult 7#4 8#4 9#4) ∧
    decode 0b1101101011010001#16 = .ok (.xor 10#4 13#4 1#4) := by
  refine ⟨rfl, rfl, rfl, rfl, rfl, rfl⟩
theorem test_decode_shifts :
    decode 0b0011110100001000#16 = .ok (.lsl 13#4 8#4) ∧
    decode 0b0011000100011111#16 = .ok (.lsr 1#4 15#4) ∧
    decode 0b0011010000100111#16 = .ok (.lsl8 4#4 7#4) ∧
    decode 0b0011011100111110#16 = .ok (.lsr8 7#4 14#4) ∧
    decode 0b0011101001000110#16 = .ok (.asl 10#4 6#4) ∧
    decode 0b0011110101011101#16 = .ok (.asr 13#4 13#4) := by
  refine ⟨rfl, rfl, rfl, rfl, rfl, rfl⟩
theorem test_decode_flag_ops :
    decode 0b0011000101100101#16 = .ok (.setf 0x15#5) ∧
    decode 0b0011100001101010#16 = .ok (.clrf 0x0A#5) ∧
    decode 0b0011011101110000#16 = .ok (.savef 7#4) ∧
    decode 0b0011101001111000#16 = .ok (.rstrf 10#4) := by
  refine ⟨rfl, rfl, rfl, rfl⟩
theorem test_decode_inc_dec :
    decode 0b0011110110000101#16 = .ok (.inc 13#4 6) ∧
    decode 0b0011000111111111#16 = .ok (.dec 1#4 64) := by
  refine ⟨rfl, rfl⟩
theorem test_decode_load_store :
    decode 0b0101010000010010#16 = .ok (.load 4#4 17 2#4) ∧
    decode 0b0110011111101001#16 = .ok (.store 7#4 14 9#4) := by
  refine ⟨rfl, rfl⟩
theorem test_decode_branch_reg :
    decode 0b0001000000000001#16 = .ok (.br 1#4) ∧
    decode 0b0001001000001000#16 = .ok (.bl 8#4) ∧
    decode 0b0001001100001111#16 = .ok (.bge 15#4) ∧
    decode 0b0001010000000111#16 = .ok (.ble 7#4) ∧
    decode 0b0001010100001110#16 = .ok (.bg 14#4) ∧
    decode 0b0001011000000110#16 = .ok (.bule 6#4) ∧
    decode 0b0001011100001101#16 = .ok (.bug 13#4) ∧
    decode 0b0001100000000101#16 = .ok (.bz 5#4) ∧
    decode 0b0001100100001100#16 = .ok (.bnz 12#4) ∧
    decode 0b0001101000000100#16 = .ok (.bc 4#4) ∧
    decode 0b0001101100001011#16 = .ok (.bnc 11#4) ∧
    decode 0b0001110000000011#16 = .ok (.bs 3#4) ∧
    decode 0b0001110100001010#16 = .ok (.bns 10#4) ∧
    decode 0b0001111000000010#16 = .ok (.bv 2#4) ∧
    decode 0b0001111100001001#16 = .ok (.bnv 9#4) := by
  refine ⟨rfl, rfl, rfl, rfl, rfl, rfl, rfl, rfl, rfl, rfl, rfl, rfl, rfl, rfl, rfl⟩
theorem test_decode_branch_rel :
    decode 0b0000000011111110#16 = .ok (.brr (-2)) ∧
    decode 0b0000001000100011#16 = .ok (.blr (35)) ∧
    decode 0b0000001101001000#16 = .ok (.bger (72)) ∧
    decode 0b0000010001101101#16 = .ok (.bler (109)) ∧
    decode 0b0000010110010010#16 = .ok (.bgr (-110)) ∧
    decode 0b0000011010110111#16 = .ok (.buler (-73)) ∧
    decode 0b0000011111011100#16 = .ok (.bugr (-36)) ∧
    decode 0b0000100000000001#16 = .ok (.bzr (1)) ∧
    decode 0b0000100100100110#16 = .ok (.bnzr (38)) ∧
    decode 0b0000101001001011#16 = .ok (.bcr (75)) ∧
    decode 0b0000101101110000#16 = .ok (.bncr (112)) ∧
    decode 0b0000110010010101#16 = .ok (.bsr (-107)) ∧
    decode 0b0000110110111010#16 = .ok (.bnsr (-70)) ∧
    decode 0b0000111011011111#16 = .ok (.bvr (-33)) ∧
    decode 0b0000111100000100#16 = .ok (.bnvr (4)) := by
  refine ⟨rfl, rfl, rfl, rfl, rfl, rfl, rfl, rfl, rfl, rfl, rfl, rfl, rfl, rfl, rfl⟩
theorem test_decode_special :
    decode 0b0001000100001011#16 = .ok (.swi 11) ∧
    decode 0b0001000100010000#16 = .ok (.rti) ∧
    decode 0b0001000100010001#16 = .ok (.ret) := by
  refine ⟨rfl, rfl, rfl⟩
theorem test_decode_call :
    decode 0b0010101001010111#16 = .ok (.call 165 7#4) := by
  rfl

/-- One word of each undefined kind (R103, R104; V13). -/
theorem test_undefined : decode 0x0100#16 = .error .relativeCondition ∧ decode 0x1120#16 = .error .specialSpace ∧
    decode 0x13A5#16 = .error .branchRegBits ∧ decode 0x3260#16 = .error .flagMaskBits ∧
    decode 0x3079#16 = .error .flagRegBits := ⟨rfl, rfl, rfl, rfl, rfl⟩

/-! ### One step (results from V1 to V12 of spec/95_test_vectors.md) -/

/-! V1 -/
theorem test_setlo_sign :
    after (exec (.setlo 1#4 0x80#8) (small [(1#4, 0x1234#16)] 0x05#5)) (sees 1#4 0xFF80#16 0x05#5 1) = true := by decide
theorem test_setlo_r0 :
    after (exec (.setlo 0#4 0x55#8) (small [] 0x05#5)) (sees 0#4 0x0000#16 0x05#5 1) = true := by decide
theorem test_sethi_keeps_low :
    after (exec (.sethi 1#4 0xAB#8) (small [(1#4, 0x1234#16)] 0x05#5)) (sees 1#4 0xAB34#16 0x05#5 1) = true := by decide
/-! V2 -/
theorem test_and_sign :
    after (exec (.and 1#4 2#4 3#4) (small [(2#4, 0xFFFF#16), (3#4, 0x8000#16)] 0x0C#5)) (sees 1#4 0x8000#16 0x0D#5 1) = true := by decide
theorem test_and_r0 :
    after (exec (.and 0#4 2#4 3#4) (small [(2#4, 0x8001#16), (3#4, 0x8000#16)] 0x0C#5)) (sees 0#4 0x0000#16 0x0D#5 1) = true := by decide
theorem test_or_zero :
    after (exec (.or 1#4 2#4 3#4) (small [(2#4, 0x1234#16), (3#4, 0x0000#16)] 0x0C#5)) (sees 1#4 0x1234#16 0x0C#5 1) = true := by decide
theorem test_xor_same :
    after (exec (.xor 2#4 2#4 2#4) (small [(2#4, 0xBEEF#16)] 0x0C#5)) (sees 2#4 0x0000#16 0x0E#5 1) = true := by decide
theorem test_xor_mixed :
    after (exec (.xor 1#4 2#4 3#4) (small [(2#4, 0xFFFF#16), (3#4, 0x8000#16)] 0x0C#5)) (sees 1#4 0x7FFF#16 0x0C#5 1) = true := by decide
/-! V3, V4 -/
theorem test_add_carry_in :
    after (exec (.add 1#4 2#4 3#4) (small [(2#4, 0x7FFF#16), (3#4, 0x0000#16)] 0x08#5)) (sees 1#4 0x8000#16 0x05#5 1) = true := by decide
theorem test_add_blocked :
    after (exec (.add 1#4 2#4 3#4) (small [(2#4, 0x0002#16), (3#4, 0x0003#16)] 0x18#5)) (sees 1#4 0x0005#16 0x10#5 1) = true := by decide
theorem test_sub_borrow_in :
    after (exec (.sub 1#4 2#4 3#4) (small [(2#4, 0x0003#16), (3#4, 0x0002#16)] 0x00#5)) (sees 1#4 0x0000#16 0x0A#5 1) = true := by decide
theorem test_sub_overflow :
    after (exec (.sub 1#4 2#4 3#4) (small [(2#4, 0x7FFF#16), (3#4, 0xFFFF#16)] 0x10#5)) (sees 1#4 0x8000#16 0x15#5 1) = true := by decide
/-! V5; the carry is a free value and is not looked at -/
theorem test_mult_negative :
    after (exec (.mult 1#4 2#4 3#4) (small [(2#4, 0x8000#16), (3#4, 0x7FFF#16)] 0x00#5))
      (fun t => t.getReg 1#4 == 0x8000#16 && t.getReg 13#4 == 0xC000#16 && t.flags.s && !t.flags.z && t.flags.v) = true := by decide
theorem test_mult_reads_rt :
    after (exec (.mult 0#4 13#4 2#4) (small [(13#4, 0x0007#16), (2#4, 0x0006#16)] 0x00#5))
      (fun t => t.getReg 0#4 == 0 && t.getReg 13#4 == 0 && !t.flags.s && !t.flags.z && !t.flags.v) = true := by decide
/-! V6 -/
theorem test_lsl_carry_in :
    after (exec (.lsl 1#4 2#4) (small [(2#4, 0x8001#16)] 0x0F#5)) (sees 1#4 0x0003#16 0x0F#5 1) = true := by decide
theorem test_lsl_blocked :
    after (exec (.lsl 1#4 2#4) (small [(2#4, 0x4000#16)] 0x17#5)) (sees 1#4 0x8000#16 0x17#5 1) = true := by decide
theorem test_lsr_carry_in :
    after (exec (.lsr 1#4 2#4) (small [(2#4, 0x0000#16)] 0x0F#5)) (sees 1#4 0x8000#16 0x07#5 1) = true := by decide
theorem test_lsr_blocked :
    after (exec (.lsr 1#4 2#4) (small [(2#4, 0xFFFF#16)] 0x17#5)) (sees 1#4 0x7FFF#16 0x1F#5 1) = true := by decide
theorem test_asl_carry_in :
    after (exec (.asl 1#4 2#4) (small [(2#4, 0x0000#16)] 0x0F#5)) (sees 1#4 0x0001#16 0x07#5 1) = true := by decide
theorem test_asr_sign :
    after (exec (.asr 1#4 2#4) (small [(2#4, 0x8001#16)] 0x07#5)) (sees 1#4 0xC000#16 0x0F#5 1) = true := by decide
theorem test_asr_no_carry_in :
    after (exec (.asr 1#4 2#4) (small [(2#4, 0x0000#16)] 0x0F#5)) (sees 1#4 0x0000#16 0x07#5 1) = true := by decide
theorem test_lsl8 :
    after (exec (.lsl8 1#4 2#4) (small [(2#4, 0x12AB#16)] 0x0F#5)) (sees 1#4 0xAB00#16 0x0F#5 1) = true := by decide
theorem test_lsr8 :
    after (exec (.lsr8 1#4 2#4) (small [(2#4, 0xFF80#16)] 0x17#5)) (sees 1#4 0x00FF#16 0x17#5 1) = true := by decide
/-! V7 -/
theorem test_setf :
    after (exec (.setf 0x15#5) (small [] 0x0A#5)) (sees 0#4 0x0000#16 0x1F#5 1) = true := by decide
theorem test_clrf :
    after (exec (.clrf 0x18#5) (small [] 0x1F#5)) (sees 0#4 0x0000#16 0x07#5 1) = true := by decide
theorem test_savef :
    after (exec (.savef 1#4) (small [(1#4, 0xFFFF#16)] 0x15#5)) (sees 1#4 0x0015#16 0x15#5 1) = true := by decide
theorem test_rstrf :
    after (exec (.rstrf 1#4) (small [(1#4, 0x1234#16)] 0x0A#5)) (sees 1#4 0x1234#16 0x14#5 1) = true := by decide
theorem test_rstrf_r0 :
    after (exec (.rstrf 0#4) (small [] 0x1F#5)) (sees 0#4 0x0000#16 0x00#5 1) = true := by decide
/-! V8 -/
theorem test_inc_64 :
    after (exec (.inc 1#4 64) (small [(1#4, 0x7FC0#16)] 0x08#5)) (sees 1#4 0x8000#16 0x05#5 1) = true := by decide
theorem test_inc_wraps :
    after (exec (.inc 1#4 1) (small [(1#4, 0xFFFF#16)] 0x08#5)) (sees 1#4 0x0000#16 0x0A#5 1) = true := by decide
theorem test_dec_borrow :
    after (exec (.dec 1#4 64) (small [(1#4, 0x003F#16)] 0x08#5)) (sees 1#4 0xFFFF#16 0x01#5 1) = true := by decide
theorem test_dec_r0 :
    after (exec (.dec 0#4 1) (small [] 0x08#5)) (sees 0#4 0x0000#16 0x01#5 1) = true := by decide
/-! V9 -/
theorem test_load_wraps : after (exec (.load 1#4 31 2#4) (smallAt 0 [(2#4, 0xFFF0#16)] 0x0C#5 [(0x000F#16, 0#16)]))
    (sees 1#4 0 0x0E#5 1) = true := by decide
theorem test_load_base_is_destination : after (exec (.load 1#4 3 1#4) (smallAt 0 [(1#4, 7#16)] 0x0C#5 [(0x000A#16, 0x8000#16)]))
    (sees 1#4 0x8000#16 0x0D#5 1) = true := by decide
theorem test_store_wraps : after (exec (.store 1#4 31 2#4) (small [(2#4, 0xFFFF#16), (1#4, 1#16)] 0x0C#5))
    (fun t => t.dm == [(0x1E, 1#16)] && sees 2#4 0xFFFF#16 0x0C#5 1 t) = true := by decide

/-! V10, V11 -/
/-- A row of V10: the register-mode branches under flags 0x01. -/
theorem test_branch_row_01 :
    [exec (.br 13#4), exec (.bl 13#4), exec (.bge 13#4), exec (.ble 13#4), exec (.bg 13#4), exec (.bule 13#4), exec (.bug 13#4), exec (.bz 13#4),
      exec (.bnz 13#4), exec (.bc 13#4), exec (.bnc 13#4), exec (.bs 13#4), exec (.bns 13#4), exec (.bv 13#4), exec (.bnv 13#4)].map
      (fun e => after (e (smallAt 0x10 [(13#4, 0x208#16)] 0x01#5 [])) (sees 13#4 0x208#16 0x01#5 0x208)) =
      [true, true, false, true, false, true, false, false, true, false, true, true, false, false, true] := by decide
/-- A row of V10: the register-mode branches under flags 0x0A. -/
theorem test_branch_row_0a :
    [exec (.br 13#4), exec (.bl 13#4), exec (.bge 13#4), exec (.ble 13#4), exec (.bg 13#4), exec (.bule 13#4), exec (.bug 13#4), exec (.bz 13#4),
      exec (.bnz 13#4), exec (.bc 13#4), exec (.bnc 13#4), exec (.bs 13#4), exec (.bns 13#4), exec (.bv 13#4), exec (.bnv 13#4)].map
      (fun e => after (e (smallAt 0x10 [(13#4, 0x208#16)] 0x0A#5 [])) (sees 13#4 0x208#16 0x0A#5 0x208)) =
      [true, false, true, true, false, true, false, true, false, true, false, false, true, false, true] := by decide
/-- A row of V10: the register-mode branches under flags 0x0C. -/
theorem test_branch_row_0c :
    [exec (.br 13#4), exec (.bl 13#4), exec (.bge 13#4), exec (.ble 13#4), exec (.bg 13#4), exec (.bule 13#4), exec (.bug 13#4), exec (.bz 13#4),
      exec (.bnz 13#4), exec (.bc 13#4), exec (.bnc 13#4), exec (.bs 13#4), exec (.bns 13#4), exec (.bv 13#4), exec (.bnv 13#4)].map
      (fun e => after (e (smallAt 0x10 [(13#4, 0x208#16)] 0x0C#5 [])) (sees 13#4 0x208#16 0x0C#5 0x208)) =
      [true, true, false, true, false, false, true, false, true, true, false, false, true, true, false] := by decide
/-- The same row for the relative branches, whose column is the same. -/
theorem test_branch_rel_row_01 :
    [exec (.brr (-4)), exec (.blr (-4)), exec (.bger (-4)), exec (.bler (-4)), exec (.bgr (-4)), exec (.buler (-4)), exec (.bugr (-4)), exec (.bzr (-4)),
      exec (.bnzr (-4)), exec (.bcr (-4)), exec (.bncr (-4)), exec (.bsr (-4)), exec (.bnsr (-4)), exec (.bvr (-4)), exec (.bnvr (-4))].map
      (fun e => after (e (smallAt 0x178 [] 0x01#5 [])) (sees 0#4 0 0x01#5 0x174)) =
      [true, true, false, true, false, true, false, false, true, false, true, true, false, false, true] := by decide

theorem test_brr_wraps : after (exec (.brr (-128)) (smallAt 0x10 [] 0#5 [])) (sees 0#4 0 0#5 0xFF90) = true := by decide
theorem test_bc_not_taken_wraps : after (exec (.bc 13#4) (smallAt 0xFFFF [] 0#5 [])) (sees 0#4 0 0#5 0) = true := by decide

/-! V12 -/
theorem test_call_through_fp :
    after (exec (.call 3 14#4) (smallAt 0x40 [(13#4, 0x999#16), (14#4, 0x200#16), (15#4, 0x210#16)] 0#5 []))
      (fun t => t.dm == [(0x210, 0x41#16)] && sees 13#4 0x200#16 0#5 0x200 t && sees 14#4 0x210#16 0#5 0x200 t &&
        sees 15#4 0x213#16 0#5 0x200 t) = true := by decide
theorem test_call_wraps :
    after (exec (.call 255 15#4) (smallAt 0xFFFF [(14#4, 0x10#16), (15#4, 0xFF80#16)] 0#5 []))
      (fun t => t.dm == [(0xFF80, 0#16)] && sees 15#4 0x7F#16 0#5 0xFF80 t) = true := by decide
theorem test_ret :
    after (exec .ret (smallAt 0 [(13#4, 0xABCD#16), (14#4, 0xFFFF#16), (15#4, 3#16)] 0#5 [(0xFFFF#16, 7#16)]))
      (fun t => sees 13#4 0xABCD#16 0#5 7 t && sees 14#4 0xABCD#16 0#5 7 t && sees 15#4 0xFFFF#16 0#5 7 t) = true := by decide

/-! Stops -/
theorem test_swi_refuses : exec (.swi 5) State.reset = .refused (.unspecifiedSwi 5) := rfl
theorem test_rti_refuses : exec .rti State.reset = .refused .unspecifiedRti := rfl
theorem test_reset_fetch_faults : step State.reset = .fault (.uninitialisedRead .code 0) := rfl
theorem test_step_runs_the_word : after (step (State.reset.withFetchWord 16 0xE1B6)) (sees 1#4 0xFFB6#16 0#5 1) = true := by
  decide
theorem test_withFetchWord_after_stop : (State.reset.afterStep.withFetchWord 16 0x0001).faultMark = none := rfl

/-! The parameters of R7 (the last lines of V5 and V9, R157) -/
theorem test_mult_d13_refuse :
    exec (.mult 13#4 2#4 3#4) { State.reset with params := Params.specDefaults } =
      .refused (.unspecifiedMultD13 0xCD23#16) := rfl
theorem test_mult_d13_low_high :
    [MultD13.lowWins, MultD13.highWins].map (fun m =>
      after (exec (.mult 13#4 2#4 3#4) { small [(2#4, 0x7FFF#16), (3#4, 2#16)] 0#5 with
        params := { Params.specDefaults with multD13 := m } }) (fun t => t.getReg 13#4 == 0xFFFE#16 && t.flags.v)) =
      [true, false] := by decide
theorem test_load_uninitialised :
    exec (.load 1#4 0 2#4) { small [(2#4, 0x10#16)] 0#5 with params := Params.specDefaults } =
      .fault (.uninitialisedRead .data 0x10#16) := rfl
theorem test_asr_fill_zero :
    after (exec (.asr 1#4 2#4) { small [(2#4, 0x8001#16)] 0x07#5 with params := { Params.specDefaults with asrFill := .zero } })
      (sees 1#4 0x4000#16 0x0F#5 1) = true := by decide
theorem test_supplied_swi :
    (machine Params.specDefaults (.supplied (fun n s => .next (s.setPc (BitVec.ofNat 16 n))) (fun s => .next s.advance))
      [(0#16, 0x1105#16)] []).step (State.ofImages Params.specDefaults [(0#16, 0x1105#16)] []) =
      .next ((State.ofImages Params.specDefaults [(0#16, 0x1105#16)] []).setPc 5) := rfl

/-! ### The assembler (V14 and program P1 of section 3) -/

theorem test_assemble_p1 : assemble [.setcb, .instr (.setlo 1#4 0xB6#8), .cmp 1#4 0#4, .branchRelLabel .greaterEq "SKIP",
    .instr (.sub 1#4 0#4 1#4), .label "SKIP", .instr (.lsr 2#4 1#4), .halt] =
    .ok ([0x3160, 0xE1B6, 0x3068, 0xB010, 0x0302, 0xB101, 0x3211, 0x0000], []) := by decide
theorem test_assemble_data : assemble [.dlabel "A", .integer (-37), .tigerString "Hi", .dlabel "B", .setLabel 1#4 "B"] =
    .ok ([0xE104, 0xF100], [0xFFDB, 2, 0x48, 0x69]) := by decide
theorem test_assemble_undefined : assemble [.callLabel 5 "foo"] = .error (.undefinedLabel "foo") := by decide
/-- The relative form reaches 127 words and no further (R296): 42 items of three words, then the label's neighbour. -/
theorem test_assemble_reaches : (assemble (.branchRelLabel .less "L" :: List.replicate 42 (.not 1#4 2#4) ++
    [.label "L", .halt])).map (fun w => w.1.take 3) = .ok [0x027F, 0xEDFF, 0xFDFF] := by decide
/-- One word further it is the register-mode form, to a label that moved by two (R296, R297). -/
theorem test_assemble_far : (assemble (.branchRelLabel .less "L" :: .nop :: List.replicate 42 (.not 1#4 2#4) ++
    [.label "L", .halt])).map (fun w => w.1.take 4) = .ok [0xED82, 0xFD00, 0x120D, 0x0001] := by decide
/-- A branch that reaches until another one before its label is lengthened takes the long form in the next round. -/
theorem test_assemble_second_round : (assemble (.branchRelLabel .less "L" :: .branchRelLabel .zero "FAR" :: .nop :: .nop ::
    List.replicate 41 (.not 1#4 2#4) ++ [.label "L", .nop, .nop, .label "FAR", .halt])).map
    (fun w => w.1.take 6) = .ok [0xED83, 0xFD00, 0x120D, 0xED85, 0xFD00, 0x180D] := by decide
theorem test_not_words : (notSequence 1#4 2#4).map encode = [0xEDFF, 0xFDFF, 0xD1D2] := by decide

/-! ### Witnesses: states and operands that meet the hypotheses of the obligations -/

/-- A state with a two-word program (ADD, then an undefined word), registers, flags and one data cell. -/
def busy : State :=
  { smallAt 0x7F [(1#4, 0x8001#16), (2#4, 0xFFFF#16), (3#4, 5#16), (13#4, 0x20#16), (14#4, 0x30#16), (15#4, 0x40#16)] 0x0A#5
      [(0x30#16, 0x99#16)] with
    im := Memory.ofImage [(0x7F#16, 0xA123#16), (0x80#16, 0x0100#16)] }

/-- The same with the parameters at the spec's defaults. -/
def ordinary : State := { busy with params := Params.specDefaults }

/-- DecodeOfEncodeIsIdentity, and the ranges of EncodedWordsAreTheSumsOfTheTable, IncAddsTheAmount, DecSubtractsTheAmount,
LoadReadsTheAddressedCell, StoreWritesTheAddressedCell, RelativeBranchesOnComparisons, RelativeBranchesOnFlags,
BranchesAfterCompareMeanWhatTheySay and CallLinksTheFrames: operands at both ends of every range. -/
theorem witness_operand_ranges :
    (Instr.inc 1#4 1).WellFormed ∧ (Instr.inc 1#4 64).WellFormed ∧ (Instr.dec 1#4 1).WellFormed ∧
    (Instr.dec 1#4 64).WellFormed ∧ (Instr.load 1#4 0 2#4).WellFormed ∧ (Instr.load 1#4 31 2#4).WellFormed ∧
    (Instr.store 1#4 0 2#4).WellFormed ∧ (Instr.store 1#4 31 2#4).WellFormed ∧ (Instr.brr (-128)).WellFormed ∧
    (Instr.bnvr 127).WellFormed ∧ (Instr.swi 0).WellFormed ∧ (Instr.swi 15).WellFormed ∧
    (Instr.call 0 1#4).WellFormed ∧ (Instr.call 255 1#4).WellFormed ∧
    (1 ≤ 1 ∧ 1 ≤ 64) ∧ (1 ≤ 64 ∧ 64 ≤ 64) ∧ 31 ≤ 31 ∧ ((-128 : Int) ≤ -128 ∧ (-128 : Int) ≤ 127) ∧
    ((-128 : Int) ≤ 127 ∧ (127 : Int) ≤ 127) ∧ 255 ≤ 255 := by decide

/-- The ends of the ranges as words (the sums of R108). -/
theorem witness_encoded_ends :
    encode (.inc 1#4 1) = 0x3180#16 ∧ encode (.dec 1#4 64) = 0x31FF#16 ∧ encode (.load 15#4 31 15#4) = 0x5FFF#16 ∧
    encode (.store 0#4 0 0#4) = 0x6000#16 ∧ encode (.bnvr (-128)) = 0x0F80#16 ∧ encode (.bnvr 127) = 0x0F7F#16 ∧
    encode (.swi 15) = 0x110F#16 ∧ encode (.call 255 15#4) = 0x2FFF#16 := by decide

/-- EncodeOfDecodeIsIdentity. -/
theorem witness_defined_word : decode 0x5112#16 = .ok (.load 1#4 17 2#4) := rfl

/-- StepRunsTheDecodedInstruction and StoppedStateIsFinal: a next state, a fault of the decoder, a fault of the fetch, a refusal. -/
theorem witness_step :
    (busy.faultMark = none ∧ busy.im.read busy.pc = some 0xA123#16 ∧ decode 0xA123#16 = .ok (.add 1#4 2#4 3#4)) ∧
    (∃ t, step busy = .next t) ∧
    ((busy.setPc 0x80).faultMark = none ∧ (busy.setPc 0x80).im.read (busy.setPc 0x80).pc = some 0x0100#16 ∧
      decode 0x0100#16 = .error .relativeCondition ∧
      step (busy.setPc 0x80) = .fault (.undefinedInstruction 0x0100#16 0x80#16)) ∧
    ((busy.setPc 0x81).faultMark = none ∧ (busy.setPc 0x81).im.read (busy.setPc 0x81).pc = none ∧
      step (busy.setPc 0x81) = .fault (.uninitialisedRead .code 0x81#16)) ∧
    ((busy.withFetchWord 16 0x1110).faultMark = none ∧
      step (busy.withFetchWord 16 0x1110) = .refused .unspecifiedRti) :=
  ⟨⟨rfl, rfl, rfl⟩, ⟨_, rfl⟩, ⟨rfl, rfl, rfl, rfl⟩, ⟨rfl, rfl, rfl⟩, ⟨rfl, rfl⟩⟩

/-- OnlySwiAndRtiStop: RETURN and LOAD at the reset values of the parameters, RETURN through a cell that holds a word and
MULT into R13 under others. -/
theorem witness_not_swi_rti :
    ((∀ n, Instr.ret ≠ .swi n) ∧ Instr.ret ≠ .rti ∧ (∀ a b, Instr.ret ≠ .mult rt a b) ∧ (∀ d o b, Instr.ret ≠ .load d o b) ∧
      busy.Readable (busy.getReg fp)) ∧
    State.reset.Readable (State.reset.effectiveAddress 2#4 31) ∧ ordinary.Readable (ordinary.getReg fp) ∧
    ({ ordinary with params := ⟨.zero, .highWins, .fault, .fault⟩ } : State).params.multD13 ≠ .refuse := by
  refine ⟨⟨?_, ?_, ?_, ?_, .inl rfl⟩, .inl rfl, .inr ⟨_, rfl⟩, ?_⟩ <;> intros <;> simp

/-- OpenParametersStopAtTheirDefaults: the spec's defaults, a cell without a word under LOAD and under RETURN. -/
theorem witness_defaults :
    ordinary.params.dmUninit = .fault ∧ ordinary.params.multD13 = .refuse ∧
    ordinary.dm.read (BitVec.ofNat 16 ((ordinary.getReg 14#4).toNat + 31)) = none ∧
    (ordinary.setReg fp 0x31#16).dm.read ((ordinary.setReg fp 0x31#16).getReg fp) = none := by decide

/-- ParametersReachOnlyTheirInstructions: MULT into another register, which answers a next state. -/
theorem witness_other_instruction :
    ((∀ a b, Instr.mult 1#4 2#4 3#4 ≠ .mult rt a b) ∧ (∀ d b, Instr.mult 1#4 2#4 3#4 ≠ .asr d b) ∧
      (∀ d o b, Instr.mult 1#4 2#4 3#4 ≠ .load d o b) ∧ Instr.mult 1#4 2#4 3#4 ≠ .ret) ∧
    ∃ t, exec (.mult 1#4 2#4 3#4) ordinary = .next t := by
  refine ⟨⟨?_, ?_, ?_, ?_⟩, _, rfl⟩ <;> intros <;> simp [rt]

/-- MachineTakesItsInputs: a fetched SWI at both ends of its range, a fetched RTI and a fetched ADD. -/
theorem witness_inputs :
    ordinary.faultMark = none ∧
    (ordinary.withFetchWord 16 0x1100).im.read (ordinary.withFetchWord 16 0x1100).pc = some (BitVec.ofNat 16 (0x1100 + 0)) ∧
    (ordinary.withFetchWord 16 0x110F).im.read (ordinary.withFetchWord 16 0x110F).pc = some (BitVec.ofNat 16 (0x1100 + 15)) ∧
    (ordinary.withFetchWord 16 0x1110).im.read (ordinary.withFetchWord 16 0x1110).pc = some 0x1110#16 ∧
    ordinary.im.read ordinary.pc = some 0xA123#16 ∧ (∀ n ≤ 15, 0xA123#16 ≠ BitVec.ofNat 16 (0x1100 + n)) := by decide

/-- SwiAndRtiRefuse: SWI at both ends of its range, and RTI, at pc of a machine without a mark. -/
theorem witness_swi_rti_fetched :
    ((busy.withFetchWord 16 0x1100).faultMark = none ∧
      (busy.withFetchWord 16 0x1100).im.read (busy.withFetchWord 16 0x1100).pc = some (BitVec.ofNat 16 (0x1100 + 0))) ∧
    ((busy.withFetchWord 16 0x110F).faultMark = none ∧
      (busy.withFetchWord 16 0x110F).im.read (busy.withFetchWord 16 0x110F).pc = some (BitVec.ofNat 16 (0x1100 + 15))) ∧
    ((busy.withFetchWord 16 0x1110).faultMark = none ∧
      (busy.withFetchWord 16 0x1110).im.read (busy.withFetchWord 16 0x1110).pc = some 0x1110#16) := by decide

/-- EveryStepKeepsTheInvariant. -/
theorem witness_invariant : busy.Inv ∧ ∃ t, step busy = .next t :=
  ⟨⟨by decide, by decide, by decide⟩, _, rfl⟩

/-- CanonicalMemoriesWithEqualReadsAreEqual: two canonical memories written in different orders. -/
theorem witness_canonical :
    Memory.wf (Memory.ofImage [(3#16, 7#16), (0xFFFF#16, 1#16)]) = true ∧
    Memory.wf (Memory.ofImage [(0xFFFF#16, 1#16), (3#16, 7#16)]) = true ∧
    (∀ a, Memory.read (Memory.ofImage [(3#16, 7#16), (0xFFFF#16, 1#16)]) a =
      Memory.read (Memory.ofImage [(0xFFFF#16, 1#16), (3#16, 7#16)]) a) :=
  ⟨by decide, by decide, fun _ => rfl⟩

/-- NoInstructionTouchesInstructionMemory, FlagsOutsideTheTableAreKept, RegistersOutsideTheDestinationsAreKept and
MultCarryIsAFreshFreeValue (both clauses): instructions of several families that answer a next state. -/
theorem witness_next :
    (∃ t, exec (.mult 1#4 2#4 3#4) busy = .next t) ∧ (∃ t, exec (.savef 1#4) busy = .next t) ∧
    (∃ t, exec (.store 1#4 5 2#4) busy = .next t) ∧ (∀ d a b, Instr.savef 1#4 ≠ .mult d a b) ∧
    flagsWritten (.savef 1#4) = ⟨false, false, false, false, false⟩ :=
  ⟨⟨_, rfl⟩, ⟨_, rfl⟩, ⟨_, rfl⟩, fun _ _ _ => by simp, rfl⟩

/-- OnlyFourInstructionsReachDataMemory: an instruction outside the four, and LOAD, which writes none. -/
theorem witness_no_data :
    ((∀ d o b, Instr.inc 1#4 1 ≠ .load d o b) ∧ (∀ d o b, Instr.inc 1#4 1 ≠ .store d o b) ∧
      (∀ n b, Instr.inc 1#4 1 ≠ .call n b) ∧ Instr.inc 1#4 1 ≠ .ret) ∧
    ((∀ d o b, Instr.load 1#4 0 14#4 ≠ .store d o b) ∧ (∀ n b, Instr.load 1#4 0 14#4 ≠ .call n b) ∧
      ∃ t, exec (.load 1#4 0 14#4) busy = .next t) := by
  refine ⟨⟨?_, ?_, ?_, ?_⟩, ?_, ?_, _, rfl⟩ <;> intros <;> simp

/-- CarryBlockWritersAndReaders: a state with carry-block set, and LSR8, which neither writes nor reads it. -/
theorem witness_carry_block :
    (small [] 0x10#5).flags.cb = true ∧
    ((∀ v, Instr.lsr8 1#4 2#4 ≠ .setf v) ∧ (∀ v, Instr.lsr8 1#4 2#4 ≠ .clrf v) ∧ (∀ d, Instr.lsr8 1#4 2#4 ≠ .rstrf d)) ∧
    ((∀ d a b, Instr.lsr8 1#4 2#4 ≠ .add d a b) ∧ (∀ d a b, Instr.lsr8 1#4 2#4 ≠ .sub d a b) ∧
      (∀ d b, Instr.lsr8 1#4 2#4 ≠ .lsl d b) ∧ (∀ d b, Instr.lsr8 1#4 2#4 ≠ .lsr d b) ∧
      (∀ d b, Instr.lsr8 1#4 2#4 ≠ .asl d b) ∧ (∀ d, Instr.lsr8 1#4 2#4 ≠ .savef d)) ∧
    (∃ t, exec (.lsr8 1#4 2#4) busy = .next t) ∧
    ∃ u, exec (.lsr8 1#4 2#4) (busy.setFlags { busy.flags with cb := true }) = .next u := by
  refine ⟨rfl, ⟨?_, ?_, ?_⟩, ⟨?_, ?_, ?_, ?_, ?_, ?_⟩, ⟨_, rfl⟩, _, rfl⟩ <;> intros <;> simp

/-- ProgramCounterFollowsTheInstruction: a branch of each kind taken and not taken, CALL, RETURN and an instruction that falls
through. -/
theorem witness_pc :
    (∃ t, exec (Cond.branchReg .zero 13#4) busy = .next t ∧ busy.flags.holds .zero = true) ∧
    (∃ t, exec (Cond.branchReg .sign 13#4) busy = .next t ∧ busy.flags.holds .sign = false) ∧
    (∃ t, exec (Cond.branchRel .carry (-128)) busy = .next t ∧ busy.flags.holds .carry = true) ∧
    (∃ t, exec (Cond.branchRel .overflow 127) busy = .next t ∧ busy.flags.holds .overflow = false) ∧
    (∃ t, exec (.call 255 1#4) busy = .next t) ∧ (∃ t, exec .ret busy = .next t ∧ busy.dm.read (busy.getReg fp) = some 0x99#16) ∧
    ((∀ c b, Instr.rstrf 1#4 ≠ Cond.branchReg c b) ∧ (∀ c o, Instr.rstrf 1#4 ≠ Cond.branchRel c o) ∧
      ∃ t, exec (.rstrf 1#4) busy = .next t) := by
  refine ⟨⟨_, rfl, rfl⟩, ⟨_, rfl, rfl⟩, ⟨_, rfl, rfl⟩, ⟨_, rfl, rfl⟩, ⟨_, rfl⟩, ⟨_, rfl, rfl⟩, ?_, ?_, _, rfl⟩
  · intro c b; cases c <;> simp [Cond.branchReg]
  · intro c o; cases c <;> simp [Cond.branchRel]

/-- MultGivesTheSignedProduct: a destination that is not R13, R0 among them; SetloLoadsTheSignExtendedByte and
SethiReplacesTheHighByte: one that is not R0. -/
theorem witness_destinations : (0#4 : RegNo) ≠ rt ∧ (12#4 : RegNo) ≠ rt ∧ (1#4 : RegNo) ≠ r0 ∧ (15#4 : RegNo) ≠ r0 := by
  decide

/-- LoadReadsTheAddressedCell and ReturnUnlinksTheFrame: a cell that holds a word under both values of the parameter, and one
that holds none under `draw`. -/
theorem witness_load_cells :
    (busy.dm.read (BitVec.ofNat 16 ((busy.getReg 14#4).toNat + 0)) = some 0x99#16 ∧
      busy.Readable (BitVec.ofNat 16 ((busy.getReg 14#4).toNat + 0)) ∧
      ordinary.Readable (BitVec.ofNat 16 ((ordinary.getReg 14#4).toNat + 0))) ∧
    (busy.dm.read (BitVec.ofNat 16 ((busy.getReg 14#4).toNat + 31)) = none ∧
      busy.Readable (BitVec.ofNat 16 ((busy.getReg 14#4).toNat + 31))) ∧
    (busy.setReg fp 0x31#16).dm.read ((busy.setReg fp 0x31#16).getReg fp) = none ∧
    (busy.setReg fp 0x31#16).Readable ((busy.setReg fp 0x31#16).getReg fp) :=
  ⟨⟨rfl, .inl rfl, .inr ⟨_, rfl⟩⟩, ⟨by decide, .inl rfl⟩, by decide, .inl rfl⟩

/-- LoadAfterStoreReadsTheStoredWord: equal addresses by way of the wrap, different ones with a readable cell, and different
ones with a cell whose read stops. -/
theorem witness_load_after_store :
    (∃ t, exec (.store 1#4 1 2#4) ordinary = .next t) ∧
    ((ordinary.getReg 2#4).toNat + 1) % 65536 = ((ordinary.getReg 0#4).toNat + 0) % 65536 ∧
    (((ordinary.getReg 2#4).toNat + 1) % 65536 ≠ ((ordinary.getReg 14#4).toNat + 0) % 65536 ∧
      ordinary.Readable (ordinary.effectiveAddress 14#4 0)) ∧
    (((ordinary.getReg 2#4).toNat + 1) % 65536 ≠ ((ordinary.getReg 14#4).toNat + 31) % 65536 ∧
      exec (.load 1#4 31 14#4) ordinary = .fault (.uninitialisedRead .data 0x4F#16)) :=
  ⟨⟨_, rfl⟩, by decide, ⟨by decide, .inr ⟨_, rfl⟩⟩, by decide, rfl⟩

/-- MultIntoRtKeepsOneHalf and ArithmeticShiftsDoubleAndHalve: each value of the parameters that they name. -/
theorem witness_parameters :
    busy.params.multD13 ≠ .refuse ∧ ({ busy with params := ⟨.zero, .lowWins, .draw, .draw⟩ } : State).params.multD13 = .lowWins ∧
    ({ busy with params := ⟨.zero, .highWins, .draw, .draw⟩ } : State).params.multD13 = .highWins ∧
    busy.params.asrFill = .sign ∧ ({ busy with params := ⟨.zero, .highWins, .draw, .draw⟩ } : State).params.asrFill = .zero := by
  decide

/-- SavedFlagsAreRestored: the flags and another register change in between. -/
theorem witness_saved_flags :
    (5#4 : RegNo) ≠ r0 ∧ ∃ t u, exec (.savef 5#4) busy = .next t ∧ exec (.sub 1#4 2#4 3#4) t = .next u ∧
      u.getReg 5#4 = t.getReg 5#4 :=
  ⟨by decide, _, _, rfl, rfl, rfl⟩

/-- HaltIsAFixedPoint: a halted machine. -/
theorem witness_halted : (busy.withFetchWord 16 0x0000).Halted := ⟨rfl, rfl⟩

/-- ReturnUndoesCall: a CALL, then an instruction of the callee, then the state RETURN finds. -/
theorem witness_return_after_call :
    ∃ t u, exec (.call 5 13#4) busy = .next t ∧ exec (.inc 1#4 1) t = .next u ∧ u.getReg fp = t.getReg fp ∧
      u.getReg rt = t.getReg rt ∧ u.dm.read (t.getReg fp) = t.dm.read (t.getReg fp) :=
  ⟨_, _, rfl, rfl, rfl, rfl, rfl⟩

/-- DoubleAdditionIsExact and DoubleSubtractionIsExact: the registers of the spec's sequence, carry-block off. -/
theorem witness_double :
    busy.flags.cb = false ∧ (2#4 : RegNo) ≠ r0 ∧ (1#4 : RegNo) ≠ r0 ∧ (1#4 : RegNo) ≠ 2#4 ∧ (3#4 : RegNo) ≠ 2#4 ∧
    (5#4 : RegNo) ≠ 2#4 := by decide

/-- DoubleShiftsMoveThirtyTwoBits. -/
theorem witness_double_shift :
    busy.flags.cb = false ∧ (10#4 : RegNo) ≠ r0 ∧ (11#4 : RegNo) ≠ r0 ∧ (10#4 : RegNo) ≠ 11#4 := by decide

/-- AssembledImagesAreLaidOutAndDecode: an item that expands, and a program that has its images, a label of each kind behind
other items. -/
theorem witness_assembled :
    Item.expand [("foo", 0x0C#16)] 7 (.callLabel 5 "foo") = .ok (callSequence 5 0x0C#16) ∧
    assemble [.integer 7, .dlabel "D", .nop, .label "foo", .callLabel 5 "foo", .halt] =
      .ok ([0x0001, 0xED01, 0xFD00, 0x205D, 0x0000], [7]) ∧
    chooseForms [.integer 7, .dlabel "D", .nop, .label "foo", .callLabel 5 "foo", .halt] =
      [.integer 7, .dlabel "D", .nop] ++ .label "foo" :: [.callLabel 5 "foo", .halt] ∧
    Item.label "foo" ∉ [.integer 7, .dlabel "D", .nop] ∧ Item.dlabel "foo" ∉ [.integer 7, .dlabel "D", .nop] ∧
    Item.label "D" ∉ [.integer 7] ∧ Item.dlabel "D" ∉ [.integer 7] :=
  ⟨rfl, by decide, rfl, by decide, by decide, by decide, by decide⟩

/-- RelativeBranchesReachTheirLabels: one branch that stays, to the label behind it, and the label's address. -/
theorem witness_relative_branch :
    chooseForms [.nop, .branchRelLabel .less "L", .label "L", .halt] =
      [.nop] ++ .branchRelLabel .less "L" :: [.label "L", .halt] ∧
    addressOf (symbols 0 0 [.nop, .branchRelLabel .less "L", .label "L", .halt]) "L" = .ok 2#16 ∧
    relOffset 2#16 (BitVec.ofNat 16 ([Item.nop].map Item.instrCount).sum) = 1 := ⟨by decide, by decide, by decide⟩

/-- The clause of RelativeBranchesReachTheirLabels on a branch that is lengthened: an offset of 128, and a branch before it that
reaches and is kept. -/
theorem witness_lengthened :
    chooseForms (.branchRelLabel .zero "N" :: .label "N" :: .branchRelLabel .less "L" :: .nop ::
        List.replicate 42 (.not 1#4 2#4) ++ [.label "L", .halt]) =
      [.branchRelLabel .zero "N", .label "N"] ++ .branchLabel .less "L" ::
        (.nop :: List.replicate 42 (.not 1#4 2#4) ++ [.label "L", .halt]) := by decide

/-- The last clause of RelativeBranchesReachTheirLabels: a program whose one relative branch reaches. -/
theorem witness_all_reach (pre : List Item) (c : Cond) (l : Label) (post : List Item) (a : Word)
    (h : [.branchRelLabel .less "L", .halt, .label "L"] = pre ++ .branchRelLabel c l :: post)
    (ha : addressOf (symbols 0 0 [.branchRelLabel .less "L", .halt, .label "L"]) l = .ok a) :
    let o : Int := relOffset a (BitVec.ofNat 16 (pre.map Item.instrCount).sum)
    o ≤ 127 ∧ -128 ≤ o := by
  rcases pre with _ | ⟨x, _ | ⟨y, _ | ⟨z, pre⟩⟩⟩ <;> simp at h
  obtain ⟨⟨rfl, rfl⟩, _⟩ := h
  have e : a = 2#16 := by
    have : addressOf (symbols 0 0 [.branchRelLabel .less "L", .halt, .label "L"]) "L" = .ok 2#16 := by decide
    rw [this] at ha; injection ha with ha; exact ha.symm
  subst e; decide

end Sys2Proof.Tests.Slice0
end

section
/-! PROOFS. The family 00_scope: the phases of a step, the marked state, the adder's overflow, and what the parameters
reach. -/

namespace Sys2Proof.Machine

/-! ### A step, phase by phase (R16, R344) -/

theorem step_of_marked {s : State} {x : Stop} (h : s.faultMark = some x) : step s = raise x := by
  simp only [step, stepBy, h]

theorem step_of_fetchDecode_ok {s : State} {i : Instr} (hm : s.faultMark = none) (h : s.fetchDecode = .ok i) :
    step s = exec i s := by
  simp only [step, stepBy, hm, h]

theorem step_of_fetchDecode_error {s : State} {f : Fault} (hm : s.faultMark = none) (h : s.fetchDecode = .error f) :
    step s = .fault f := by
  simp only [step, stepBy, hm, h, raise]

theorem State.fetchDecode_of_fetch_error {s : State} {f : Fault} (h : s.fetch = .error f) : s.fetchDecode = .error f := by
  simp only [State.fetchDecode, h]

theorem State.fetchDecode_of_undefined {s : State} {w : Word} {e : DecodeError} (hw : s.fetch = .ok w)
    (h : decode w = .error e) : s.fetchDecode = .error (.undefinedInstruction w s.pc) := by
  simp only [State.fetchDecode, hw, h]

/-- Settles O6: each phase of the step in turn, the fetch by what `readOr` gives for the cell at pc. -/
theorem stepRunsTheDecodedInstruction : Obligations.StepRunsTheDecodedInstruction := by
  unfold Obligations.StepRunsTheDecodedInstruction
  intro s hm
  refine ⟨fun w hw => ?_, fun hnone hfault => ?_⟩
  · have hfetch : s.fetch = .ok w :=
      Memory.readOr_eq_ok.2 (hw.imp_right fun ⟨hnone, hdraw, hfree⟩ => ⟨hnone, hdraw, hfree.symm⟩)
    exact ⟨fun i hi => step_of_fetchDecode_ok hm (State.fetchDecode_eq_ok.2 ⟨w, hfetch, hi⟩),
      fun e he => step_of_fetchDecode_error hm (State.fetchDecode_of_undefined hfetch he)⟩
  · have hfetch : s.fetch = .error (.uninitialisedRead .code s.pc) := Memory.readOr_eq_error.2 ⟨hnone, hfault, rfl⟩
    exact step_of_fetchDecode_error hm (State.fetchDecode_of_fetch_error hfetch)

/-! ### A marked state is final (R14, R341) -/

/-- The state that a stop leaves is the marked one, whatever the stop is. -/
theorem State.settle_raise (s : State) (x : Stop) : s.settle (raise x) = s.mark x := by
  cases x <;> rfl

theorem State.mark_eq_self {s : State} {x : Stop} (h : s.faultMark = some x) : s.mark x = s := by
  cases s; cases h; rfl

/-- The step of a marked state is no step: the state is a fixed point of `afterStep`. -/
theorem State.afterStep_of_marked {s : State} {x : Stop} (h : s.faultMark = some x) : s.afterStep = s := by
  rw [State.afterStep, step_of_marked h, State.settle_raise, State.mark_eq_self h]

/-- No number of steps leaves a marked state, and each answers its stop. -/
theorem State.iterate_afterStep_of_marked {s : State} {x : Stop} (h : s.faultMark = some x) (n : Nat) :
    State.afterStep^[n] s = s ∧ step (State.afterStep^[n] s) = raise x := by
  have hfix : State.afterStep^[n] s = s := Function.iterate_fixed (State.afterStep_of_marked h) n
  exact ⟨hfix, by rw [hfix, step_of_marked h]⟩

/-- A step that stops leaves the marked state, for good. -/
theorem State.afterStep_of_stop {s : State} {x : Stop} (h : step s = raise x) :
    s.afterStep = s.mark x ∧ ∀ n : Nat, State.afterStep^[n] s.afterStep = s.afterStep ∧
      step (State.afterStep^[n] s.afterStep) = raise x := by
  have hmark : s.afterStep = s.mark x := by rw [State.afterStep, h, State.settle_raise]
  rw [hmark]
  exact ⟨rfl, State.iterate_afterStep_of_marked (s.mark_faultMark x)⟩

/-- Settles O7: a fault and a refusal are the two stops of `raise`, and a marked state is a fixed point. -/
theorem stoppedStateIsFinal : Obligations.StoppedStateIsFinal := by
  unfold Obligations.StoppedStateIsFinal
  intro s _
  exact ⟨fun f h => State.afterStep_of_stop (x := .fault f) h, fun r h => State.afterStep_of_stop (x := .refusal r) h,
    fun t h => State.afterStep_of_next h⟩

/-! ### The adder (R17) -/

theorem addWithCarry_result_toNat (a b : Word) (k : Bool) :
    (addWithCarry a b k).result.toNat = (a.toNat + b.toNat + k.toNat) % 65536 := by
  rw [addWithCarry_result, BitVec.toNat_ofNat]

/-- Settles O29, by the signs of the operands: with different signs the sum always fits; with one sign the result is the sum,
or the sum moved by 2^16 across the sign bit where it does not fit. -/
theorem adderOverflowIsTheSignRule : Obligations.AdderOverflowIsTheSignRule := by
  unfold Obligations.AdderOverflowIsTheSignRule
  intro a b k
  have ha := a.isLt
  have hb := b.isLt
  have hk := k.toNat_le
  rw [addWithCarry_overflow, toInt_eq_ite a, toInt_eq_ite b, Bool.eq_iff_iff]
  simp only [BitVec.msb_eq_decide, addWithCarry_result_toNat, Bool.or_eq_true, Bool.and_eq_true, decide_eq_true_eq,
    beq_iff_eq, bne_iff_ne, ne_eq, decide_eq_decide]
  split <;> split <;> omega

/-! ### The parameters as a part of the state (R7) -/

/-- The state under other parameters. -/
def State.withParams (s : State) (p : Params) : State := { s with params := p }

section
variable (s : State) (p : Params)

@[simp] theorem State.withParams_pc : (s.withParams p).pc = s.pc := rfl
@[simp] theorem State.withParams_flags : (s.withParams p).flags = s.flags := rfl
@[simp] theorem State.withParams_draws : (s.withParams p).draws = s.draws := rfl
@[simp] theorem State.withParams_getReg (r : RegNo) : (s.withParams p).getReg r = s.getReg r := rfl
@[simp] theorem State.withParams_effectiveAddress (b : RegNo) (o : Nat) :
    (s.withParams p).effectiveAddress b o = s.effectiveAddress b o := rfl
@[simp] theorem State.withParams_relTarget (o : Int) : (s.withParams p).relTarget o = s.relTarget o := rfl
@[simp] theorem State.withParams_raisedSp (n : Nat) : (s.withParams p).raisedSp n = s.raisedSp n := rfl

/-! Every update of the state commutes with the choice of parameters. -/

@[simp] theorem State.withParams_setFlags (f : Flags) : (s.withParams p).setFlags f = (s.setFlags f).withParams p := rfl
@[simp] theorem State.withParams_setPc (t : Word) : (s.withParams p).setPc t = (s.setPc t).withParams p := rfl
@[simp] theorem State.withParams_advance : (s.withParams p).advance = s.advance.withParams p := rfl
@[simp] theorem State.withParams_branchTo (c : Bool) (t : Word) :
    (s.withParams p).branchTo c t = (s.branchTo c t).withParams p := rfl
@[simp] theorem State.withParams_countDraw : (s.withParams p).countDraw = s.countDraw.withParams p := rfl
@[simp] theorem State.withParams_writeData (a v : Word) :
    (s.withParams p).writeData a v = (s.writeData a v).withParams p := rfl
@[simp] theorem State.withParams_setReg (d : RegNo) (v : Word) :
    (s.withParams p).setReg d v = (s.setReg d v).withParams p := by
  unfold State.setReg; split <;> rfl

end

@[simp] theorem mapNext_next (f : State → State) (t : State) : mapNext f (.next t) = .next (f t) := rfl

/-! ### Meanings that the parameters do not reach -/

/-- A meaning that does the same under every value of the parameters. -/
def IgnoresParams (run : State → Result) : Prop :=
  ∀ (s : State) (p : Params), run (s.withParams p) = mapNext (fun t => t.withParams p) (run s)

theorem logicResult_withParams (d : RegNo) (r : Word) (s : State) (p : Params) :
    logicResult d r (s.withParams p) = mapNext (fun t => t.withParams p) (logicResult d r s) := by
  simp [logicResult]

theorem adderResult_withParams (d : RegNo) (out : AdderOut) (s : State) (p : Params) :
    adderResult d out (s.withParams p) = mapNext (fun t => t.withParams p) (adderResult d out s) := by
  simp [adderResult]

theorem shiftResult_withParams (d : RegNo) (r : Word) (out : Bool) (s : State) (p : Params) :
    shiftResult d r out (s.withParams p) = mapNext (fun t => t.withParams p) (shiftResult d r out s) := by
  simp [shiftResult]

theorem branchReg_ignoresParams (c : Cond) (b : RegNo) : IgnoresParams (branchReg c b) := by
  intro s p; simp [branchReg]

theorem branchRel_ignoresParams (c : Cond) (o : Int) : IgnoresParams (branchRel c o) := by
  intro s p; simp [branchRel]

/-- `MULT_D13` decides nothing where the destination is another register (R138). -/
theorem multRt_of_ne {d : RegNo} (h : d ≠ rt) (choice : MultD13) (q : BitVec 32) : multRt choice d q = productHigh q := by
  simp [multRt, h]

theorem execMult_ignoresParams {d : RegNo} (h : d ≠ rt) (a b : RegNo) : IgnoresParams (execMult d a b) := by
  intro s p; simp [execMult, h, multRt_of_ne h]

/-- Every instruction outside the four ignores the parameters: each meaning is a chain of updates that commute with them. -/
theorem exec_ignoresParams {i : Instr} (hmult : ∀ a b, i ≠ .mult rt a b) (hasr : ∀ d b, i ≠ .asr d b)
    (hload : ∀ d o b, i ≠ .load d o b) (hret : i ≠ .ret) : IgnoresParams (exec i) := by
  intro s p
  cases i with
  | mult d a b => exact execMult_ignoresParams (fun hd => hmult a b (by rw [hd])) a b s p
  | asr d b => exact absurd rfl (hasr d b)
  | load d o b => exact absurd rfl (hload d o b)
  | ret => exact absurd rfl hret
  | and d a b | or d a b | xor d a b => exact logicResult_withParams ..
  | add d a b | sub d a b | inc d delta | dec d delta => exact adderResult_withParams ..
  | lsl d b | lsr d b | asl d b => exact shiftResult_withParams ..
  | setlo d v | sethi d v => simp [exec, execSetlo, execSethi]
  | lsl8 d b | lsr8 d b => simp [exec, execLsl8, execLsr8]
  | setf v | clrf v | savef d | rstrf d => simp [exec, execSetf, execClrf, execSavef, execRstrf]
  | store d o b | call size b => simp [exec, execStore, execCall]
  | swi n | rti => rfl
  | br b | bl b | bge b | ble b | bg b | bule b | bug b | bz b | bnz b | bc b | bnc b | bs b | bns b | bv b | bnv b =>
    exact branchReg_ignoresParams _ b s p
  | brr o | blr o | bger o | bler o | bgr o | buler o | bugr o | bzr o | bnzr o | bcr o | bncr o | bsr o | bnsr o
  | bvr o | bnvr o => exact branchRel_ignoresParams _ o s p

/-- A meaning that the parameters do not reach keeps them: in the state's own parameters it commutes with writing them back. -/
theorem IgnoresParams.params_eq {run : State → Result} (hrun : IgnoresParams run) {s t : State} (h : run s = .next t) :
    t.params = s.params := by
  have hself : run s = mapNext (fun u => u.withParams s.params) (run s) := hrun s s.params
  rw [h, mapNext_next, Host.Outcome.next.injEq] at hself
  rw [hself]; rfl

/-- No instruction changes the parameters (R40): by commutation, and for the four that read them by what they answer. -/
theorem exec_params {i : Instr} {s t : State} (h : exec i s = .next t) : t.params = s.params := by
  cases i with
  | mult d a b => obtain ⟨_, rfl⟩ := execMult_eq_next.1 h; simp
  | asr d b => obtain rfl := shiftResult_next h; simp
  | load d o b => obtain ⟨_, _, rfl⟩ := execLoad_eq_next.1 h; simp
  | ret => obtain ⟨_, _, rfl⟩ := execRet_eq_next.1 h; simp
  | _ => exact IgnoresParams.params_eq (exec_ignoresParams (by simp) (by simp) (by simp) (by simp)) h

/-- Settles O58: the instructions outside the four commute with the parameters, and all keep them. -/
theorem parametersReachOnlyTheirInstructions : Obligations.ParametersReachOnlyTheirInstructions := by
  unfold Obligations.ParametersReachOnlyTheirInstructions
  intro i s
  exact ⟨fun hmult hasr hload hret p => exec_ignoresParams hmult hasr hload hret s p, fun t h => exec_params h⟩

end Sys2Proof.Machine
end

section
/-! PROOFS. The family 10_state: what a completed instruction leaves in the state, the invariant, canonical memories, and the
parts of the state that an instruction does not reach. -/

namespace Sys2Proof.Machine

/-! ### Reset (R39) -/

/-- Settles O10: the fields of the reset state. -/
theorem resetClearsRegistersAndFlags : Obligations.ResetClearsRegistersAndFlags := by
  unfold Obligations.ResetClearsRegistersAndFlags
  exact ⟨fun r => by simp [State.getReg, State.reset], rfl, rfl, fun _ => rfl, fun _ => rfl, rfl⟩

/-- Settles O11: an image is canonical, whatever it lists. -/
theorem resetMeetsTheInvariant : Obligations.ResetMeetsTheInvariant := by
  unfold Obligations.ResetMeetsTheInvariant
  exact ⟨⟨rfl, State.reset_wf⟩, fun _ im dm => ⟨rfl, Memory.wf_ofImage dm, Memory.wf_ofImage im⟩⟩

/-! ### Canonical memories -/

@[simp] theorem Memory.find_head (k : Nat) (x : Word) (m : Memory) : Memory.find ((k, x) :: m) k = some x := by
  simp [Memory.find]

theorem Memory.find_cons_of_ne {k a : Nat} (h : k ≠ a) (x : Word) (m : Memory) :
    Memory.find ((k, x) :: m) a = Memory.find m a := by
  simp [Memory.find, h]

/-- An address below every listed one holds no word. -/
theorem Memory.find_eq_none_of_lt {m : Memory} {a : Nat} (h : ∀ c ∈ m, a < c.1) : Memory.find m a = none := by
  induction m with
  | nil => rfl
  | cons c m ih =>
    obtain ⟨hc, hm⟩ := List.forall_mem_cons.1 h
    rw [Memory.find_cons_of_ne (Nat.ne_of_gt hc), ih hm]

/-- In a canonical memory nothing below the first cell holds a word. -/
theorem Memory.find_eq_none_of_lt_head {k a : Nat} {x : Word} {m : Memory} (hwf : Memory.wf ((k, x) :: m) = true)
    (h : a < k) : Memory.find ((k, x) :: m) a = none := by
  obtain ⟨-, hlt, -⟩ := (Memory.wf_cons k x m).1 hwf
  exact Memory.find_eq_none_of_lt (List.forall_mem_cons.2 ⟨h, fun c hc => h.trans (hlt c hc)⟩)

/-- Canonical memories whose cells agree have their first cell at the same address: the first cell of the one is missing in
the other if that begins later. -/
theorem Memory.head_le_of_find_eq {k j : Nat} {x y : Word} {m n : Memory} (hm : Memory.wf ((k, x) :: m) = true)
    (hn : Memory.wf ((j, y) :: n) = true)
    (h : ∀ a < 65536, Memory.find ((k, x) :: m) a = Memory.find ((j, y) :: n) a) : j ≤ k := by
  by_contra hlt
  have hk := h k ((Memory.wf_cons k x m).1 hm).1
  rw [Memory.find_head, Memory.find_eq_none_of_lt_head hn (Nat.lt_of_not_le hlt)] at hk
  cases hk

/-- A canonical memory is determined by what its 2^16 cells hold. -/
theorem Memory.eq_of_find_eq {m n : Memory} (hm : Memory.wf m = true) (hn : Memory.wf n = true)
    (h : ∀ a < 65536, Memory.find m a = Memory.find n a) : m = n := by
  induction m generalizing n with
  | nil =>
    cases n with
    | nil => rfl
    | cons d n =>
      have hd := h d.1 ((Memory.wf_cons d.1 d.2 n).1 hn).1
      rw [Memory.find_head] at hd
      cases hd
  | cons c m ih =>
    obtain ⟨k, x⟩ := c
    obtain ⟨hk, hkm, hm'⟩ := (Memory.wf_cons k x m).1 hm
    cases n with
    | nil =>
      have hc := h k hk
      rw [Memory.find_head] at hc
      cases hc
    | cons d n =>
      obtain ⟨j, y⟩ := d
      obtain ⟨-, hjn, hn'⟩ := (Memory.wf_cons j y n).1 hn
      obtain rfl : k = j := Nat.le_antisymm (Memory.head_le_of_find_eq hn hm fun a ha => (h a ha).symm)
        (Memory.head_le_of_find_eq hm hn h)
      obtain rfl : x = y := by simpa using h k hk
      have htail : m = n := ih hm' hn' fun a ha => by
        by_cases hak : k = a
        · subst hak
          rw [Memory.find_eq_none_of_lt hkm, Memory.find_eq_none_of_lt hjn]
        · simpa only [Memory.find_cons_of_ne hak] using h a ha
      rw [htail]

/-- Settles O13: the words are the addresses below 2^16. -/
theorem canonicalMemoriesWithEqualReadsAreEqual : Obligations.CanonicalMemoriesWithEqualReadsAreEqual := by
  unfold Obligations.CanonicalMemoriesWithEqualReadsAreEqual
  intro m n hm hn h
  refine Memory.eq_of_find_eq hm hn fun a ha => ?_
  have hread := h (BitVec.ofNat 16 a)
  rwa [Memory.read, Memory.read, BitVec.toNat_ofNat, Nat.mod_eq_of_lt ha] at hread

/-! ### Flags that an update keeps (R31) -/

/-- The flags `g` are those of `f` outside the flags set in `w`. -/
def Flags.KeptOutside (w f g : Flags) : Prop :=
  (w.s = false → g.s = f.s) ∧ (w.z = false → g.z = f.z) ∧ (w.v = false → g.v = f.v) ∧ (w.c = false → g.c = f.c) ∧
    (w.cb = false → g.cb = f.cb)

theorem Flags.KeptOutside.refl (w f : Flags) : w.KeptOutside f f :=
  ⟨fun _ => rfl, fun _ => rfl, fun _ => rfl, fun _ => rfl, fun _ => rfl⟩

theorem Flags.keptOutside_withSZ (f : Flags) (r : Word) :
    Flags.KeptOutside ⟨true, true, false, false, false⟩ f (f.withSZ r) := by
  simp [Flags.KeptOutside]

theorem Flags.keptOutside_withAdder (f : Flags) (out : AdderOut) :
    Flags.KeptOutside ⟨true, true, true, true, false⟩ f (f.withAdder out) := by
  simp [Flags.KeptOutside]

theorem Flags.keptOutside_withCarry (f : Flags) (b : Bool) :
    Flags.KeptOutside ⟨false, false, false, true, false⟩ f (f.withCarry b) := by
  simp [Flags.KeptOutside]

theorem Flags.keptOutside_withProduct (f : Flags) (p : BitVec 32) (b : Bool) :
    Flags.KeptOutside ⟨true, true, true, true, false⟩ f (f.withProduct p b) := by
  simp [Flags.KeptOutside]

theorem Flags.keptOutside_all (f g : Flags) : Flags.KeptOutside ⟨true, true, true, true, true⟩ f g := by
  simp [Flags.KeptOutside]

/-- Where each flag stands in the 5-bit vector (R11, R33). -/
theorem Flags.getLsbD_toBits (f : Flags) : f.toBits.getLsbD 0 = f.s ∧ f.toBits.getLsbD 1 = f.z ∧
    f.toBits.getLsbD 2 = f.v ∧ f.toBits.getLsbD 3 = f.c ∧ f.toBits.getLsbD 4 = f.cb := by
  have h := f.ofBits_toBits
  exact ⟨congrArg Flags.s h, congrArg Flags.z h, congrArg Flags.v h, congrArg Flags.c h, congrArg Flags.cb h⟩

/-- SETF flag by flag (R172). -/
theorem Flags.setMask_eq (f : Flags) (m : BitVec 5) : f.setMask m =
    ⟨f.s || m.getLsbD 0, f.z || m.getLsbD 1, f.v || m.getLsbD 2, f.c || m.getLsbD 3, f.cb || m.getLsbD 4⟩ := by
  obtain ⟨hs, hz, hv, hc, hcb⟩ := f.getLsbD_toBits
  simp only [Flags.setMask, Flags.ofBits, BitVec.getLsbD_or, hs, hz, hv, hc, hcb]

/-- CLRF flag by flag (R173). -/
theorem Flags.clearMask_eq (f : Flags) (m : BitVec 5) : f.clearMask m =
    ⟨f.s && !m.getLsbD 0, f.z && !m.getLsbD 1, f.v && !m.getLsbD 2, f.c && !m.getLsbD 3, f.cb && !m.getLsbD 4⟩ := by
  obtain ⟨hs, hz, hv, hc, hcb⟩ := f.getLsbD_toBits
  simp only [Flags.clearMask, Flags.ofBits, BitVec.getLsbD_and, BitVec.getLsbD_not, hs, hz, hv, hc, hcb, Nat.reduceLT,
    decide_true, Bool.true_and]

theorem Flags.keptOutside_setMask (f : Flags) (m : BitVec 5) : Flags.KeptOutside (Flags.ofBits m) f (f.setMask m) := by
  simp +contextual [Flags.KeptOutside, Flags.setMask_eq, Flags.ofBits]

theorem Flags.keptOutside_clearMask (f : Flags) (m : BitVec 5) :
    Flags.KeptOutside (Flags.ofBits m) f (f.clearMask m) := by
  simp +contextual [Flags.KeptOutside, Flags.clearMask_eq, Flags.ofBits]

/-! ### The branches as two families (R212, R213) -/

theorem exec_branchReg (c : Cond) (b : RegNo) (s : State) : exec (c.branchReg b) s = branchReg c b s := by
  cases c <;> rfl

theorem exec_branchRel (c : Cond) (o : Int) (s : State) : exec (c.branchRel o) s = branchRel c o s := by
  cases c <;> rfl

/-! ### What a completed instruction does

`Effect` lists the shapes of a next state, with what the tables of flags and of destinations allow it to write. `exec_effect`
says that there are no others, and the rules of all instructions below are read off the list. -/

/-- `Effect s i t`: from the state `s` the instruction `i` may leave `t`. -/
inductive Effect (s : State) : Instr → State → Prop where
  /-- one register and flags of the table -/
  | register {i : Instr} {d : RegNo} (v : Word) (f : Flags) (hd : regsWritten i = [d])
      (hf : (flagsWritten i).KeptOutside s.flags f) : Effect s i ((s.setReg d v).setFlags f).advance
  /-- flags of the table only: SETF, CLRF and RSTRF -/
  | flags {i : Instr} (f : Flags) (hf : (flagsWritten i).KeptOutside s.flags f) : Effect s i (s.setFlags f).advance
  /-- MULT: two registers, flags of the table and a draw -/
  | product (d a b : RegNo) (low high : Word) (f : Flags) (hf : (flagsWritten (.mult d a b)).KeptOutside s.flags f) :
      Effect s (.mult d a b) ((((s.setReg d low).setReg rt high).setFlags f).countDraw).advance
  /-- STORE: one cell -/
  | store (d : RegNo) (o : Nat) (b : RegNo) :
      Effect s (.store d o b) (s.writeData (s.effectiveAddress b o) (s.getReg d)).advance
  /-- a register-mode branch: the pc only -/
  | branchReg (c : Cond) (b : RegNo) : Effect s (c.branchReg b) (s.branchTo (s.flags.holds c) (s.getReg b))
  /-- a relative branch: the pc only -/
  | branchRel (c : Cond) (o : Int) : Effect s (c.branchRel o) (s.branchTo (s.flags.holds c) (s.relTarget o))
  /-- CALL: one cell, R13, FP, SP and the pc -/
  | call (n : Nat) (b : RegNo) : Effect s (.call n b)
      (((((s.writeData (s.getReg sp) (s.pc + 1)).setReg rt (s.getReg fp)).setReg fp (s.getReg sp)).setReg sp
        (s.raisedSp n)).setPc (s.getReg b))
  /-- RETURN: FP, SP and the pc -/
  | ret (target : Word) :
      Effect s .ret (((s.setReg fp (s.getReg rt)).setReg sp (s.getReg fp)).setPc target)

theorem State.setFlags_setReg_self (s : State) (d : RegNo) (v : Word) :
    (s.setReg d v).setFlags s.flags = s.setReg d v := by
  unfold State.setReg; split <;> rfl

/-- A register written and every flag kept. -/
theorem Effect.registerOnly {s : State} {i : Instr} {d : RegNo} (hd : regsWritten i = [d]) (v : Word) :
    Effect s i (s.setReg d v).advance := by
  rw [← State.setFlags_setReg_self]
  exact .register v s.flags hd (.refl _ _)

section
variable {s t : State} {i : Instr} {d : RegNo}

theorem logicResult_effect {r : Word} (h : logicResult d r s = .next t) (hd : regsWritten i = [d])
    (hf : flagsWritten i = ⟨true, true, false, false, false⟩) : Effect s i t := by
  obtain rfl := logicResult_next h
  exact .register _ _ hd (hf ▸ Flags.keptOutside_withSZ _ _)

theorem adderResult_effect {out : AdderOut} (h : adderResult d out s = .next t) (hd : regsWritten i = [d])
    (hf : flagsWritten i = ⟨true, true, true, true, false⟩) : Effect s i t := by
  obtain rfl := adderResult_next h
  exact .register _ _ hd (hf ▸ Flags.keptOutside_withAdder _ _)

theorem shiftResult_effect {r : Word} {out : Bool} (h : shiftResult d r out s = .next t) (hd : regsWritten i = [d])
    (hf : flagsWritten i = ⟨false, false, false, true, false⟩) : Effect s i t := by
  obtain rfl := shiftResult_next h
  exact .register _ _ hd (hf ▸ Flags.keptOutside_withCarry _ _)

theorem branchReg_effect {c : Cond} {b : RegNo} (h : branchReg c b s = .next t) : Effect s (c.branchReg b) t := by
  obtain rfl := branchReg_next h
  exact .branchReg c b

theorem branchRel_effect {c : Cond} {o : Int} (h : branchRel c o s = .next t) : Effect s (c.branchRel o) t := by
  obtain rfl := branchRel_next h
  exact .branchRel c o

end

/-- Every next state of every instruction is on the list. -/
theorem exec_effect {i : Instr} {s t : State} (h : exec i s = .next t) : Effect s i t := by
  cases i with
  | and d a b | or d a b | xor d a b => exact logicResult_effect h rfl rfl
  | add d a b | sub d a b | inc d delta | dec d delta => exact adderResult_effect h rfl rfl
  | lsl d b | lsr d b | asl d b | asr d b => exact shiftResult_effect h rfl rfl
  | setlo d v | sethi d v | lsl8 d b | lsr8 d b | savef d =>
    obtain rfl := Host.Outcome.next.inj h
    exact .registerOnly rfl _
  | mult d a b =>
    obtain ⟨-, rfl⟩ := execMult_eq_next.1 h
    exact .product d a b _ _ _ (Flags.keptOutside_withProduct _ _ _)
  | load d o b =>
    obtain ⟨v, -, rfl⟩ := execLoad_eq_next.1 h
    exact .register v _ rfl (Flags.keptOutside_withSZ _ _)
  | setf v =>
    obtain rfl := Host.Outcome.next.inj h
    exact .flags _ (Flags.keptOutside_setMask _ v)
  | clrf v =>
    obtain rfl := Host.Outcome.next.inj h
    exact .flags _ (Flags.keptOutside_clearMask _ v)
  | rstrf d =>
    obtain rfl := Host.Outcome.next.inj h
    exact .flags _ (Flags.keptOutside_all _ _)
  | store d o b =>
    obtain rfl := Host.Outcome.next.inj h
    exact .store d o b
  | call n b =>
    obtain rfl := Host.Outcome.next.inj h
    exact .call n b
  | ret =>
    obtain ⟨target, -, rfl⟩ := execRet_eq_next.1 h
    exact .ret target
  | swi n | rti => cases h
  | br b | bl b | bge b | ble b | bg b | bule b | bug b | bz b | bnz b | bc b | bnc b | bs b | bns b | bv b | bnv b =>
    exact branchReg_effect h
  | brr o | blr o | bger o | bler o | bgr o | buler o | bugr o | bzr o | bnzr o | bcr o | bncr o | bsr o | bnsr o
  | bvr o | bnvr o => exact branchRel_effect h

/-! ### Rules of all instructions, read off the list -/

/-- Every effect keeps the invariant: only STORE and CALL touch a memory, and none touches the slot of R0. -/
theorem Effect.inv {i : Instr} {s t : State} (h : Effect s i t) (hs : s.Inv) : t.Inv := by
  obtain ⟨hzero, hdm, him⟩ := hs
  cases h with
  | store d o b => exact ⟨hzero, Memory.wf_write _ _ hdm, him⟩
  | call n b => exact ⟨by simpa using hzero, by simpa using Memory.wf_write _ _ hdm, by simpa using him⟩
  | register _ _ _ _ | flags _ _ | product _ _ _ _ _ _ _ | branchReg _ _ | branchRel _ _ | ret _ =>
    exact ⟨by simpa using hzero, by simpa using hdm, by simpa using him⟩

/-- Settles O12: the step runs an instruction, and each effect writes memory through `Memory.write` and registers through
`State.setReg`, which never writes the slot of R0. -/
theorem everyStepKeepsTheInvariant : Obligations.EveryStepKeepsTheInvariant := by
  unfold Obligations.EveryStepKeepsTheInvariant
  intro s t hs h
  obtain ⟨-, _, _, -, -, hexec⟩ := step_next h
  exact (exec_effect hexec).inv hs

theorem Effect.keptOutside {i : Instr} {s t : State} (h : Effect s i t) :
    (flagsWritten i).KeptOutside s.flags t.flags := by
  cases h with
  | register v f hd hf | flags f hf | product d a b low high f hf => exact hf
  | store d o b | branchReg c b | branchRel c o => exact .refl _ _
  | call n b | ret target => simpa using Flags.KeptOutside.refl _ _

/-- Settles O17: no effect goes beyond the table. -/
theorem flagsOutsideTheTableAreKept : Obligations.FlagsOutsideTheTableAreKept := by
  unfold Obligations.FlagsOutsideTheTableAreKept
  exact fun i s t h => (exec_effect h).keptOutside

theorem Effect.sameRegsBut {i : Instr} {s t : State} (h : Effect s i t) : SameRegsBut (regsWritten i) s t := by
  intro r hr
  cases h with
  | register v f hd hf =>
    rw [hd, List.mem_singleton] at hr
    simpa using State.getReg_setReg_of_ne s hr v
  | product d a b low high f hf =>
    obtain ⟨hd, hrt⟩ : r ≠ d ∧ r ≠ rt := by simpa [regsWritten] using hr
    simp [State.getReg_setReg_of_ne, hd, hrt]
  | call n b =>
    obtain ⟨hrt, hfp, hsp⟩ : r ≠ rt ∧ r ≠ fp ∧ r ≠ sp := by simpa [regsWritten] using hr
    simp [State.getReg_setReg_of_ne, hrt, hfp, hsp]
  | ret target =>
    obtain ⟨hfp, hsp⟩ : r ≠ fp ∧ r ≠ sp := by simpa [regsWritten] using hr
    simp [State.getReg_setReg_of_ne, hfp, hsp]
  | flags _ _ | store _ _ _ | branchReg _ _ | branchRel _ _ => simp

/-- Settles O18: each effect writes the listed registers only, and R0 reads 0 in every state. -/
theorem registersOutsideTheDestinationsAreKept : Obligations.RegistersOutsideTheDestinationsAreKept := by
  unfold Obligations.RegistersOutsideTheDestinationsAreKept
  exact fun i s t h => ⟨(exec_effect h).sameRegsBut, t.getReg_zero⟩

theorem Effect.im_eq {i : Instr} {s t : State} (h : Effect s i t) : t.im = s.im := by
  cases h <;> simp

/-- Only STORE and CALL write data memory (R35). -/
theorem Effect.dm_eq {i : Instr} {s t : State} (h : Effect s i t) (hstore : ∀ d o b, i ≠ .store d o b)
    (hcall : ∀ n b, i ≠ .call n b) : t.dm = s.dm := by
  cases h with
  | store d o b => exact absurd rfl (hstore d o b)
  | call n b => exact absurd rfl (hcall n b)
  | register _ _ _ _ | flags _ _ | product _ _ _ _ _ _ _ | branchReg _ _ | branchRel _ _ | ret _ => simp

/-- Where an instruction is no transfer of control, the pc moves on by one (R27). -/
theorem Effect.pc_eq {i : Instr} {s t : State} (h : Effect s i t) (hreg : ∀ c b, i ≠ Cond.branchReg c b)
    (hrel : ∀ c o, i ≠ Cond.branchRel c o) (hcall : ∀ n b, i ≠ .call n b) (hret : i ≠ .ret) : t.pc = s.pc + 1 := by
  cases h with
  | branchReg c b => exact absurd rfl (hreg c b)
  | branchRel c o => exact absurd rfl (hrel c o)
  | call n b => exact absurd rfl (hcall n b)
  | ret target => exact absurd rfl hret
  | register _ _ _ _ | flags _ _ | product _ _ _ _ _ _ _ | store _ _ _ => simp

/-- Settles O19: the transfers of control by their own meanings, the others by the list. -/
theorem programCounterFollowsTheInstruction : Obligations.ProgramCounterFollowsTheInstruction := by
  unfold Obligations.ProgramCounterFollowsTheInstruction
  intro i s t h
  refine ⟨?branchReg, ?branchRel, ?call, ?ret, (exec_effect h).pc_eq⟩
  case branchReg =>
    rintro c b rfl
    rw [exec_branchReg] at h
    rw [branchReg_next h, State.branchTo_pc]
  case branchRel =>
    rintro c o rfl
    rw [exec_branchRel] at h
    rw [branchRel_next h, State.branchTo_pc, State.relTarget]
  case call =>
    rintro n b rfl
    rw [← Host.Outcome.next.inj h, State.setPc_pc]
  case ret =>
    rintro rfl x hx
    obtain ⟨v, hv, rfl⟩ := execRet_eq_next.1 h
    have hread : s.readData (s.getReg fp) = .ok x := Memory.readOr_eq_ok.2 (.inl hx)
    rw [State.setPc_pc]
    exact Except.ok.inj (hv.symm.trans hread)

/-! ### Parts of the state that an instruction does not reach

`State.recast` puts other contents into the two memories and into carry-block; an instruction that reaches neither data
memory nor carry-block does the same before and after. -/

/-- The flags with another carry-block. -/
def Flags.recast (gc : Bool → Bool) (f : Flags) : Flags := { f with cb := gc f.cb }

/-- The state with other memories and another carry-block. -/
def State.recast (gi gd : Memory → Memory) (gc : Bool → Bool) (s : State) : State :=
  { s with im := gi s.im, dm := gd s.dm, flags := s.flags.recast gc }

section
variable (gi gd : Memory → Memory) (gc : Bool → Bool)

@[simp] theorem Flags.recast_withSZ (f : Flags) (r : Word) : (f.recast gc).withSZ r = (f.withSZ r).recast gc := rfl
@[simp] theorem Flags.recast_withAdder (f : Flags) (out : AdderOut) :
    (f.recast gc).withAdder out = (f.withAdder out).recast gc := rfl
@[simp] theorem Flags.recast_withCarry (f : Flags) (b : Bool) :
    (f.recast gc).withCarry b = (f.withCarry b).recast gc := rfl
@[simp] theorem Flags.recast_withProduct (f : Flags) (q : BitVec 32) (b : Bool) :
    (f.recast gc).withProduct q b = (f.withProduct q b).recast gc := rfl
/-- No condition reads carry-block (R211). -/
@[simp] theorem Flags.recast_holds (f : Flags) (c : Cond) : (f.recast gc).holds c = f.holds c := by
  cases c <;> rfl
@[simp] theorem Flags.recast_id (f : Flags) : f.recast id = f := rfl

variable (s : State)

@[simp] theorem State.recast_pc : (s.recast gi gd gc).pc = s.pc := rfl
@[simp] theorem State.recast_flags : (s.recast gi gd gc).flags = s.flags.recast gc := rfl
@[simp] theorem State.recast_draws : (s.recast gi gd gc).draws = s.draws := rfl
@[simp] theorem State.recast_params : (s.recast gi gd gc).params = s.params := rfl
@[simp] theorem State.recast_getReg (r : RegNo) : (s.recast gi gd gc).getReg r = s.getReg r := rfl
@[simp] theorem State.recast_effectiveAddress (b : RegNo) (o : Nat) :
    (s.recast gi gd gc).effectiveAddress b o = s.effectiveAddress b o := rfl
@[simp] theorem State.recast_relTarget (o : Int) : (s.recast gi gd gc).relTarget o = s.relTarget o := rfl
@[simp] theorem State.recast_raisedSp (n : Nat) : (s.recast gi gd gc).raisedSp n = s.raisedSp n := rfl
@[simp] theorem State.recast_readData (a : Word) : (s.recast gi id gc).readData a = s.readData a := rfl

@[simp] theorem State.recast_setFlags (f : Flags) :
    (s.recast gi gd gc).setFlags (f.recast gc) = (s.setFlags f).recast gi gd gc := rfl
@[simp] theorem State.recast_setPc (t : Word) : (s.recast gi gd gc).setPc t = (s.setPc t).recast gi gd gc := rfl
@[simp] theorem State.recast_advance : (s.recast gi gd gc).advance = s.advance.recast gi gd gc := rfl
@[simp] theorem State.recast_branchTo (c : Bool) (t : Word) :
    (s.recast gi gd gc).branchTo c t = (s.branchTo c t).recast gi gd gc := rfl
@[simp] theorem State.recast_countDraw : (s.recast gi gd gc).countDraw = s.countDraw.recast gi gd gc := rfl
@[simp] theorem State.recast_writeData (a v : Word) :
    (s.recast gi id gc).writeData a v = (s.writeData a v).recast gi id gc := rfl
@[simp] theorem State.recast_setReg (d : RegNo) (v : Word) :
    (s.recast gi gd gc).setReg d v = (s.setReg d v).recast gi gd gc := by
  unfold State.setReg; split <;> rfl

end

@[simp] theorem mapNext_raise (f : State → State) (x : Stop) : mapNext f (raise x) = raise x := by
  cases x <;> rfl

/-- What is done to the next state of a read can be done after it. -/
theorem mapNext_withRead (f : State → State) (r : Except Fault Word) (k : Word → Result) :
    mapNext f (withRead r k) = withRead r fun v => mapNext f (k v) := by
  cases r <;> simp [withRead]

/-- The instructions that reach data memory (R35). -/
def ReachesData (i : Instr) : Prop :=
  (∃ d o b, i = .load d o b) ∨ (∃ d o b, i = .store d o b) ∨ (∃ n b, i = .call n b) ∨ i = .ret

/-- The instructions that read carry-block (R30). -/
def ReadsCarryBlock (i : Instr) : Prop :=
  (∃ d a b, i = .add d a b) ∨ (∃ d a b, i = .sub d a b) ∨ (∃ d b, i = .lsl d b) ∨ (∃ d b, i = .lsr d b) ∨
    (∃ d b, i = .asl d b) ∨ ∃ d, i = .savef d

/-- The instructions that write carry-block (R30). -/
def WritesCarryBlock (i : Instr) : Prop :=
  (∃ v, i = .setf v) ∨ (∃ v, i = .clrf v) ∨ ∃ d, i = .rstrf d

section
variable (gi gd : Memory → Memory) (gc : Bool → Bool) (s : State)

theorem logicResult_recast (d : RegNo) (r : Word) :
    logicResult d r (s.recast gi gd gc) = mapNext (State.recast gi gd gc) (logicResult d r s) := by
  simp [logicResult]

theorem adderResult_recast (d : RegNo) (out : AdderOut) :
    adderResult d out (s.recast gi gd gc) = mapNext (State.recast gi gd gc) (adderResult d out s) := by
  simp [adderResult]

theorem shiftResult_recast (d : RegNo) (r : Word) (out : Bool) :
    shiftResult d r out (s.recast gi gd gc) = mapNext (State.recast gi gd gc) (shiftResult d r out s) := by
  simp [shiftResult]

theorem branchReg_recast (c : Cond) (b : RegNo) :
    branchReg c b (s.recast gi gd gc) = mapNext (State.recast gi gd gc) (branchReg c b s) := by
  simp [branchReg]

theorem branchRel_recast (c : Cond) (o : Int) :
    branchRel c o (s.recast gi gd gc) = mapNext (State.recast gi gd gc) (branchRel c o s) := by
  simp [branchRel]

theorem execMult_recast (d a b : RegNo) :
    execMult d a b (s.recast gi gd gc) = mapNext (State.recast gi gd gc) (execMult d a b s) := by
  by_cases hstop : d = rt ∧ s.params.multD13 = .refuse
  · simp [execMult, hstop]
  · simp [execMult, if_neg hstop]

theorem execLoad_recast (d : RegNo) (o : Nat) (b : RegNo) :
    execLoad d o b (s.recast gi id gc) = mapNext (State.recast gi id gc) (execLoad d o b s) := by
  simp [execLoad, mapNext_withRead]

theorem execRet_recast : execRet (s.recast gi id gc) = mapNext (State.recast gi id gc) (execRet s) := by
  simp [execRet, mapNext_withRead]

end

/-- An instruction does the same with other contents in the parts it does not reach: each meaning is a chain of updates that
commute with the change. -/
theorem exec_recast {gi gd : Memory → Memory} {gc : Bool → Bool} {i : Instr} (hdata : ReachesData i → gd = id)
    (hread : ReadsCarryBlock i → gc = id) (hwrite : WritesCarryBlock i → gc = id) (s : State) :
    exec i (s.recast gi gd gc) = mapNext (State.recast gi gd gc) (exec i s) := by
  cases i with
  | and d a b | or d a b | xor d a b => exact logicResult_recast ..
  | inc d delta | dec d delta => exact adderResult_recast ..
  | asr d b => exact shiftResult_recast ..
  | mult d a b => exact execMult_recast ..
  | setlo d v | sethi d v => simp [exec, execSetlo, execSethi]
  | lsl8 d b | lsr8 d b => simp [exec, execLsl8, execLsr8]
  | add d a b | sub d a b =>
    obtain rfl := hread (by simp [ReadsCarryBlock])
    exact adderResult_recast ..
  | lsl d b | lsr d b | asl d b =>
    obtain rfl := hread (by simp [ReadsCarryBlock])
    exact shiftResult_recast ..
  | savef d =>
    obtain rfl := hread (by simp [ReadsCarryBlock])
    simp [exec, execSavef]
  | setf v | clrf v | rstrf d =>
    obtain rfl := hwrite (by simp [WritesCarryBlock])
    rfl
  | load d o b =>
    obtain rfl := hdata (by simp [ReachesData])
    exact execLoad_recast ..
  | store d o b =>
    obtain rfl := hdata (by simp [ReachesData])
    rfl
  | call n b =>
    obtain rfl := hdata (by simp [ReachesData])
    simp [exec, execCall]
  | ret =>
    obtain rfl := hdata (by simp [ReachesData])
    exact execRet_recast ..
  | swi n | rti => rfl
  | br b | bl b | bge b | ble b | bg b | bule b | bug b | bz b | bnz b | bc b | bnc b | bs b | bns b | bv b | bnv b =>
    exact branchReg_recast ..
  | brr o | blr o | bger o | bler o | bgr o | buler o | bugr o | bzr o | bnzr o | bcr o | bncr o | bsr o | bnsr o
  | bvr o | bnvr o => exact branchRel_recast ..

/-- Settles O14: a change of instruction memory alone commutes with every instruction, and no effect writes it. -/
theorem noInstructionTouchesInstructionMemory : Obligations.NoInstructionTouchesInstructionMemory := by
  unfold Obligations.NoInstructionTouchesInstructionMemory
  intro i s m
  exact ⟨exec_recast (gi := fun _ => m) (gd := id) (gc := id) (fun _ => rfl) (fun _ => rfl) (fun _ => rfl) s,
    fun t h => (exec_effect h).im_eq⟩

/-- Settles O15: outside the four a change of data memory alone commutes, and only STORE and CALL have an effect on it. -/
theorem onlyFourInstructionsReachDataMemory : Obligations.OnlyFourInstructionsReachDataMemory := by
  unfold Obligations.OnlyFourInstructionsReachDataMemory
  intro i s
  refine ⟨fun hload hstore hcall hret m => ?_, fun hstore hcall t h a => ?_⟩
  · have hdata : ¬ ReachesData i := by simp [ReachesData, hload, hstore, hcall, hret]
    exact exec_recast (gi := id) (gd := fun _ => m) (gc := id) (fun h => absurd h hdata) (fun _ => rfl) (fun _ => rfl) s
  · rw [(exec_effect h).dm_eq hstore hcall]

/-! ### Carry-block (R30) -/

/-- While carry-block is set, ADD's carry-in and the bit shifted in are 0 whatever the carry is (R132, R151). -/
theorem Flags.addCarryIn_withCarry_of_blocked {f : Flags} (h : f.cb = true) (x : Bool) :
    (f.withCarry x).addCarryIn = f.addCarryIn := by
  simp [Flags.addCarryIn, h]

/-- While carry-block is set, SUB's carry-in is 1 whatever the carry is (R132). -/
theorem Flags.subCarryIn_withCarry_of_blocked {f : Flags} (h : f.cb = true) (x : Bool) :
    (f.withCarry x).subCarryIn = f.subCarryIn := by
  simp [Flags.subCarryIn, h]

theorem State.setReg_setFlags (s : State) (f : Flags) (d : RegNo) (v : Word) :
    (s.setFlags f).setReg d v = (s.setReg d v).setFlags f := by
  unfold State.setReg; split <;> rfl

theorem State.setFlags_setFlags (s : State) (f g : Flags) : (s.setFlags f).setFlags g = s.setFlags g := rfl

theorem Flags.withCarry_withAdder (f : Flags) (x : Bool) (out : AdderOut) :
    (f.withCarry x).withAdder out = f.withAdder out := rfl

theorem Flags.withCarry_withCarry (f : Flags) (x y : Bool) : (f.withCarry x).withCarry y = f.withCarry y := rfl

/-- What an adder leaves does not depend on the carry before, once its output is given. -/
theorem adderResult_withCarry (d : RegNo) (out : AdderOut) (s : State) (x : Bool) :
    adderResult d out (s.setFlags (s.flags.withCarry x)) = adderResult d out s := by
  simp only [adderResult, State.setReg_setFlags, State.setFlags_setFlags, State.setFlags_flags, Flags.withCarry_withAdder]

/-- What a shift leaves does not depend on the carry before, once its result is given. -/
theorem shiftResult_withCarry (d : RegNo) (r : Word) (out : Bool) (s : State) (x : Bool) :
    shiftResult d r out (s.setFlags (s.flags.withCarry x)) = shiftResult d r out s := by
  simp only [shiftResult, State.setReg_setFlags, State.setFlags_setFlags, State.setFlags_flags, Flags.withCarry_withCarry]

/-- While carry-block is set, the carry reaches none of the five operations: their carry-in is fixed and the carry is
overwritten. -/
theorem exec_withCarry_of_blocked {s : State} (hcb : s.flags.cb = true) (d a b : RegNo) (x : Bool) :
    ∀ i ∈ [Instr.add d a b, Instr.sub d a b, Instr.lsl d b, Instr.lsr d b, Instr.asl d b],
      exec i (s.setFlags (s.flags.withCarry x)) = exec i s := by
  have hadd := Flags.addCarryIn_withCarry_of_blocked hcb x
  have hsub := Flags.subCarryIn_withCarry_of_blocked hcb x
  simp only [List.forall_mem_cons, List.not_mem_nil, false_imp_iff, implies_true, exec, execAdd, execSub, execLsl, execLsr,
    execAsl, State.setFlags_flags, State.setFlags_getReg, hadd, hsub, adderResult_withCarry, shiftResult_withCarry, and_self]

/-- The table of R31 gives carry-block to SETF, CLRF and RSTRF only. -/
theorem flagsWritten_cb {i : Instr} (h : ¬ WritesCarryBlock i) : (flagsWritten i).cb = false := by
  cases i with
  | setf v | clrf v | rstrf d => exact absurd (by simp [WritesCarryBlock]) h
  | _ => rfl

/-- SETF, CLRF and RSTRF write the four other flags whatever carry-block was. -/
theorem WritesCarryBlock.next_setFlags {i : Instr} (hi : WritesCarryBlock i) {s t u : State} {x : Bool}
    (ht : exec i s = .next t) (hu : exec i (s.setFlags { s.flags with cb := x }) = .next u) :
    { t with flags := { t.flags with cb := u.flags.cb } } = u := by
  obtain ⟨v, rfl⟩ | ⟨v, rfl⟩ | ⟨d, rfl⟩ := hi
  all_goals
    obtain rfl := Host.Outcome.next.inj ht
    obtain rfl := Host.Outcome.next.inj hu
  · simp only [Flags.setMask_eq]; rfl
  · simp only [Flags.clearMask_eq]; rfl
  · rfl

/-- An instruction that does not read carry-block leaves the same but for carry-block, whatever that was. -/
theorem next_setFlags_of_not_readsCarryBlock {i : Instr} (hi : ¬ ReadsCarryBlock i) {s t u : State} {x : Bool}
    (ht : exec i s = .next t) (hu : exec i (s.setFlags { s.flags with cb := x }) = .next u) :
    { t with flags := { t.flags with cb := u.flags.cb } } = u := by
  by_cases hw : WritesCarryBlock i
  · exact hw.next_setFlags ht hu
  · have hcomm : exec i (s.setFlags { s.flags with cb := x }) = mapNext (State.recast id id fun _ => x) (exec i s) :=
      exec_recast (gi := id) (gd := id) (gc := fun _ => x) (fun _ => rfl) (fun h => absurd h hi) (fun h => absurd h hw) s
    rw [hu, ht, mapNext_next] at hcomm
    obtain rfl := Host.Outcome.next.inj hcomm
    rfl

/-- Settles O16: the fixed carry-in under carry-block, the table of R31 for the writers, and the commuting change of
carry-block for the readers. -/
theorem carryBlockWritersAndReaders : Obligations.CarryBlockWritersAndReaders := by
  unfold Obligations.CarryBlockWritersAndReaders
  refine ⟨fun d a b s x hcb => exec_withCarry_of_blocked hcb d a b x, fun i s => ⟨?writers, ?readers⟩⟩
  case writers =>
    intro hsetf hclrf hrstrf t h
    obtain ⟨-, -, -, -, hcb⟩ := (exec_effect h).keptOutside
    exact hcb (flagsWritten_cb (by simp [WritesCarryBlock, hsetf, hclrf, hrstrf]))
  case readers =>
    intro hadd hsub hlsl hlsr hasl hsavef x t u ht hu
    exact next_setFlags_of_not_readsCarryBlock (by simp [ReadsCarryBlock, hadd, hsub, hlsl, hlsr, hasl, hsavef]) ht hu

end Sys2Proof.Machine
end

section
/-! PROOFS. The family 20_memory: a LOAD after a STORE, and the stops that the OPEN parameters bring at their defaults. -/

namespace Sys2Proof.Machine

/-! ### Reads that stop (R58, R341) -/

/-- An instruction that goes on after its read faults exactly where the read does, with the fault of the read. -/
theorem withRead_eq_fault {r : Except Fault Word} {k : Word → State} {f : Fault} :
    (withRead r fun v => .next (k v)) = .fault f ↔ r = .error f := by
  cases r <;> simp [withRead, raise]

theorem execLoad_eq_fault {d : RegNo} {o : Nat} {b : RegNo} {s : State} {f : Fault} :
    execLoad d o b s = .fault f ↔ s.readData (s.effectiveAddress b o) = .error f :=
  withRead_eq_fault

theorem execRet_eq_fault {s : State} {f : Fault} : execRet s = .fault f ↔ s.readData (s.getReg fp) = .error f :=
  withRead_eq_fault

/-- Under `DM_UNINIT = fault` a cell that holds no word is read as the fault (R58, D25). -/
theorem State.readData_of_empty {s : State} {a : Word} (hparam : s.params.dmUninit = .fault) (hcell : s.dm.read a = none) :
    s.readData a = .error (.uninitialisedRead .data a) :=
  Memory.readOr_eq_error.2 ⟨hcell, hparam, rfl⟩

/-- Under `MULT_D13 = refuse` a MULT into R13 answers its refusal with its word (R138, D9). -/
theorem execMult_rt_of_refuse {s : State} (h : s.params.multD13 = .refuse) (a b : RegNo) :
    execMult rt a b s = .refused (.unspecifiedMultD13 (encode (.mult rt a b))) := by
  simp only [execMult, h, and_self, if_true, raise]

/-- The word of a MULT into R13: the opcode and the destination are its high byte (R82). -/
theorem encode_mult_rt (a b : RegNo) : encode (.mult rt a b) = 0xCD#8 ++ a ++ b := rfl

/-- Settles O57: LOAD and RETURN pass on the fault of their read, and MULT into R13 refuses with its word. -/
theorem openParametersStopAtTheirDefaults : Obligations.OpenParametersStopAtTheirDefaults := by
  unfold Obligations.OpenParametersStopAtTheirDefaults
  refine fun s => ⟨fun hparam => ⟨fun d o b hcell => ?load, fun hcell => ?ret⟩, fun hparam a b => ?mult⟩
  case load =>
    rw [← State.effectiveAddress_eq] at hcell ⊢
    exact execLoad_eq_fault.2 (State.readData_of_empty hparam hcell)
  case ret => exact execRet_eq_fault.2 (State.readData_of_empty hparam hcell)
  case mult => rw [← encode_mult_rt]; exact execMult_rt_of_refuse hparam a b

/-! ### A LOAD after a STORE (R57, R61) -/

/-- Two operands address one cell exactly where their sums agree modulo 2^16 (R57, D2). -/
theorem State.effectiveAddress_eq_iff (s : State) (b c : RegNo) (o p : Nat) :
    s.effectiveAddress b o = s.effectiveAddress c p ↔
      ((s.getReg b).toNat + o) % 65536 = ((s.getReg c).toNat + p) % 65536 := by
  simp only [State.effectiveAddress_eq, ← BitVec.toNat_inj, BitVec.toNat_ofNat, Nat.reducePow]

@[simp] theorem State.advance_readData (s : State) (a : Word) : s.advance.readData a = s.readData a := rfl
@[simp] theorem State.advance_effectiveAddress (s : State) (b : RegNo) (o : Nat) :
    s.advance.effectiveAddress b o = s.effectiveAddress b o := rfl
@[simp] theorem State.writeData_effectiveAddress (s : State) (a v : Word) (b : RegNo) (o : Nat) :
    (s.writeData a v).effectiveAddress b o = s.effectiveAddress b o := rfl

/-- STORE answers one next state from every state: its cell written and the pc moved on (R199). -/
theorem execStore_eq_next {d : RegNo} {o : Nat} {b : RegNo} {s t : State} :
    execStore d o b s = .next t ↔ t = (s.writeData (s.effectiveAddress b o) (s.getReg d)).advance := by
  rw [execStore, Host.Outcome.next.injEq, eq_comm]

/-- STORE writes no flag. -/
theorem execStore_flags {d : RegNo} {o : Nat} {b : RegNo} {s t : State} (h : execStore d o b s = .next t) :
    t.flags = s.flags := by
  obtain rfl := execStore_eq_next.1 h; rfl

/-- What the read of a LOAD gives after a STORE: the word stored where the addresses agree, and else what it gave before. -/
theorem readData_after_execStore {d : RegNo} {o : Nat} {b : RegNo} {s t : State} (h : execStore d o b s = .next t)
    (c : RegNo) (p : Nat) :
    t.readData (t.effectiveAddress c p) =
      if s.effectiveAddress c p = s.effectiveAddress b o then .ok (s.getReg d)
      else s.readData (s.effectiveAddress c p) := by
  obtain rfl := execStore_eq_next.1 h
  simp only [State.advance_readData, State.advance_effectiveAddress, State.writeData_effectiveAddress,
    State.readData_writeData]

/-- A LOAD whose cell gives a word completes with that word in its register and in its flags, R0 apart (R196, R22). -/
theorem execLoad_of_readData {b : RegNo} {o : Nat} {s : State} {v : Word}
    (h : s.readData (s.effectiveAddress b o) = .ok v) (d : RegNo) :
    ∃ u, execLoad d o b s = .next u ∧ u.getReg d = (if d = r0 then 0 else v) ∧ u.flags = s.flags.withSZ v :=
  ⟨_, execLoad_eq_next.2 ⟨v, h, rfl⟩, by simp [State.getReg_setReg], rfl⟩

/-- Settles O40: by what the LOAD reads after the STORE. At the STORE's address it is the word stored; at another it is what
was read before, a word or the same fault. -/
theorem loadAfterStoreReadsTheStoredWord : Obligations.LoadAfterStoreReadsTheStoredWord := by
  unfold Obligations.LoadAfterStoreReadsTheStoredWord
  intro d e o p b c s t hstore
  have hread := readData_after_execStore hstore c p
  rw [ne_eq, ← State.effectiveAddress_eq_iff]
  refine ⟨fun hsame => ?same, fun hother => ?other⟩
  case same =>
    rw [if_pos hsame.symm] at hread
    obtain ⟨u, hload, hreg, -⟩ := execLoad_of_readData hread e
    exact ⟨u, hload, hreg⟩
  case other =>
    rw [if_neg (Ne.symm hother)] at hread
    refine ⟨fun hreadable => ?_, fun f hfault => ?_⟩
    · obtain ⟨x, hx⟩ := hreadable.readData
      obtain ⟨u, hu, hureg, huflags⟩ := execLoad_of_readData (hread.trans hx) e
      obtain ⟨v, hv, hvreg, hvflags⟩ := execLoad_of_readData hx e
      exact ⟨u, v, hu, hv, hureg.trans hvreg.symm, by rw [huflags, hvflags, execStore_flags hstore]⟩
    · exact execLoad_eq_fault.2 (hread.trans (execLoad_eq_fault.1 hfault))

end Sys2Proof.Machine
end

section
/-! PROOFS. The family 30_encoding: decoding and encoding are inverse to each other, the undefined words, and the sums of
R108. -/

namespace Sys2Proof

/-! ### What the decoder reads from a word of each format, continued from the laws (R85, R87 to R92) -/

/-- What the decoder reads from a word of format FLAGMASK. -/
theorem wordFlagMask_fields (k : BitVec 1) (v : BitVec 5) :
    (wordFlagMask k v).extractLsb' 12 4 = 3#4 ∧ (wordFlagMask k v).extractLsb' 4 4 = 6#4 ∧
      (wordFlagMask k v).extractLsb' 9 2 = 0#2 ∧ (wordFlagMask k v).extractLsb' 11 1 = k ∧
      fieldMask (wordFlagMask k v) = v := by
  revert k v; decide

/-- What the decoder reads from a word of format INCDEC; bit 7 tells it from the other words of its group. -/
theorem wordIncDec_fields (m : BitVec 1) (d : BitVec 4) {delta : Nat} (hdelta : deltaInRange delta = true) :
    (wordIncDec m d delta).extractLsb' 12 4 = 3#4 ∧ (wordIncDec m d delta).extractLsb' 7 1 = 1#1 ∧
      (wordIncDec m d delta).extractLsb' 6 1 = m ∧ fieldD (wordIncDec m d delta) = d ∧
      fieldDelta (wordIncDec m d delta) = delta := by
  simp only [deltaInRange, Bool.and_eq_true, decide_eq_true_eq] at hdelta
  have h := wordIncDec_toNat m d delta
  refine ⟨extract_eq h ?op, extract_eq h ?bit7, extract_eq h ?m, extract_eq h ?d, ?delta⟩
  case op | bit7 => rw [BitVec.toNat_ofNat]; omega
  case delta => rw [fieldDelta, toNat_extract, h]; omega
  all_goals omega

/-- What the decoder reads from a word of format MEM. -/
theorem wordMem_fields (t : BitVec 1) (d : BitVec 4) {o : Nat} (ho : o ≤ 31) (b : BitVec 4) :
    (wordMem t d o b).extractLsb' 13 3 = 0b01#2 ++ t ∧ fieldD (wordMem t d o b) = d ∧
      fieldOffset (wordMem t d o b) = o ∧ fieldB (wordMem t d o b) = b := by
  have h := wordMem_toNat t d o b
  refine ⟨extract_eq h ?op, extract_eq h ?d, ?offset, extract_eq h ?b⟩
  case op =>
    have hlow : o % 32 / 16 * 4096 + d.toNat * 256 + o % 16 * 16 + b.toNat < 8192 := by omega
    have hdiv : (wordMem t d o b).toNat / 2 ^ 13 = 2 + t.toNat := by omega
    rw [← h, hdiv, toNat_concat, BitVec.toNat_ofNat]
    omega
  case offset => rw [fieldOffset, toNat_concat, toNat_extract, toNat_extract, h]; omega
  all_goals omega

/-- What the decoder reads from a word of format BREG. -/
theorem wordBreg_fields (c : Cond) (b : BitVec 4) :
    (wordBreg c b).extractLsb' 12 4 = 1#4 ∧ (wordBreg c b).extractLsb' 8 4 = c.code ∧
      (wordBreg c b).extractLsb' 4 4 = 0#4 ∧ fieldB (wordBreg c b) = b := by
  have h := wordBreg_toNat c b
  refine ⟨extract_eq h ?op, extract_eq h ?c, extract_eq h ?zeros, extract_eq h ?b⟩
  case op | zeros => rw [BitVec.toNat_ofNat]; omega
  all_goals omega

/-- What the decoder reads from a word of format BREL. -/
theorem wordBrel_fields (c : Cond) (o : Int) :
    (wordBrel c o).extractLsb' 12 4 = 0#4 ∧ (wordBrel c o).extractLsb' 8 4 = c.code ∧
      fieldImm8 (wordBrel c o) = BitVec.ofInt 8 o := by
  have h := wordBrel_toNat c o
  refine ⟨extract_eq h ?op, extract_eq h ?c, extract_eq h ?o⟩
  case op => rw [BitVec.toNat_ofNat]; omega
  case c => omega
  case o => rw [BitVec.toNat_ofInt]; omega

/-- What the decoder reads from SWI's word. -/
theorem wordSwi_fields {i : Nat} (hi : i ≤ 15) :
    (wordSwi i).extractLsb' 12 4 = 1#4 ∧ (wordSwi i).extractLsb' 8 4 = 1#4 ∧ (wordSwi i).extractLsb' 4 4 = 0#4 ∧
      (fieldB (wordSwi i)).toNat = i := by
  have h := wordSwi_toNat i
  refine ⟨extract_eq h ?op, extract_eq h ?c, extract_eq h ?zeros, ?i⟩
  case i => rw [fieldB, toNat_extract, h]; omega
  all_goals rw [BitVec.toNat_ofNat]; omega

/-- What the decoder reads from a word of format CALLF. -/
theorem wordCall_fields {s : Nat} (hs : s ≤ 255) (b : BitVec 4) :
    (wordCall s b).extractLsb' 12 4 = 2#4 ∧ fieldFrame (wordCall s b) = s ∧ fieldB (wordCall s b) = b := by
  have h := wordCall_toNat s b
  refine ⟨extract_eq h ?op, ?s, extract_eq h ?b⟩
  case op => rw [BitVec.toNat_ofNat]; omega
  case s => rw [fieldFrame, toNat_extract, h]; omega
  case b => omega

/-! ### Conditions and the branches as two families (R211 to R213) -/

/-- The one field that is no condition (R211). -/
theorem condOf_eq_none_iff {m : BitVec 4} : condOf m = none ↔ m = 1#4 := by
  revert m; decide

@[simp] theorem encode_branchReg (c : Cond) (b : RegNo) : encode (c.branchReg b) = wordBreg c b := by
  cases c <;> rfl

@[simp] theorem encode_branchRel (c : Cond) (o : Int) : encode (c.branchRel o) = wordBrel c o := by
  cases c <;> rfl

@[simp] theorem wellFormed_branchReg (c : Cond) (b : RegNo) : (c.branchReg b).wellFormed = true := by
  cases c <;> rfl

@[simp] theorem wellFormed_branchRel (c : Cond) (o : Int) : (c.branchRel o).wellFormed = relOffsetInRange o := by
  cases c <;> rfl

/-- The signed offset that a relative branch holds is read back (R93). -/
theorem toInt_ofInt_of_inRange {o : Int} (h : relOffsetInRange o = true) : (BitVec.ofInt 8 o).toInt = o := by
  simp only [relOffsetInRange, Bool.and_eq_true, decide_eq_true_eq] at h
  exact BitVec.toInt_ofInt_eq_self (by decide) h.1 (by omega)

/-- Every signed byte is an offset of a relative branch (R93). -/
theorem relOffsetInRange_toInt (v : BitVec 8) : relOffsetInRange v.toInt = true := by
  have hlo := v.le_toInt
  have hhi := v.toInt_lt
  simp only [relOffsetInRange, Bool.and_eq_true, decide_eq_true_eq]
  omega

/-! ### Decoding a word of the encoder -/

theorem decode_wordBreg (c : Cond) (b : RegNo) : decode (wordBreg c b) = .ok (c.branchReg b) := by
  simp only [decode, decodeBranchReg, wordBreg_fields, condOf_code, if_true]

theorem decode_wordBrel (c : Cond) {o : Int} (h : relOffsetInRange o = true) :
    decode (wordBrel c o) = .ok (c.branchRel o) := by
  simp only [decode, decodeBranchRel, wordBrel_fields, condOf_code, toInt_ofInt_of_inRange h]

/-- A group word with bit 7 set is INC or DEC (R101). -/
theorem decodeMinor_of_bit7 {w : Word} (hbit7 : w.extractLsb' 7 1 = 1#1) : decodeMinor w =
    .ok (if w.extractLsb' 6 1 = 0#1 then .inc (fieldD w) (fieldDelta w) else .dec (fieldD w) (fieldDelta w)) := by
  unfold decodeMinor
  split
  case h_9 => split_ifs <;> rfl
  all_goals
    rename_i hminor
    simp only [← BitVec.toNat_inj, toNat_extract, BitVec.toNat_ofNat] at hbit7 hminor
    omega

/-- The opcode field as the three bits that a word of format MEM fixes and the offset's top bit (R88). -/
theorem opcode_of_top3 {w : Word} {n : Nat} (h : (w.extractLsb' 13 3).toNat = n) :
    w.extractLsb' 12 4 = BitVec.ofNat 4 (2 * n) ∨ w.extractLsb' 12 4 = BitVec.ofNat 4 (2 * n + 1) := by
  rw [toNat_extract] at h
  simp only [← BitVec.toNat_inj, toNat_extract, BitVec.toNat_ofNat]
  omega

/-- The rows of the decode tree that hold the words of format MEM (R100). -/
theorem decode_of_top3 {w : Word} {t : BitVec 1} (h : w.extractLsb' 13 3 = 0b01#2 ++ t) : decode w =
    .ok (if t = 0#1 then .load (fieldD w) (fieldOffset w) (fieldB w) else .store (fieldD w) (fieldOffset w) (fieldB w)) := by
  obtain rfl | rfl := t.eq_zero_or_eq_one <;> obtain hop | hop := opcode_of_top3 (congrArg BitVec.toNat h) <;>
    simp [decode, hop]

theorem decode_wordMem (t : BitVec 1) (d : RegNo) {o : Nat} (h : offsetInRange o = true) (b : RegNo) :
    decode (wordMem t d o b) = .ok (if t = 0#1 then .load d o b else .store d o b) := by
  obtain ⟨hop, hd, ho, hb⟩ := wordMem_fields t d (of_decide_eq_true h) b
  rw [decode_of_top3 hop, hd, ho, hb]

theorem decode_wordIncDec (m : BitVec 1) (d : RegNo) {delta : Nat} (h : deltaInRange delta = true) :
    decode (wordIncDec m d delta) = .ok (if m = 0#1 then .inc d delta else .dec d delta) := by
  obtain ⟨hop, hbit7, hm, hd, hdelta⟩ := wordIncDec_fields m d h
  simp only [decode, hop, decodeMinor_of_bit7 hbit7, hm, hd, hdelta]

/-- The decoder reads back the word of every well-formed instruction, format by format. -/
theorem decode_encode {i : Instr} (h : i.WellFormed) : decode (encode i) = .ok i := by
  cases i with
  | setlo d v | sethi d v => simp [encode, decode, wordImm8_fields]
  | and d a b | or d a b | add d a b | sub d a b | mult d a b | xor d a b => simp [encode, decode, wordRRR_fields]
  | lsl d b | lsr d b | lsl8 d b | lsr8 d b | asl d b | asr d b => simp [encode, decode, decodeMinor, wordShift_fields]
  | setf v | clrf v => simp [encode, decode, decodeMinor, wordFlagMask_fields]
  | savef d | rstrf d => simp [encode, decode, decodeMinor, wordFlagReg_fields]
  | inc d delta | dec d delta => exact decode_wordIncDec _ d h
  | load d o b | store d o b => exact decode_wordMem _ d h b
  | call s b => simp [encode, decode, wordCall_fields (of_decide_eq_true h)]
  | swi i => simp [encode, decode, decodeBranchReg, condOf, decodeSpecial, wordSwi_fields (of_decide_eq_true h)]
  | rti | ret => rfl
  | br b | bl b | bge b | ble b | bg b | bule b | bug b | bz b | bnz b | bc b | bnc b | bs b | bns b | bv b | bnv b =>
    exact decode_wordBreg _ b
  | brr o | blr o | bger o | bler o | bgr o | buler o | bugr o | bzr o | bnzr o | bcr o | bncr o | bsr o | bnsr o
  | bvr o | bnvr o => exact decode_wordBrel _ h

/-! ### The word of the instruction that a word decodes to

Each format's word is known by its fields: the bits that the format fixes are what the decoder has tested (R82 to R92). -/

/-- An extraction that is known fixes those bits of the number. -/
theorem bits_of_extract {x : Word} {lo len : Nat} {y : BitVec len} (h : x.extractLsb' lo len = y) :
    x.toNat / 2 ^ lo % 2 ^ len = y.toNat := by
  rw [← toNat_extract, h]

theorem wordRRR_of_fields {w : Word} {op : BitVec 4} (hop : w.extractLsb' 12 4 = op) :
    wordRRR op (fieldD w) (fieldA w) (fieldB w) = w := by
  have := bits_of_extract hop
  apply BitVec.eq_of_toNat_eq
  simp only [wordRRR_toNat, fieldD, fieldA, fieldB, toNat_extract]
  omega

theorem wordImm8_of_fields {w : Word} {op : BitVec 4} (hop : w.extractLsb' 12 4 = op) :
    wordImm8 op (fieldD w) (fieldImm8 w) = w := by
  have := bits_of_extract hop
  apply BitVec.eq_of_toNat_eq
  simp only [wordImm8_toNat, fieldD, fieldImm8, toNat_extract]
  omega

theorem wordShift_of_fields {w : Word} {o : BitVec 4} (hop : w.extractLsb' 12 4 = 3#4) (ho : w.extractLsb' 4 4 = o) :
    wordShift o (fieldD w) (fieldB w) = w := by
  have : w.toNat / 2 ^ 12 % 2 ^ 4 = 3 := bits_of_extract hop
  have := bits_of_extract ho
  apply BitVec.eq_of_toNat_eq
  simp only [wordShift_toNat, fieldD, fieldB, toNat_extract]
  omega

theorem wordFlagMask_of_fields {w : Word} {k : BitVec 1} (hop : w.extractLsb' 12 4 = 3#4) (ho : w.extractLsb' 4 4 = 6#4)
    (hzeros : w.extractLsb' 9 2 = 0#2) (hk : w.extractLsb' 11 1 = k) : wordFlagMask k (fieldMask w) = w := by
  have : w.toNat / 2 ^ 12 % 2 ^ 4 = 3 := bits_of_extract hop
  have : w.toNat / 2 ^ 4 % 2 ^ 4 = 6 := bits_of_extract ho
  have : w.toNat / 2 ^ 9 % 2 ^ 2 = 0 := bits_of_extract hzeros
  have := bits_of_extract hk
  apply BitVec.eq_of_toNat_eq
  simp only [wordFlagMask_toNat, fieldMask, toNat_concat, toNat_extract]
  omega

theorem wordFlagReg_of_fields {w : Word} {r : BitVec 1} (hop : w.extractLsb' 12 4 = 3#4) (ho : w.extractLsb' 4 4 = 7#4)
    (hzeros : w.extractLsb' 0 3 = 0#3) (hr : w.extractLsb' 3 1 = r) : wordFlagReg r (fieldD w) = w := by
  have : w.toNat / 2 ^ 12 % 2 ^ 4 = 3 := bits_of_extract hop
  have : w.toNat / 2 ^ 4 % 2 ^ 4 = 7 := bits_of_extract ho
  have : w.toNat / 2 ^ 0 % 2 ^ 3 = 0 := bits_of_extract hzeros
  have := bits_of_extract hr
  apply BitVec.eq_of_toNat_eq
  simp only [wordFlagReg_toNat, fieldD, toNat_extract]
  omega

theorem wordIncDec_of_fields {w : Word} {m : BitVec 1} (hop : w.extractLsb' 12 4 = 3#4)
    (hbit7 : w.extractLsb' 7 1 = 1#1) (hm : w.extractLsb' 6 1 = m) :
    wordIncDec m (fieldD w) (fieldDelta w) = w := by
  have : w.toNat / 2 ^ 12 % 2 ^ 4 = 3 := bits_of_extract hop
  have : w.toNat / 2 ^ 7 % 2 ^ 1 = 1 := bits_of_extract hbit7
  have := bits_of_extract hm
  apply BitVec.eq_of_toNat_eq
  simp only [wordIncDec_toNat, fieldD, fieldDelta, toNat_extract]
  omega

/-- The two parts of a word's offset (R88). -/
theorem fieldOffset_bits (w : Word) :
    fieldOffset w % 32 / 16 = w.toNat / 2 ^ 12 % 2 ∧ fieldOffset w % 16 = w.toNat / 2 ^ 4 % 16 := by
  simp only [fieldOffset, toNat_concat, toNat_extract]
  omega

theorem wordMem_of_fields {w : Word} {t : BitVec 1} (hop : w.extractLsb' 13 3 = 0b01#2 ++ t) :
    wordMem t (fieldD w) (fieldOffset w) (fieldB w) = w := by
  obtain ⟨htop, hlow⟩ := fieldOffset_bits w
  have hbits := bits_of_extract hop
  rw [toNat_concat, BitVec.toNat_ofNat] at hbits
  have hw : w.toNat / 2 ^ 13 = 2 + t.toNat := by omega
  apply BitVec.eq_of_toNat_eq
  simp only [wordMem_toNat, htop, hlow, fieldD, fieldB, toNat_extract]
  omega

theorem wordBreg_of_fields {w : Word} {c : Cond} (hop : w.extractLsb' 12 4 = 1#4)
    (hc : condOf (w.extractLsb' 8 4) = some c) (hzeros : w.extractLsb' 4 4 = 0#4) : wordBreg c (fieldB w) = w := by
  have : w.toNat / 2 ^ 12 % 2 ^ 4 = 1 := bits_of_extract hop
  have : w.toNat / 2 ^ 4 % 2 ^ 4 = 0 := bits_of_extract hzeros
  have := bits_of_extract (code_condOf hc).symm
  apply BitVec.eq_of_toNat_eq
  simp only [wordBreg_toNat, fieldB, toNat_extract]
  omega

theorem wordBrel_of_fields {w : Word} {c : Cond} (hop : w.extractLsb' 12 4 = 0#4)
    (hc : condOf (w.extractLsb' 8 4) = some c) : wordBrel c (fieldImm8 w).toInt = w := by
  have : w.toNat / 2 ^ 12 % 2 ^ 4 = 0 := bits_of_extract hop
  have := bits_of_extract (code_condOf hc).symm
  apply BitVec.eq_of_toNat_eq
  simp only [wordBrel, BitVec.ofInt_toInt, toNat_concat, fieldImm8, toNat_extract, BitVec.toNat_ofNat]
  omega

theorem wordCall_of_fields {w : Word} (hop : w.extractLsb' 12 4 = 2#4) : wordCall (fieldFrame w) (fieldB w) = w := by
  have : w.toNat / 2 ^ 12 % 2 ^ 4 = 2 := bits_of_extract hop
  apply BitVec.eq_of_toNat_eq
  simp only [wordCall_toNat, fieldFrame, fieldB, toNat_extract]
  omega

theorem wordSwi_of_fields {w : Word} (hop : w.extractLsb' 12 4 = 1#4) (hc : w.extractLsb' 8 4 = 1#4)
    (hzeros : w.extractLsb' 4 4 = 0#4) : wordSwi (fieldB w).toNat = w := by
  have : w.toNat / 2 ^ 12 % 2 ^ 4 = 1 := bits_of_extract hop
  have : w.toNat / 2 ^ 8 % 2 ^ 4 = 1 := bits_of_extract hc
  have : w.toNat / 2 ^ 4 % 2 ^ 4 = 0 := bits_of_extract hzeros
  apply BitVec.eq_of_toNat_eq
  simp only [wordSwi_toNat, fieldB, toNat_extract]
  omega

/-- The words of the special space are its prefix and their low byte (R91). -/
theorem special_of_imm8 {w : Word} {v : BitVec 8} (hop : w.extractLsb' 12 4 = 1#4) (hc : w.extractLsb' 8 4 = 1#4)
    (hv : w.extractLsb' 0 8 = v) : 0x11#8 ++ v = w := by
  have : w.toNat / 2 ^ 12 % 2 ^ 4 = 1 := bits_of_extract hop
  have : w.toNat / 2 ^ 8 % 2 ^ 4 = 1 := bits_of_extract hc
  have := bits_of_extract hv
  apply BitVec.eq_of_toNat_eq
  simp only [toNat_concat, BitVec.toNat_ofNat]
  omega

/-! Every number that the decoder reads is in its operand's range (R93). -/

theorem deltaInRange_fieldDelta (w : Word) : deltaInRange (fieldDelta w) = true := by
  have := (w.extractLsb' 0 6).isLt
  rw [deltaInRange, fieldDelta, Bool.and_eq_true]
  exact ⟨decide_eq_true (by omega), decide_eq_true (by omega)⟩

theorem offsetInRange_fieldOffset (w : Word) : offsetInRange (fieldOffset w) = true :=
  decide_eq_true (Nat.le_of_lt_succ (BitVec.isLt _))

theorem frameSizeInRange_fieldFrame (w : Word) : frameSizeInRange (fieldFrame w) = true :=
  decide_eq_true (Nat.le_of_lt_succ (BitVec.isLt _))

/-- The top bits of an opcode field that is known (R88). -/
theorem top3_of_opcode {w : Word} {op : BitVec 4} (hop : w.extractLsb' 12 4 = op) :
    w.extractLsb' 13 3 = op.extractLsb' 1 3 := by
  rw [← hop]
  apply BitVec.eq_of_toNat_eq
  simp only [toNat_extract]
  omega

/-- The instruction is well-formed and the word is its word. -/
def Instr.HasWord (i : Instr) (w : Word) : Prop := i.WellFormed ∧ encode i = w

theorem decodeBranchRel_hasWord {w : Word} {i : Instr} (hop : w.extractLsb' 12 4 = 0#4)
    (h : decodeBranchRel w = .ok i) : i.HasWord w := by
  unfold decodeBranchRel at h
  split at h <;> cases h
  next c hc =>
    exact ⟨by rw [Instr.WellFormed, wellFormed_branchRel, relOffsetInRange_toInt],
      by rw [encode_branchRel, wordBrel_of_fields hop hc]⟩

/-- The special space is the register-mode words whose field c names no condition (R91, R102). -/
theorem decodeSpecial_hasWord {w : Word} {i : Instr} (hop : w.extractLsb' 12 4 = 1#4) (hc : w.extractLsb' 8 4 = 1#4)
    (h : decodeSpecial w = .ok i) : i.HasWord w := by
  unfold decodeSpecial at h
  split_ifs at h with hzeros hrti hret <;> cases h
  · exact ⟨decide_eq_true (Nat.le_of_lt_succ (BitVec.isLt _)), wordSwi_of_fields hop hc hzeros⟩
  · exact ⟨rfl, special_of_imm8 hop hc hrti⟩
  · exact ⟨rfl, special_of_imm8 hop hc hret⟩

theorem decodeBranchReg_hasWord {w : Word} {i : Instr} (hop : w.extractLsb' 12 4 = 1#4)
    (h : decodeBranchReg w = .ok i) : i.HasWord w := by
  unfold decodeBranchReg at h
  split at h
  case h_1 hc => exact decodeSpecial_hasWord hop (condOf_eq_none_iff.1 hc) h
  case h_2 c hc =>
    split at h <;> cases h
    next hzeros => exact ⟨wellFormed_branchReg _ _, by rw [encode_branchReg, wordBreg_of_fields hop hc hzeros]⟩

theorem decodeMinor_hasWord {w : Word} {i : Instr} (hop : w.extractLsb' 12 4 = 3#4)
    (h : decodeMinor w = .ok i) : i.HasWord w := by
  unfold decodeMinor at h
  split at h
  case h_1 ho | h_2 ho | h_3 ho | h_4 ho | h_5 ho | h_6 ho => cases h; exact ⟨rfl, wordShift_of_fields hop ho⟩
  case h_7 ho =>
    split_ifs at h with hzeros hk <;> cases h
    · exact ⟨rfl, wordFlagMask_of_fields hop ho (not_not.1 hzeros) hk⟩
    · exact ⟨rfl, wordFlagMask_of_fields hop ho (not_not.1 hzeros) ((BitVec.eq_zero_or_eq_one _).resolve_left hk)⟩
  case h_8 ho =>
    split_ifs at h with hzeros hr <;> cases h
    · exact ⟨rfl, wordFlagReg_of_fields hop ho (not_not.1 hzeros) hr⟩
    · exact ⟨rfl, wordFlagReg_of_fields hop ho (not_not.1 hzeros) ((BitVec.eq_zero_or_eq_one _).resolve_left hr)⟩
  case h_9 h0 h1 h2 h3 h4 h5 h6 h7 =>
    have hbit7 : w.extractLsb' 7 1 = 1#1 := by
      simp only [← BitVec.toNat_inj, toNat_extract, BitVec.toNat_ofNat, imp_false] at *
      omega
    split_ifs at h with hm <;> cases h
    · exact ⟨deltaInRange_fieldDelta w, wordIncDec_of_fields hop hbit7 hm⟩
    · exact ⟨deltaInRange_fieldDelta w, wordIncDec_of_fields hop hbit7 ((BitVec.eq_zero_or_eq_one _).resolve_left hm)⟩

/-- The decoder gives only instructions whose word it was given, row by row of its tree (R100). -/
theorem decode_hasWord {w : Word} {i : Instr} (h : decode w = .ok i) : i.HasWord w := by
  unfold decode at h
  split at h
  case h_1 hop => exact decodeBranchRel_hasWord hop h
  case h_2 hop => exact decodeBranchReg_hasWord hop h
  case h_3 hop => cases h; exact ⟨frameSizeInRange_fieldFrame w, wordCall_of_fields hop⟩
  case h_4 hop => exact decodeMinor_hasWord hop h
  case h_5 hop | h_6 hop | h_7 hop | h_8 hop =>
    cases h
    exact ⟨offsetInRange_fieldOffset w, wordMem_of_fields (top3_of_opcode hop)⟩
  case h_9 hop | h_10 hop | h_11 hop | h_12 hop | h_13 hop | h_14 hop => cases h; exact ⟨rfl, wordRRR_of_fields hop⟩
  case h_15 hop => cases h; exact ⟨rfl, wordImm8_of_fields hop⟩
  case h_16 =>
    have hop : w.extractLsb' 12 4 = 0xF#4 := by
      simp only [← BitVec.toNat_inj, toNat_extract, BitVec.toNat_ofNat, imp_false] at *
      omega
    cases h
    exact ⟨rfl, wordImm8_of_fields hop⟩

/-- Decoding reads exactly the well-formed instruction whose word it is given (R100, R108). -/
theorem decode_eq_ok_iff {w : Word} {i : Instr} : decode w = .ok i ↔ i.HasWord w :=
  ⟨decode_hasWord, fun ⟨hwf, hw⟩ => hw ▸ decode_encode hwf⟩

/-- Settles O1: format by format, from what the decoder reads in a word of the format. -/
theorem decodeOfEncodeIsIdentity : Obligations.DecodeOfEncodeIsIdentity :=
  fun _ hwf => decode_eq_ok_iff.2 ⟨hwf, rfl⟩

/-- Settles O2: row by row of the decode tree, each format's word put together again from its fields. -/
theorem encodeOfDecodeIsIdentity : Obligations.EncodeOfDecodeIsIdentity :=
  fun _ _ h => decode_eq_ok_iff.1 h

/-- Settles O5: each word by evaluation of the decoder. -/
theorem printedWordsDecode : Obligations.PrintedWordsDecode :=
  ⟨rfl, rfl, rfl, rfl, rfl, rfl, rfl, rfl, rfl, rfl, rfl, rfl⟩

/-! ### The undefined words (R103, R104, D13) -/

/-- The decoder's answer is that the word is no instruction. -/
def Undefined (r : Except DecodeError Instr) : Prop := ∃ e, r = .error e

@[simp] theorem not_undefined_ok (i : Instr) : ¬ Undefined (.ok i) := fun ⟨_, h⟩ => nomatch h

@[simp] theorem undefined_error (e : DecodeError) : Undefined (.error e) := ⟨e, rfl⟩

/-- A relative branch is undefined where its field names no condition (R103). -/
theorem undefined_decodeBranchRel_iff (w : Word) : Undefined (decodeBranchRel w) ↔ w.extractLsb' 8 4 = 1#4 := by
  rw [decodeBranchRel, ← condOf_eq_none_iff]
  split
  case h_1 hc => simp [hc]
  case h_2 c hc => simp [hc]

/-- The special space has a meaning up to RETURN's word, 0x1111 (R103). -/
theorem undefined_decodeSpecial_iff (w : Word) : Undefined (decodeSpecial w) ↔ 0x11 < (w.extractLsb' 0 8).toNat := by
  have hhigh : w.extractLsb' 4 4 = 0#4 ↔ (w.extractLsb' 0 8).toNat < 16 := by
    simp only [← BitVec.toNat_inj, toNat_extract, BitVec.toNat_ofNat]
    omega
  unfold decodeSpecial
  split_ifs with hzeros hrti hret
  · have := hhigh.1 hzeros
    simp only [not_undefined_ok, false_iff]
    omega
  · simp [hrti]
  · simp [hret]
  · have hge := mt hhigh.2 hzeros
    simp only [← BitVec.toNat_inj, BitVec.toNat_ofNat] at hrti hret
    simp only [undefined_error, true_iff]
    omega

/-- A register-mode branch is undefined by its bits 7:4, and where its field names no condition as the special space
is (R103, R104). -/
theorem undefined_decodeBranchReg_iff (w : Word) : Undefined (decodeBranchReg w) ↔
    (w.extractLsb' 8 4 = 1#4 ∧ 0x11 < (w.extractLsb' 0 8).toNat) ∨
      (w.extractLsb' 8 4 ≠ 1#4 ∧ w.extractLsb' 4 4 ≠ 0#4) := by
  rw [decodeBranchReg, ne_eq, ← condOf_eq_none_iff]
  split
  case h_1 hc => simp [hc, undefined_decodeSpecial_iff]
  case h_2 c hc => split <;> simp [*]

/-- In the group 0011 only the flag operations have bits drawn as 0 (R104). -/
theorem undefined_decodeMinor_iff (w : Word) : Undefined (decodeMinor w) ↔
    (w.extractLsb' 4 4 = 6#4 ∧ w.extractLsb' 9 2 ≠ 0#2) ∨ (w.extractLsb' 4 4 = 7#4 ∧ w.extractLsb' 0 3 ≠ 0#3) := by
  unfold decodeMinor
  split
  case h_7 ho | h_8 ho => split_ifs <;> simp [*]
  case h_9 h6 h7 => split_ifs <;> simp [eq_false h6, eq_false h7]
  all_goals rename_i ho; simp [ho]

/-- The decoder refuses a word in three of the rows of its tree only (R100). -/
theorem undefined_decode_iff (w : Word) : Undefined (decode w) ↔
    (w.extractLsb' 12 4 = 0#4 ∧ Undefined (decodeBranchRel w)) ∨
      (w.extractLsb' 12 4 = 1#4 ∧ Undefined (decodeBranchReg w)) ∨
      (w.extractLsb' 12 4 = 3#4 ∧ Undefined (decodeMinor w)) := by
  unfold decode
  split
  case h_16 h0 h1 _ h3 _ _ _ _ _ _ _ _ _ _ _ => simp [eq_false h0, eq_false h1, eq_false h3]
  all_goals rename_i hop; simp [hop]

/-- The high byte as the opcode field and the field below it. -/
theorem high8_eq_iff {w : Word} {op c : BitVec 4} :
    w.extractLsb' 8 8 = op ++ c ↔ w.extractLsb' 12 4 = op ∧ w.extractLsb' 8 4 = c := by
  simp only [← BitVec.toNat_inj, toNat_concat, toNat_extract]
  omega

/-- Settles O3: the three rows of the decode tree that refuse words, each by its own test. -/
theorem undefinedWordsAreThoseListed : Obligations.UndefinedWordsAreThoseListed := by
  unfold Obligations.UndefinedWordsAreThoseListed
  intro w
  have hrel : w.extractLsb' 8 8 = 0x01#8 ↔ w.extractLsb' 12 4 = 0#4 ∧ w.extractLsb' 8 4 = 1#4 :=
    high8_eq_iff (op := 0#4) (c := 1#4)
  have hspecial : w.extractLsb' 8 8 = 0x11#8 ↔ w.extractLsb' 12 4 = 1#4 ∧ w.extractLsb' 8 4 = 1#4 :=
    high8_eq_iff (op := 1#4) (c := 1#4)
  rw [hrel, hspecial]
  refine (undefined_decode_iff w).trans ?_
  rw [undefined_decodeBranchRel_iff, undefined_decodeBranchReg_iff, undefined_decodeMinor_iff]
  simp only [and_or_left, or_assoc, and_assoc]

/-! ### The sums of the table (R108) -/

/-- The number of a shift's word, its opcode bits together. -/
theorem wordShift_sum (o d b : BitVec 4) :
    (wordShift o d b).toNat = 0x3000 + o.toNat * 2 ^ 4 + d.toNat * 2 ^ 8 + b.toNat := by
  rw [wordShift_toNat]
  omega

/-- The number of a relative branch's word over the integers, its offset taken modulo 256. -/
theorem wordBrel_sum (c : Cond) (o : Int) : ((wordBrel c o).toNat : Int) = (c.code.toNat : Int) * 2 ^ 8 + o % 256 := by
  rw [wordBrel_toNat]
  omega

/-- Settles O4: the number of a word of each format, at each instruction's opcode and operands. -/
theorem encodedWordsAreTheSumsOfTheTable : Obligations.EncodedWordsAreTheSumsOfTheTable := by
  unfold Obligations.EncodedWordsAreTheSumsOfTheTable
  refine ⟨fun d v => ⟨wordImm8_toNat _ d v, wordImm8_toNat _ d v⟩, fun d a b => ?rrr, fun d b => ?shift,
    fun v => ⟨wordFlagMask_toNat _ v, wordFlagMask_toNat _ v⟩, fun d => ?flagReg, fun d delta h1 h64 => ?incDec,
    fun d o b ho => ?mem, fun b => ?breg, fun o hlo hhi => ?brel, fun i hi => ?swi, rfl, rfl, fun n b hn => ?call⟩
  case rrr => intro p hp; fin_cases hp <;> exact wordRRR_toNat _ d a b
  case shift => intro p hp; fin_cases hp <;> exact wordShift_sum _ d b
  case flagReg => simp only [encode, wordFlagReg_toNat, BitVec.toNat_ofNat]; omega
  case incDec => simp only [encode, wordIncDec_toNat, BitVec.toNat_ofNat]; omega
  case mem => simp only [encode, wordMem_toNat, BitVec.toNat_ofNat]; omega
  case breg => intro p hp; fin_cases hp <;> exact wordBreg_toNat _ b
  case brel => intro p hp; fin_cases hp <;> exact wordBrel_sum _ o
  case swi => rw [encode, wordSwi_toNat]; omega
  case call => rw [encode, wordCall_toNat]; omega

end Sys2Proof
end

section
/-! PROOFS. The family 40_setlo_sethi: SETLO, SETHI, and the pair of them that loads a constant. -/

namespace Sys2Proof.Machine

/-! ### The immediates as numbers (R93) -/

theorem signExtend8_toInt (v : BitVec 8) : (signExtend8 v).toInt = v.toInt :=
  BitVec.toInt_signExtend_of_le (by decide)

theorem replaceHigh_toNat (v : BitVec 8) (old : Word) : (replaceHigh v old).toNat = v.toNat * 256 + old.toNat % 256 := by
  simp only [replaceHigh, toNat_concat, toNat_extract, Nat.pow_zero, Nat.div_one, Nat.reducePow]

/-- The sign extension keeps the byte as its low byte. -/
theorem signExtend8_toNat_mod (v : BitVec 8) : (signExtend8 v).toNat % 256 = v.toNat := by
  have hint := signExtend8_toInt v
  rw [toInt_eq_ite, BitVec.toInt_eq_toNat_cond] at hint
  have := v.isLt
  split at hint <;> split at hint <;> omega

/-- The high byte put over the sign extension of the low byte gives back the word: SETHI overwrites the sign copies (R123). -/
theorem replaceHigh_signExtend8 (l : Word) : replaceHigh (l.extractLsb' 8 8) (signExtend8 (l.extractLsb' 0 8)) = l := by
  apply BitVec.eq_of_toNat_eq
  rw [replaceHigh_toNat, signExtend8_toNat_mod, toNat_extract, toNat_extract]
  omega

/-! ### One register written, and nothing else -/

section
variable (s : State) (d : RegNo) (v : Word)

/-- What the written register reads: R0 drops the write (R22). -/
theorem State.getReg_setReg_eq_ite : (s.setReg d v).getReg d = if d = r0 then 0 else v := by
  rw [State.getReg_setReg, if_pos rfl]

theorem State.sameRegsBut_setReg : SameRegsBut [d] s (s.setReg d v) :=
  fun _ hr => State.getReg_setReg_of_ne s (mt List.mem_singleton.2 hr) v

theorem State.sameData_setReg : SameData s (s.setReg d v) :=
  fun a => congrArg (fun m => Memory.read m a) (s.setReg_dm d v)

theorem State.sameCode_setReg : SameCode s (s.setReg d v) :=
  ⟨s.setReg_im d v, s.setReg_faultMark d v, s.setReg_params d v⟩

/-- An instruction that writes one register and moves on only falls through (R27). -/
theorem State.onlyAdvances_setReg_advance : OnlyAdvances s (s.setReg d v).advance :=
  ⟨by simp, s.sameData_setReg d v, s.sameCode_setReg d v, by simp⟩

/-- The later of two writes to a register stands. -/
theorem State.setReg_setReg (w : Word) : (s.setReg d v).setReg d w = s.setReg d w := by
  unfold State.setReg
  split <;> simp

theorem State.advance_setReg : s.advance.setReg d v = (s.setReg d v).advance := by
  unfold State.setReg
  split <;> rfl

end

/-! ### The two instructions -/

theorem exec_setlo (d : RegNo) (v : BitVec 8) (s : State) :
    exec (.setlo d v) s = .next (s.setReg d (signExtend8 v)).advance := rfl

theorem exec_sethi (d : RegNo) (v : BitVec 8) (s : State) :
    exec (.sethi d v) s = .next (s.setReg d (replaceHigh v (s.getReg d))).advance := rfl

/-- Settles O20: one register is written, with the value of the immediate as a signed number. -/
theorem setloLoadsTheSignExtendedByte : Obligations.SetloLoadsTheSignExtendedByte := by
  unfold Obligations.SetloLoadsTheSignExtendedByte
  intro d v s
  refine ⟨rfl, _, exec_setlo d v s, fun hd => ?value, s.sameRegsBut_setReg d _, State.getReg_zero _, s.setReg_flags d _,
    s.onlyAdvances_setReg_advance d _⟩
  case value => rw [State.advance_getReg, State.getReg_setReg_self s hd, signExtend8_toInt]

/-- Settles O21: one register is written, with its own low byte under the immediate. -/
theorem sethiReplacesTheHighByte : Obligations.SethiReplacesTheHighByte := by
  unfold Obligations.SethiReplacesTheHighByte
  intro d v s
  refine ⟨rfl, _, exec_sethi d v s, fun hd => ?value, s.sameRegsBut_setReg d _, State.getReg_zero _, s.setReg_flags d _,
    s.onlyAdvances_setReg_advance d _⟩
  case value => rw [State.advance_getReg, State.getReg_setReg_self s hd, replaceHigh_toNat]

/-! ### The pair (R123, R280) -/

/-- SETHI after SETLO writes the constant: the byte that SETHI keeps is the one SETLO wrote, and R0 drops both writes. -/
theorem setReg_replaceHigh_after_signExtend8 (s : State) (d : RegNo) (l : Word) :
    (s.setReg d (signExtend8 (l.extractLsb' 0 8))).setReg d (replaceHigh (l.extractLsb' 8 8)
      ((s.setReg d (signExtend8 (l.extractLsb' 0 8))).getReg d)) = s.setReg d l := by
  rw [State.setReg_setReg]
  by_cases hd : d = r0
  · subst hd; rw [State.setReg_zero, State.setReg_zero]
  · rw [State.getReg_setReg_self s hd, replaceHigh_signExtend8]

/-- SET does what one write of the constant and two steps of the pc do. -/
theorem execAll_setSequence (d : RegNo) (l : Word) (s : State) :
    execAll (setSequence d l) s = .next (s.setReg d l).advance.advance := by
  simp only [setSequence, execAll, exec_setlo, exec_sethi, State.advance_setReg, State.advance_getReg,
    setReg_replaceHigh_after_signExtend8]

/-- Settles O22: the pair is one write of the constant. -/
theorem setPairLoadsAnyConstant : Obligations.SetPairLoadsAnyConstant := by
  unfold Obligations.SetPairLoadsAnyConstant
  intro d l s
  refine ⟨_, execAll_setSequence d l s, s.getReg_setReg_eq_ite d l, s.sameRegsBut_setReg d l, s.setReg_flags d l, ?pc,
    s.sameData_setReg d l, s.sameCode_setReg d l, s.setReg_draws d l⟩
  case pc => rw [State.advance_pc, State.advance_pc, State.setReg_pc, BitVec.add_assoc]; rfl

end Sys2Proof.Machine
end

section
/-! PROOFS. The family 41_three_address: the logic operations, the adder operations and their double-precision pairs, and
MULT. -/

namespace Sys2Proof.Machine

/-! ### One register and the flags written, and nothing else (R131) -/

section
variable (s : State) (d : RegNo) (v : Word) (f : Flags)

theorem State.sameRegsBut_setReg_setFlags_advance : SameRegsBut [d] s ((s.setReg d v).setFlags f).advance :=
  s.sameRegsBut_setReg d v

theorem State.onlyAdvances_setReg_setFlags_advance : OnlyAdvances s ((s.setReg d v).setFlags f).advance :=
  s.onlyAdvances_setReg_advance d v

end

/-! ### AND, OR, XOR (R134, R135, R139) -/

/-- What the end of AND, OR and XOR leaves, R0 as the destination included (R131, D7, D22). -/
theorem logicResult_leaves {d : RegNo} {r : Word} {s t : State} (h : logicResult d r s = .next t) :
    t.getReg d = (if d = r0 then 0 else r) ∧ SameRegsBut [d] s t ∧ (t.flags.z = true ↔ r = 0) ∧
      t.flags.s = r.getLsbD 15 ∧ t.flags.v = s.flags.v ∧ t.flags.c = s.flags.c ∧ t.flags.cb = s.flags.cb ∧
      OnlyAdvances s t := by
  obtain rfl := logicResult_next h
  exact ⟨s.getReg_setReg_eq_ite d r, s.sameRegsBut_setReg_setFlags_advance d r _, beq_iff_eq,
    BitVec.msb_eq_getLsbD_last r, rfl, rfl, rfl, s.onlyAdvances_setReg_setFlags_advance d r _⟩

/-- Settles O23: the three operations have one end and differ in the word they compute, known by its bits. -/
theorem logicOperationsAreBitwise : Obligations.LogicOperationsAreBitwise := by
  unfold Obligations.LogicOperationsAreBitwise
  intro d a b s
  simp only [List.forall_mem_cons, List.not_mem_nil, false_imp_iff, implies_true, and_true]
  refine ⟨?and, ?or, ?xor⟩
  case and => exact ⟨rfl, _, _, rfl, fun _ _ => BitVec.getLsbD_and, logicResult_leaves rfl⟩
  case or => exact ⟨rfl, _, _, rfl, fun _ _ => BitVec.getLsbD_or, logicResult_leaves rfl⟩
  case xor => exact ⟨rfl, _, _, rfl, fun _ _ => BitVec.getLsbD_xor, logicResult_leaves rfl⟩

/-! ### The adder's output as numbers (R17), for a sum and for a difference (R132) -/

/-- The complement as a signed number. -/
theorem complement_toInt (b : Word) : (~~~b).toInt = -b.toInt - 1 := by
  have := b.isLt
  rw [toInt_eq_ite, toInt_eq_ite, BitVec.toNat_not]
  split <;> split <;> omega

section
variable (a b : Word) (k : Bool)

theorem addWithCarry_carry_iff : (addWithCarry a b k).carry = true ↔ 65536 ≤ a.toNat + b.toNat + k.toNat := by
  rw [addWithCarry_carry, decide_eq_true_iff]

theorem addWithCarry_overflow_iff : (addWithCarry a b k).overflow = true ↔
    a.toInt + b.toInt + k.toNat < -32768 ∨ 32767 < a.toInt + b.toInt + k.toNat := by
  rw [addWithCarry_overflow, Bool.or_eq_true, decide_eq_true_iff, decide_eq_true_iff]

variable {a b k} {borrow : Nat} (hk : k.toNat + borrow = 1)
include hk

/-- The adder on a complement subtracts, with the complement of its carry-in as the borrow. -/
theorem addWithCarry_complement_result :
    ((addWithCarry a (~~~b) k).result.toNat : Int) = ((a.toNat : Int) - b.toNat - borrow) % 65536 := by
  have := b.isLt
  rw [addWithCarry_result_toNat, BitVec.toNat_not]
  omega

/-- The carry out of the adder on a complement says that no borrow left bit 15 (D5). -/
theorem addWithCarry_complement_carry_iff :
    (addWithCarry a (~~~b) k).carry = true ↔ b.toNat + borrow ≤ a.toNat := by
  have := b.isLt
  rw [addWithCarry_carry_iff, BitVec.toNat_not]
  omega

theorem addWithCarry_complement_overflow_iff : (addWithCarry a (~~~b) k).overflow = true ↔
    a.toInt - b.toInt - borrow < -32768 ∨ 32767 < a.toInt - b.toInt - borrow := by
  rw [addWithCarry_overflow_iff, complement_toInt]
  omega

end

/-! ### ADD and SUB (R136, R137) -/

/-- What the end of ADD, SUB, INC and DEC leaves, R0 as the destination included (R131, D22). -/
theorem adderResult_leaves {d : RegNo} {out : AdderOut} {s t : State} (h : adderResult d out s = .next t) :
    t.getReg d = (if d = r0 then 0 else out.result) ∧ SameRegsBut [d] s t ∧
      t.flags = s.flags.withAdder out ∧ OnlyAdvances s t := by
  obtain rfl := adderResult_next h
  exact ⟨s.getReg_setReg_eq_ite d _, s.sameRegsBut_setReg_setFlags_advance d _ _, rfl,
    s.onlyAdvances_setReg_setFlags_advance d _ _⟩

/-- ADD is the adder on its two registers and the unblocked carry. -/
theorem exec_add (d a b : RegNo) (s : State) : exec (.add d a b) s =
    adderResult d (addWithCarry (s.getReg a) (s.getReg b) s.flags.addCarryIn) s := rfl

/-- SUB is the adder on its first register, the complement of its second and the carry or carry-block. -/
theorem exec_sub (d a b : RegNo) (s : State) : exec (.sub d a b) s =
    adderResult d (addWithCarry (s.getReg a) (~~~(s.getReg b)) s.flags.subCarryIn) s := rfl

/-- Settles O24: the adder's output as numbers, under the carry-in of R132. -/
theorem addAddsWithCarryUnlessBlocked : Obligations.AddAddsWithCarryUnlessBlocked := by
  unfold Obligations.AddAddsWithCarryUnlessBlocked
  intro d a b s k u i
  have hk : s.flags.addCarryIn.toNat = k := s.flags.addCarryIn_toNat
  have hresult : (addWithCarry (s.getReg a) (s.getReg b) s.flags.addCarryIn).result.toNat = u % 65536 := by
    rw [addWithCarry_result_toNat, hk]
  obtain ⟨hreg, hregs, hflags, honly⟩ := adderResult_leaves (exec_add d a b s)
  refine ⟨rfl, _, exec_add d a b s, ?reg, hregs, ?z, ?s, ?c, ?v, ?cb, honly⟩
  case reg => rw [hreg, apply_ite BitVec.toNat, hresult]; rfl
  case z => rw [hflags, Flags.withAdder_z, zeroOf_iff, hresult]
  case s => rw [hflags, Flags.withAdder_s, signOf_iff, hresult]
  case c => rw [hflags, Flags.withAdder_c, addWithCarry_carry_iff, hk, Nat.lt_iff_add_one_le]
  case v => rw [hflags, Flags.withAdder_v, addWithCarry_overflow_iff, hk]
  case cb => rw [hflags, Flags.withAdder_cb]

/-- Settles O25: the adder's output on a complement as numbers, under the borrow that complements its carry-in. -/
theorem subSubtractsWithBorrowUnlessBlocked : Obligations.SubSubtractsWithBorrowUnlessBlocked := by
  unfold Obligations.SubSubtractsWithBorrowUnlessBlocked
  intro d a b s borrow u i
  have hk : s.flags.subCarryIn.toNat + borrow = 1 := s.flags.subCarryIn_toNat
  have hresult : ((addWithCarry (s.getReg a) (~~~(s.getReg b)) s.flags.subCarryIn).result.toNat : Int) = u % 65536 :=
    addWithCarry_complement_result hk
  obtain ⟨hreg, hregs, hflags, honly⟩ := adderResult_leaves (exec_sub d a b s)
  refine ⟨rfl, _, exec_sub d a b s, ?reg, hregs, ?z, ?s, ?c, ?v, ?cb, honly⟩
  case reg => rw [hreg, ← hresult]; split <;> rfl
  case z => rw [hflags, Flags.withAdder_z, zeroOf_iff, ← hresult, Int.natCast_eq_zero]
  case s => rw [hflags, Flags.withAdder_s, signOf_iff, ← hresult]; omega
  case c => rw [hflags, Flags.withAdder_c, addWithCarry_complement_carry_iff hk]
  case v => rw [hflags, Flags.withAdder_v, addWithCarry_complement_overflow_iff hk]
  case cb => rw [hflags, Flags.withAdder_cb]

/-! ### MULT (R138) -/

/-- No effect but that of MULT draws (R14). -/
theorem Effect.draws_eq {i : Instr} {s t : State} (h : Effect s i t) (hmult : ∀ d a b, i ≠ .mult d a b) :
    t.draws = s.draws := by
  cases h with
  | product d a b low high f hf => exact absurd rfl (hmult d a b)
  | register _ _ _ _ | flags _ _ | store _ _ _ | branchReg _ _ | branchRel _ _ | call _ _ | ret _ => simp

/-- Settles O28: MULT's flags and counter, and the effects of the others. -/
theorem multCarryIsAFreshFreeValue : Obligations.MultCarryIsAFreshFreeValue := by
  unfold Obligations.MultCarryIsAFreshFreeValue
  refine fun i s t h => ⟨?mult, (exec_effect h).draws_eq⟩
  case mult =>
    rintro d a b rfl
    obtain ⟨-, rfl⟩ := execMult_eq_next.1 h
    simp

section
variable {d a b : RegNo} {s t : State} (h : exec (.mult d a b) s = .next t)
include h

/-- A MULT that completes moves on and writes neither memory. -/
theorem exec_mult_frame : t.pc = s.pc + 1 ∧ SameData s t ∧ SameCode s t := by
  obtain ⟨-, rfl⟩ := execMult_eq_next.1 h
  exact ⟨by simp, fun _ => by simp, by simp [SameCode]⟩

/-- The flags of a MULT that completes, the carry apart, describe the exact product, whatever the destination. -/
theorem exec_mult_flags :
    (t.flags.z = true ↔ (s.getReg a).toInt * (s.getReg b).toInt = 0) ∧
      (t.flags.s = true ↔ (s.getReg a).toInt * (s.getReg b).toInt < 0) ∧
      (t.flags.v = true ↔ (s.getReg a).toInt * (s.getReg b).toInt < -32768 ∨
        32767 < (s.getReg a).toInt * (s.getReg b).toInt) ∧ t.flags.cb = s.flags.cb := by
  obtain ⟨-, rfl⟩ := execMult_eq_next.1 h
  rw [← signedProduct_toInt]
  exact ⟨product_zero_iff _, product_sign_iff _, product_overflow_iff _, rfl⟩

/-- R13 after a MULT that completes. -/
theorem exec_mult_getReg_rt :
    t.getReg rt = multRt s.params.multD13 d (signedProduct (s.getReg a) (s.getReg b)) := by
  obtain ⟨-, rfl⟩ := execMult_eq_next.1 h
  exact State.getReg_setReg_self _ (by decide) _

/-- The destination after a MULT that completes, where it is not R13. -/
theorem exec_mult_getReg_of_ne (hd : d ≠ rt) :
    t.getReg d = if d = r0 then 0 else productLow (signedProduct (s.getReg a) (s.getReg b)) := by
  obtain ⟨-, rfl⟩ := execMult_eq_next.1 h
  exact (State.getReg_setReg_of_ne _ hd _).trans (s.getReg_setReg_eq_ite d _)

end

/-- The low half of the exact product (R138). -/
theorem productLow_signedProduct (x y : Word) :
    ((productLow (signedProduct x y)).toNat : Int) = x.toInt * y.toInt % 65536 := by
  rw [productLow_toNat, signedProduct_toInt]

/-- The high half of the exact product (R138). -/
theorem productHigh_signedProduct (x y : Word) :
    (productHigh (signedProduct x y)).toInt = x.toInt * y.toInt / 65536 := by
  rw [productHigh_toInt, signedProduct_toInt]

/-- Settles O26: the destination gets the low half and R13, another register, the high one. -/
theorem multGivesTheSignedProduct : Obligations.MultGivesTheSignedProduct := by
  unfold Obligations.MultGivesTheSignedProduct
  intro d a b s hd p
  obtain ⟨t, h⟩ : ∃ t, exec (.mult d a b) s = .next t := ⟨_, execMult_eq_next.2 ⟨fun e => absurd e hd, rfl⟩⟩
  obtain ⟨hz, hs, hv, hcb⟩ := exec_mult_flags h
  refine ⟨rfl, t, h, ?low, ?high, (exec_effect h).sameRegsBut, hz, hs, hv, hcb, exec_mult_frame h⟩
  case low => rw [exec_mult_getReg_of_ne h hd, ← productLow_signedProduct]; split <;> rfl
  case high => rw [exec_mult_getReg_rt h, multRt_of_ne hd, productHigh_signedProduct]

/-- R13 as the destination holds one of the halves (D9). -/
theorem multRt_rt (choice : MultD13) (q : BitVec 32) :
    multRt choice rt q = if lowHalfWins choice = true then productLow q else productHigh q := by
  simp [multRt]

/-- Settles O27: R13 is written twice, the second time with the half that the parameter lets win. -/
theorem multIntoRtKeepsOneHalf : Obligations.MultIntoRtKeepsOneHalf := by
  unfold Obligations.MultIntoRtKeepsOneHalf
  intro a b s hchoice p
  obtain ⟨t, h⟩ : ∃ t, exec (.mult rt a b) s = .next t := ⟨_, execMult_eq_next.2 ⟨fun _ => hchoice, rfl⟩⟩
  have hrt := exec_mult_getReg_rt h
  rw [multRt_rt] at hrt
  obtain ⟨hz, hs, hv, hcb⟩ := exec_mult_flags h
  refine ⟨t, h, ?lowWins, ?highWins, ?either, ?regs, hz, hs, hv, hcb, exec_mult_frame h⟩
  case lowWins =>
    intro hlow
    rw [hrt, hlow, lowHalfWins, if_pos rfl, productLow_signedProduct]
  case highWins =>
    intro hhigh
    rw [hrt, hhigh, lowHalfWins, if_neg Bool.false_ne_true, productHigh_signedProduct]
  case either =>
    rw [hrt]
    split
    · exact .inl (productLow_signedProduct _ _)
    · exact .inr (productHigh_signedProduct _ _)
  case regs => simpa [SameRegsBut, regsWritten] using (exec_effect h).sameRegsBut

/-! ### Two adders in a row are the adder of 32 bits (R140) -/

/-- A pair of words as a signed number: the sign is that of the high word. -/
theorem concat_toInt (h l : Word) : (h ++ l).toInt = h.toInt * 65536 + l.toNat := by
  have := l.isLt
  rw [BitVec.toInt_eq_toNat_cond, toNat_concat, toInt_eq_ite]
  split <;> split <;> omega

/-- The sum of 32 bits out of two adders of 16 bits: the carry of the low words goes into the high ones. -/
theorem addWithCarry_chain (xh xl yh yl : Word) (k : Bool) {lo hi : AdderOut} (hlo : lo = addWithCarry xl yl k)
    (hhi : hi = addWithCarry xh yh lo.carry) :
    hi.result.toNat * 65536 + lo.result.toNat = ((xh ++ xl).toNat + (yh ++ yl).toNat + k.toNat) % 2 ^ 32 ∧
      (hi.carry = true ↔ 2 ^ 32 ≤ (xh ++ xl).toNat + (yh ++ yl).toNat + k.toNat) ∧
      (hi.overflow = true ↔ (xh ++ xl).toInt + (yh ++ yl).toInt + k.toNat < -2 ^ 31 ∨
        2 ^ 31 ≤ (xh ++ xl).toInt + (yh ++ yl).toInt + k.toNat) := by
  have hxl := xl.isLt
  have hyl := yl.isLt
  have hk := k.toNat_le
  have hcarry : lo.carry.toNat = (xl.toNat + yl.toNat + k.toNat) / 65536 := by
    rw [hlo, addWithCarry_carry, Bool.toNat, Bool.cond_decide]
    split <;> omega
  rw [hhi, addWithCarry_carry_iff, addWithCarry_overflow_iff, addWithCarry_result_toNat, hcarry, hlo,
    addWithCarry_result_toNat, concat_toInt, concat_toInt, toNat_concat, toNat_concat]
  refine ⟨?_, ?_, ?_⟩ <;> omega

/-! ### Double precision (R140, R312) -/

/-- An instruction that completes is followed by the rest of its sequence. -/
theorem execAll_cons_of_next {i : Instr} {s t : State} (h : exec i s = .next t) (is : List Instr) :
    execAll (i :: is) s = execAll is t := by
  simp only [execAll, h]

/-- SETC (R286). -/
theorem exec_setc (s : State) : exec (.setf 0x08#5) s = .next (s.setFlags (s.flags.withCarry true)).advance :=
  congrArg (fun f => Host.Outcome.next (s.setFlags f).advance) s.flags.setMask_carry

/-- CLRC (R287). -/
theorem exec_clrc (s : State) : exec (.clrf 0x08#5) s = .next (s.setFlags (s.flags.withCarry false)).advance :=
  congrArg (fun f => Host.Outcome.next (s.setFlags f).advance) s.flags.clearMask_carry

/-- `t` is left from `s` by an adder of 32 bits on `x`, `y` and the carry, its sum in the pair `[dh dl]`. -/
structure PairSum (dh dl : RegNo) (x y : BitVec 32) (s t : State) : Prop where
  /-- the pair, high word first -/
  sum : (t.getReg dh).toNat * 65536 + (t.getReg dl).toNat = (x.toNat + y.toNat + s.flags.c.toNat) % 2 ^ 32
  /-- c, unsigned overflow of 32 bits -/
  carry : t.flags.c = true ↔ 2 ^ 32 ≤ x.toNat + y.toNat + s.flags.c.toNat
  /-- v, signed overflow of 32 bits -/
  overflow : t.flags.v = true ↔
    x.toInt + y.toInt + s.flags.c.toNat < -2 ^ 31 ∨ 2 ^ 31 ≤ x.toInt + y.toInt + s.flags.c.toNat
  /-- no register but the pair -/
  regs : SameRegsBut [dh, dl] s t
  /-- no cell of data memory -/
  data : SameData s t
  /-- two instructions on -/
  pc : t.pc = s.pc + 2

/-- The ends of two adder operations, the second with the carry of the first, leave a sum of 32 bits. -/
theorem pairSum_of_adderResult {dh dl : RegNo} {xh xl yh yl : Word} {s u t : State} (hdl : dl ≠ r0) (hdh : dh ≠ r0)
    (hne : dh ≠ dl) (hlow : adderResult dl (addWithCarry xl yl s.flags.c) s = .next u)
    (hhigh : adderResult dh (addWithCarry xh yh u.flags.c) u = .next t) : PairSum dh dl (xh ++ xl) (yh ++ yl) s t := by
  obtain ⟨hureg, huregs, huflags, hupc, hudata, -, -⟩ := adderResult_leaves hlow
  obtain ⟨htreg, htregs, htflags, htpc, htdata, -, -⟩ := adderResult_leaves hhigh
  have hdlreg : t.getReg dl = (addWithCarry xl yl s.flags.c).result := by
    rw [htregs dl (by simpa using hne.symm), hureg, if_neg hdl]
  have hcarry : u.flags.c = (addWithCarry xl yl s.flags.c).carry := by rw [huflags, Flags.withAdder_c]
  rw [if_neg hdh] at htreg
  obtain ⟨hsum, hc, hv⟩ := addWithCarry_chain xh xl yh yl s.flags.c rfl (congrArg _ hcarry)
  exact {
    sum := by rw [htreg, hdlreg, hsum]
    carry := by rw [htflags, Flags.withAdder_c, hc]
    overflow := by rw [htflags, Flags.withAdder_v, hv]
    regs := fun r hr => by
      obtain ⟨hrdh, hrdl⟩ : r ≠ dh ∧ r ≠ dl := by simpa using hr
      rw [htregs r (by simpa using hrdh), huregs r (by simpa using hrdl)]
    data := fun a => (htdata a).trans (hudata a)
    pc := by rw [htpc, hupc, BitVec.add_assoc]; rfl }

/-- The operation `op` with carry-block off is the adder on its first register, its second one through `f`, and the carry. -/
def IsAdder (op : RegNo → RegNo → RegNo → Instr) (f : Word → Word) : Prop :=
  ∀ {s : State}, s.flags.cb = false → ∀ d a b : RegNo,
    exec (op d a b) s = adderResult d (addWithCarry (s.getReg a) (f (s.getReg b)) s.flags.c) s

/-- With carry-block off the carry-in of ADD is the carry (R132). -/
theorem isAdder_add : IsAdder .add id := by
  intro s hcb d a b
  rw [exec_add, Flags.addCarryIn, hcb, Bool.not_false, Bool.and_true, id]

/-- With carry-block off the carry-in of SUB is the carry (R132). -/
theorem isAdder_sub : IsAdder .sub (~~~·) := by
  intro s hcb d a b
  rw [exec_sub, Flags.subCarryIn, hcb, Bool.or_false]

/-- An adder operation twice, low words first: the high operands are read after the low result is written, so they must not be
its register. -/
theorem IsAdder.execAll_pair {op : RegNo → RegNo → RegNo → Instr} {f : Word → Word} (hop : IsAdder op f)
    {dh dl ah bh : RegNo} {s : State} (hcb : s.flags.cb = false) (hdl : dl ≠ r0) (hdh : dh ≠ r0) (hne : dh ≠ dl)
    (hah : ah ≠ dl) (hbh : bh ≠ dl) (al bl : RegNo) :
    ∃ t, execAll [op dl al bl, op dh ah bh] s = .next t ∧
      PairSum dh dl (s.getReg ah ++ s.getReg al) (f (s.getReg bh) ++ f (s.getReg bl)) s t := by
  have hlow := hop hcb dl al bl
  obtain ⟨u, hu⟩ : ∃ u, exec (op dl al bl) s = .next u := ⟨_, hlow⟩
  rw [hu] at hlow
  obtain ⟨-, huregs, huflags, -⟩ := adderResult_leaves hlow.symm
  have hucb : u.flags.cb = false := by rw [huflags, Flags.withAdder_cb, hcb]
  have hhigh := hop hucb dh ah bh
  rw [huregs ah (by simpa using hah), huregs bh (by simpa using hbh)] at hhigh
  exact ⟨_, (execAll_cons_of_next hu _).trans (execAll_cons_of_next hhigh []),
    pairSum_of_adderResult hdl hdh hne hlow.symm rfl⟩

/-- Settles O50: after CLRC the pair of ADDs adds with carry-in 0. -/
theorem doubleAdditionIsExact : Obligations.DoubleAdditionIsExact := by
  unfold Obligations.DoubleAdditionIsExact
  intro dh dl ah al bh bl s hcb hdl hdh hne hah hbh x y i
  obtain ⟨t, hrun, hsum⟩ :=
    isAdder_add.execAll_pair (s := (s.setFlags (s.flags.withCarry false)).advance) hcb hdl hdh hne hah hbh al bl
  have hx : (s.getReg ah ++ s.getReg al).toNat = x := toNat_concat _ _
  have hy : (s.getReg bh ++ s.getReg bl).toNat = y := toNat_concat _ _
  refine ⟨t, (execAll_cons_of_next (exec_clrc s) _).trans hrun, ?sum, ?c, ?v, hsum.regs, hsum.data, ?pc⟩
  case sum => simpa [hx, hy] using hsum.sum
  case c => simpa [hx, hy] using hsum.carry
  case v => simpa using hsum.overflow
  case pc => rw [hsum.pc, State.advance_pc, State.setFlags_pc, BitVec.add_assoc]; rfl

/-- Settles O51: after SETC the pair of SUBs adds the complement with carry-in 1, which is subtraction modulo 2^32. -/
theorem doubleSubtractionIsExact : Obligations.DoubleSubtractionIsExact := by
  unfold Obligations.DoubleSubtractionIsExact
  intro dh dl ah al bh bl s hcb hdl hdh hne hah hbh x y
  obtain ⟨t, hrun, hsum⟩ :=
    isAdder_sub.execAll_pair (s := (s.setFlags (s.flags.withCarry true)).advance) hcb hdl hdh hne hah hbh al bl
  have hx : (s.getReg ah ++ s.getReg al).toNat = x := toNat_concat _ _
  have hy : (~~~s.getReg bh ++ ~~~s.getReg bl).toNat + y = 2 ^ 32 - 1 := by
    simp only [toNat_concat, BitVec.toNat_not]
    omega
  have hdiff := hsum.sum
  have hcarry := hsum.carry
  simp only [State.advance_getReg, State.setFlags_getReg, State.advance_flags, State.setFlags_flags, Flags.withCarry_c,
    Bool.toNat_true, hx] at hdiff hcarry
  refine ⟨t, (execAll_cons_of_next (exec_setc s) _).trans hrun, ?diff, ?c, hsum.regs, hsum.data, ?pc⟩
  case diff => omega
  case c => rw [hcarry]; omega
  case pc => rw [hsum.pc, State.advance_pc, State.setFlags_pc, BitVec.add_assoc]; rfl

end Sys2Proof.Machine
end

section
/-! PROOFS. The family 42_shifts: the one-bit and the eight-bit shifts, and the one-bit shifts of a pair of registers. -/

namespace Sys2Proof.Machine

/-! ### The shifted words and the bits shifted out as numbers (R151) -/

section
variable (w : Word)

theorem shiftLeft8_toNat : (shiftLeft8 w).toNat = w.toNat * 256 % 65536 := by
  simp only [shiftLeft8, toNat_concat, toNat_extract, BitVec.toNat_ofNat]
  omega

theorem shiftRight8_toNat : (shiftRight8 w).toNat = w.toNat / 256 := by
  have := w.isLt
  simp only [shiftRight8, toNat_concat, toNat_extract, BitVec.toNat_ofNat]
  omega

/-- Bit 15, which a shift to the left puts out, as a condition on `u(w)`. -/
theorem msb_eq_decide_toNat : w.msb = decide (32768 ≤ w.toNat) := BitVec.msb_eq_decide w

/-- Bit 0, which a shift to the right puts out, as a condition on `u(w)`. -/
theorem bit0_eq_decide_toNat : w.getLsbD 0 = decide (w.toNat % 2 = 1) := Nat.testBit_zero w.toNat

/-- Bit 0 as a condition on `s(w)`: the two readings of a word differ by an even number. -/
theorem bit0_eq_decide_toInt : w.getLsbD 0 = decide (w.toInt % 2 = 1) := by
  rw [bit0_eq_decide_toNat, toInt_eq_ite, decide_eq_decide]
  split <;> omega

theorem msb_toNat : w.msb.toNat = w.toNat / 32768 := by
  have := w.isLt
  rw [msb_eq_decide_toNat, Bool.toNat, Bool.cond_decide]
  split <;> omega

theorem bit0_toNat : (w.getLsbD 0).toNat = w.toNat % 2 := by
  rw [bit0_eq_decide_toNat, Bool.toNat, Bool.cond_decide]
  split <;> omega

/-- To the right with the sign kept: half of the signed number, rounded toward minus infinity (R157). -/
theorem shiftRight1_msb_toInt : (shiftRight1 w w.msb).toInt = w.toInt / 2 := by
  have := w.isLt
  rw [toInt_eq_ite, toInt_eq_ite, shiftRight1_toNat, msb_toNat]
  split <;> split <;> omega

end

/-! ### LSL and LSR (R152, R153) -/

/-- A written register's value as a number: R0 drops the write (R22). -/
theorem toNat_ite_r0 (d : RegNo) (v : Word) : (if d = r0 then 0 else v).toNat = if d = r0 then 0 else v.toNat :=
  apply_ite BitVec.toNat _ _ _

/-- What the end of a one-bit shift leaves, R0 as the destination included (R151). -/
theorem shiftResult_leaves {d : RegNo} {r : Word} {out : Bool} {s t : State} (h : shiftResult d r out s = .next t) :
    t.getReg d = (if d = r0 then 0 else r) ∧ SameRegsBut [d] s t ∧ t.flags = s.flags.withCarry out ∧
      OnlyAdvances s t := by
  obtain rfl := shiftResult_next h
  exact ⟨s.getReg_setReg_eq_ite d r, s.sameRegsBut_setReg_setFlags_advance d r _, rfl,
    s.onlyAdvances_setReg_setFlags_advance d r _⟩

/-- The instruction `op` shifts its source by one bit through `shift`, the unblocked carry entering, with `out` of the source in
the carry (R151). -/
def IsCarryShift (op : RegNo → RegNo → Instr) (shift : Word → Bool → Word) (out : Word → Bool) : Prop :=
  ∀ (d b : RegNo) (s : State),
    exec (op d b) s = shiftResult d (shift (s.getReg b) s.flags.addCarryIn) (out (s.getReg b)) s

theorem isCarryShift_lsl : IsCarryShift .lsl shiftLeft1 BitVec.msb := fun _ _ _ => rfl

theorem isCarryShift_lsr : IsCarryShift .lsr shiftRight1 (BitVec.getLsbD · 0) := fun _ _ _ => rfl

/-- ASL is one with LSL (D11). -/
theorem isCarryShift_asl : IsCarryShift .asl shiftLeft1 BitVec.msb := fun _ _ _ => rfl

section
variable {op : RegNo → RegNo → Instr} {shift : Word → Bool → Word} {out : Word → Bool} (hop : IsCarryShift op shift out)
include hop

/-- What a shift through the carry leaves, in every state. -/
theorem IsCarryShift.leaves (d b : RegNo) (s : State) :
    ∃ t, exec (op d b) s = .next t ∧
      t.getReg d = (if d = r0 then 0 else shift (s.getReg b) s.flags.addCarryIn) ∧
      SameRegsBut [d] s t ∧ t.flags = s.flags.withCarry (out (s.getReg b)) ∧ OnlyAdvances s t :=
  ⟨_, hop d b s, shiftResult_leaves rfl⟩

/-- The same with the written register as a number. -/
theorem IsCarryShift.leaves_toNat (d b : RegNo) (s : State) :
    ∃ t, exec (op d b) s = .next t ∧
      (t.getReg d).toNat = (if d = r0 then 0 else (shift (s.getReg b) s.flags.addCarryIn).toNat) ∧
      SameRegsBut [d] s t ∧ t.flags = s.flags.withCarry (out (s.getReg b)) ∧ OnlyAdvances s t := by
  obtain ⟨t, ht, hreg, hrest⟩ := hop.leaves d b s
  exact ⟨t, ht, (congrArg BitVec.toNat hreg).trans (toNat_ite_r0 d _), hrest⟩

end

/-- Settles O30: both are shifts through the carry, with their results and the bits they put out read as numbers. -/
theorem logicalShiftsRotateThroughCarry : Obligations.LogicalShiftsRotateThroughCarry := by
  unfold Obligations.LogicalShiftsRotateThroughCarry
  intro d b s k x
  have hlsl := isCarryShift_lsl.leaves_toNat d b s
  have hlsr := isCarryShift_lsr.leaves_toNat d b s
  rw [shiftLeft1_toNat, Flags.addCarryIn_toNat, msb_eq_decide_toNat] at hlsl
  rw [shiftRight1_toNat, Flags.addCarryIn_toNat, bit0_eq_decide_toNat] at hlsr
  exact ⟨rfl, rfl, hlsl, hlsr⟩

/-! ### ASL and ASR (R156, R157) -/

theorem exec_asr (d b : RegNo) (s : State) : exec (.asr d b) s =
    shiftResult d (shiftRight1 (s.getReg b) (asrIn s.params.asrFill (s.getReg b))) ((s.getReg b).getLsbD 0) s := rfl

/-- With zeros entering: half of the unsigned number (R157 under `ASR_FILL = zero`). -/
theorem shiftRight1_false_toNat (w : Word) : (shiftRight1 w false).toNat = w.toNat / 2 := by
  rw [shiftRight1_toNat, Bool.toNat_false, Nat.mul_zero, Nat.add_zero]

/-- Settles O32: ASL is LSL with its carry read as the sign, and ASR enters the bit that the parameter names. -/
theorem arithmeticShiftsDoubleAndHalve : Obligations.ArithmeticShiftsDoubleAndHalve := by
  unfold Obligations.ArithmeticShiftsDoubleAndHalve
  intro d b s k
  have hasl := isCarryShift_asl.leaves_toNat d b s
  rw [shiftLeft1_toNat, Flags.addCarryIn_toNat, BitVec.msb_eq_toInt] at hasl
  obtain ⟨hreg, hregs, hflags, honly⟩ := shiftResult_leaves (exec_asr d b s)
  refine ⟨rfl, rfl, hasl, _, exec_asr d b s, fun hsign => ?sign, fun hzero => ?zero, hregs, ?flags, honly⟩
  case sign =>
    rw [hreg, hsign, asrIn, apply_ite BitVec.toInt, shiftRight1_msb_toInt]
    rfl
  case zero => rw [hreg, hzero, asrIn, toNat_ite_r0, shiftRight1_false_toNat]
  case flags => exact hflags.trans (congrArg s.flags.withCarry (bit0_eq_decide_toInt _))

/-! ### LSL8 and LSR8 (R154, R155) -/

/-- An eight-bit shift writes one register and nothing else (R151). -/
theorem State.setReg_advance_leaves (s : State) (d : RegNo) (v : Word) :
    ((s.setReg d v).advance.getReg d).toNat = (if d = r0 then 0 else v.toNat) ∧
      SameRegsBut [d] s (s.setReg d v).advance ∧ (s.setReg d v).advance.flags = s.flags ∧
      OnlyAdvances s (s.setReg d v).advance :=
  ⟨(congrArg BitVec.toNat (s.getReg_setReg_eq_ite d v)).trans (toNat_ite_r0 d v), s.sameRegsBut_setReg d v,
    s.setReg_flags d v, s.onlyAdvances_setReg_advance d v⟩

/-- Settles O31: each writes one register, with the shifted word read as a number. -/
theorem byteShiftsMoveEightBits : Obligations.ByteShiftsMoveEightBits := by
  unfold Obligations.ByteShiftsMoveEightBits
  intro d b s x
  have hlsl8 := s.setReg_advance_leaves d (shiftLeft8 (s.getReg b))
  have hlsr8 := s.setReg_advance_leaves d (shiftRight8 (s.getReg b))
  rw [shiftLeft8_toNat] at hlsl8
  rw [shiftRight8_toNat] at hlsr8
  exact ⟨rfl, rfl, ⟨_, rfl, hlsl8⟩, ⟨_, rfl, hlsr8⟩⟩

/-! ### Shifts of a pair of registers (R158) -/

/-- `t` is left from `s` by a shift of the pair of registers `[first second]`, the second taking in what the first puts out. -/
structure PairShift (shift : Word → Bool → Word) (out : Word → Bool) (first second : RegNo) (s t : State) : Prop where
  /-- the register shifted first, a zero entering -/
  firstReg : t.getReg first = shift (s.getReg first) false
  /-- the register shifted second -/
  secondReg : t.getReg second = shift (s.getReg second) (out (s.getReg first))
  /-- c, the bit the second one puts out -/
  carry : t.flags.c = out (s.getReg second)
  /-- no other register -/
  regs : SameRegsBut [first, second] s t
  /-- no cell of data memory -/
  data : SameData s t

/-- CLRC and a shift through the carry twice, with carry-block off: a zero enters the first register, and the carry takes the
bit that it puts out into the second. -/
theorem IsCarryShift.execAll_pair {op : RegNo → RegNo → Instr} {shift : Word → Bool → Word} {out : Word → Bool}
    (hop : IsCarryShift op shift out) {first second : RegNo} {s : State} (hcb : s.flags.cb = false) (hfirst : first ≠ r0)
    (hsecond : second ≠ r0) (hne : first ≠ second) :
    ∃ t, execAll [.clrf 0x08#5, op first first, op second second] s = .next t ∧
      PairShift shift out first second s t := by
  have hclrc := exec_clrc s
  obtain ⟨u, hu, hureg, huregs, huflags, -, hudata, -⟩ :=
    hop.leaves first first (s.setFlags (s.flags.withCarry false)).advance
  obtain ⟨t, ht, htreg, htregs, htflags, -, htdata, -⟩ := hop.leaves second second u
  have husecond : u.getReg second = s.getReg second := huregs second (by simpa using hne.symm)
  have hin : u.flags.addCarryIn = out (s.getReg first) := by
    rw [huflags]
    simp [Flags.addCarryIn, hcb]
  rw [if_neg hfirst] at hureg
  rw [if_neg hsecond, husecond, hin] at htreg
  refine ⟨t, (execAll_cons_of_next hclrc _).trans ((execAll_cons_of_next hu _).trans (execAll_cons_of_next ht [])), ?_⟩
  exact {
    firstReg := by rw [htregs first (by simpa using hne), hureg]; rfl
    secondReg := htreg
    carry := by rw [htflags, Flags.withCarry_c, husecond]
    regs := fun r hr => by
      obtain ⟨hrf, hrs⟩ : r ≠ first ∧ r ≠ second := by simpa using hr
      rw [htregs r (by simpa using hrs), huregs r (by simpa using hrf)]
      rfl
    data := fun a => (htdata a).trans (hudata a) }

/-- Two words, the low one first: the pair doubled modulo 2^32, its bit 31 out of the high word. -/
theorem shiftLeft1_pair (h l : Word) :
    (shiftLeft1 h l.msb).toNat * 65536 + (shiftLeft1 l false).toNat =
      2 * (h.toNat * 65536 + l.toNat) % 2 ^ 32 ∧ (h.msb = true ↔ 2 ^ 31 ≤ h.toNat * 65536 + l.toNat) := by
  have := h.isLt
  have := l.isLt
  rw [shiftLeft1_toNat, shiftLeft1_toNat, msb_toNat, Bool.toNat_false, msb_eq_decide_toNat, decide_eq_true_iff]
  omega

/-- Two words, the high one first: the pair halved, its bit 0 out of the low word. -/
theorem shiftRight1_pair (h l : Word) :
    (shiftRight1 h false).toNat * 65536 + (shiftRight1 l (h.getLsbD 0)).toNat = (h.toNat * 65536 + l.toNat) / 2 ∧
      (l.getLsbD 0 = true ↔ (h.toNat * 65536 + l.toNat) % 2 = 1) := by
  have := l.isLt
  rw [shiftRight1_false_toNat, shiftRight1_toNat, bit0_toNat, bit0_eq_decide_toNat, decide_eq_true_iff]
  omega

/-- Settles O52: the bit that the first shift leaves in the carry enters the second, which makes the two one shift of 32 bits. -/
theorem doubleShiftsMoveThirtyTwoBits : Obligations.DoubleShiftsMoveThirtyTwoBits := by
  unfold Obligations.DoubleShiftsMoveThirtyTwoBits
  intro h l s hcb hh hl hne x
  obtain ⟨hleft, hleftOut⟩ := shiftLeft1_pair (s.getReg h) (s.getReg l)
  obtain ⟨hright, hrightOut⟩ := shiftRight1_pair (s.getReg h) (s.getReg l)
  refine ⟨?left, ?right⟩
  case left =>
    obtain ⟨t, ht, hpair⟩ := isCarryShift_lsl.execAll_pair hcb hl hh hne.symm
    refine ⟨t, ht, ?value, ?carry, fun r hr => hpair.regs r (by simpa [and_comm] using hr), hpair.data⟩
    case value => rw [hpair.firstReg, hpair.secondReg, hleft]
    case carry => rw [hpair.carry, hleftOut]
  case right =>
    obtain ⟨t, ht, hpair⟩ := isCarryShift_lsr.execAll_pair hcb hh hl hne
    refine ⟨t, ht, ?value, ?carry, hpair.regs, hpair.data⟩
    case value => rw [hpair.firstReg, hpair.secondReg, hright]
    case carry => rw [hpair.carry, hrightOut]

end Sys2Proof.Machine
end

section
/-! PROOFS. The family 43_flag_ops: SETF and CLRF, and the flags saved to a register and restored from one. -/

namespace Sys2Proof.Machine

/-! ### The flags written, and nothing else (R170) -/

/-- An instruction that writes the flags and moves on writes no register and only falls through (R27). -/
theorem State.setFlags_advance_leaves (s : State) (f : Flags) :
    SameRegsBut [] s (s.setFlags f).advance ∧ OnlyAdvances s (s.setFlags f).advance :=
  ⟨fun r _ => s.setFlags_getReg f r, rfl, fun _ => rfl, ⟨rfl, rfl, rfl⟩, rfl⟩

/-! ### SETF and CLRF (R172, R173) -/

theorem exec_setf (v : BitVec 5) (s : State) :
    exec (.setf v) s = .next (s.setFlags (s.flags.setMask v)).advance := rfl

theorem exec_clrf (v : BitVec 5) (s : State) :
    exec (.clrf v) s = .next (s.setFlags (s.flags.clearMask v)).advance := rfl

/-- SETF as a choice for each flag (R172). -/
theorem Flags.setMask_eq_ite (f : Flags) (m : BitVec 5) : f.setMask m =
    ⟨if m.getLsbD 0 then true else f.s, if m.getLsbD 1 then true else f.z, if m.getLsbD 2 then true else f.v,
      if m.getLsbD 3 then true else f.c, if m.getLsbD 4 then true else f.cb⟩ := by
  simp only [Flags.setMask_eq, Bool.if_true_left, Bool.decide_eq_true, Bool.or_comm]

/-- CLRF as a choice for each flag (R173). -/
theorem Flags.clearMask_eq_ite (f : Flags) (m : BitVec 5) : f.clearMask m =
    ⟨if m.getLsbD 0 then false else f.s, if m.getLsbD 1 then false else f.z, if m.getLsbD 2 then false else f.v,
      if m.getLsbD 3 then false else f.c, if m.getLsbD 4 then false else f.cb⟩ := by
  simp only [Flags.clearMask_eq, Bool.if_false_left, Bool.decide_eq_true, Bool.and_comm]

/-- Settles O33: each writes the flags only, and its mask chooses for each flag between the new value and the old one. -/
theorem flagMasksSetAndClear : Obligations.FlagMasksSetAndClear := by
  unfold Obligations.FlagMasksSetAndClear
  intro v s
  simp only [List.forall_mem_cons, List.not_mem_nil, false_imp_iff, implies_true, and_true]
  refine ⟨⟨rfl, _, exec_setf v s, ?setf⟩, rfl, _, exec_clrf v s, ?clrf⟩
  case setf =>
    rw [Flags.setMask_eq_ite]
    exact ⟨rfl, rfl, rfl, rfl, rfl, s.setFlags_advance_leaves _⟩
  case clrf =>
    rw [Flags.clearMask_eq_ite]
    exact ⟨rfl, rfl, rfl, rfl, rfl, s.setFlags_advance_leaves _⟩

/-! ### SAVEF and RSTRF (R174, R175) -/

theorem exec_savef (d : RegNo) (s : State) :
    exec (.savef d) s = .next (s.setReg d (s.flags.toBits.zeroExtend 16)).advance := rfl

theorem exec_rstrf (d : RegNo) (s : State) :
    exec (.rstrf d) s = .next (s.setFlags (Flags.ofBits ((s.getReg d).extractLsb' 0 5))).advance := rfl

/-- The word of SAVEF or RSTRF with its low byte in one piece, as the rules print it. -/
theorem wordFlagReg_eq_lowByte (r : BitVec 1) (d : BitVec 4) :
    wordFlagReg r d = 0b0011#4 ++ d ++ (0b0111#4 ++ r ++ 0b000#3) := by
  apply BitVec.eq_of_toNat_eq
  simp only [wordFlagReg_toNat, toNat_concat, BitVec.toNat_ofNat]
  omega

/-- The saved flags as a number, with the weights of R11. -/
theorem Flags.zeroExtend_toBits_toNat (f : Flags) : (f.toBits.zeroExtend 16).toNat =
    f.s.toNat + 2 * f.z.toNat + 4 * f.v.toNat + 8 * f.c.toNat + 16 * f.cb.toNat := by
  rw [BitVec.zeroExtend, BitVec.toNat_setWidth_of_le (by decide)]
  simp only [Flags.toBits, toNat_concat, BitVec.toNat_ofBool]
  omega

/-- The flags RSTRF takes from a word (D12). -/
theorem Flags.ofBits_extractLsb' (w : Word) : Flags.ofBits (w.extractLsb' 0 5) =
    ⟨w.getLsbD 0, w.getLsbD 1, w.getLsbD 2, w.getLsbD 3, w.getLsbD 4⟩ := by
  simp only [Flags.ofBits, BitVec.getLsbD_extractLsb', Nat.zero_add, Nat.reduceLT, decide_true, Bool.true_and]

/-- RSTRF takes from the word that SAVEF writes the flags that SAVEF read (R175). -/
theorem Flags.ofBits_extractLsb'_zeroExtend_toBits (f : Flags) :
    Flags.ofBits ((f.toBits.zeroExtend 16).extractLsb' 0 5) = f := by
  rw [BitVec.zeroExtend, BitVec.extractLsb'_setWidth_of_le (by decide), BitVec.extractLsb'_eq_self, Flags.ofBits_toBits]

/-- Settles O34: SAVEF writes one register, read as a number, and RSTRF writes the flags only, read bit by bit. -/
theorem flagsAreSavedAndRestoredInBits4To0 : Obligations.FlagsAreSavedAndRestoredInBits4To0 := by
  unfold Obligations.FlagsAreSavedAndRestoredInBits4To0
  intro d s
  have hsavef := s.setReg_advance_leaves d (s.flags.toBits.zeroExtend 16)
  rw [Flags.zeroExtend_toBits_toNat] at hsavef
  refine ⟨wordFlagReg_eq_lowByte 0#1 d, wordFlagReg_eq_lowByte 1#1 d, ⟨_, exec_savef d s, hsavef⟩, _, exec_rstrf d s, ?rstrf⟩
  case rstrf =>
    rw [Flags.ofBits_extractLsb']
    exact ⟨rfl, rfl, rfl, rfl, rfl, s.setFlags_advance_leaves _⟩

/-- Settles O35: the register still holds the word that SAVEF wrote, and RSTRF takes the flags back out of it. -/
theorem savedFlagsAreRestored : Obligations.SavedFlagsAreRestored := by
  unfold Obligations.SavedFlagsAreRestored
  intro d s t u hd ht hu
  obtain rfl := Host.Outcome.next.inj ((exec_savef d s).symm.trans ht)
  have hsaved : u.getReg d = s.flags.toBits.zeroExtend 16 := by
    rw [hu, State.advance_getReg, State.getReg_setReg_self s hd]
  refine ⟨_, exec_rstrf d u, ?flags⟩
  case flags =>
    rw [State.advance_flags, State.setFlags_flags, hsaved, Flags.ofBits_extractLsb'_zeroExtend_toBits]

end Sys2Proof.Machine
end

section
/-! PROOFS. The family 44_increments: INC and DEC, the adder on a register and the amount with a fixed carry-in. -/

namespace Sys2Proof.Machine

/-! ### The amount (R186, R187) and the word (R87) -/

/-- An amount as a number. -/
theorem amount_toNat {delta : Nat} (h : delta ≤ 64) : (amount delta).toNat = delta := by
  rw [amount, BitVec.toNat_ofNat]
  omega

/-- An amount as a signed number: it never reaches the sign bit. -/
theorem amount_toInt {delta : Nat} (h : delta ≤ 64) : (amount delta).toInt = delta := by
  rw [toInt_eq_ite, amount_toNat h, if_pos (by omega)]

/-- The word of INC or DEC with its two bits 7:6 in one piece, as the rules print it. -/
theorem wordIncDec_eq_opBits (m : BitVec 1) (d : BitVec 4) (delta : Nat) :
    wordIncDec m d delta = 0b0011#4 ++ d ++ (0b1#1 ++ m) ++ BitVec.ofNat 6 (delta - 1) := by
  apply BitVec.eq_of_toNat_eq
  simp only [wordIncDec_toNat, toNat_concat, BitVec.toNat_ofNat]
  omega

/-! ### The end of INC and DEC (R131) -/

/-- What `adderResult_leaves` says, with the result and the flags read as numbers. -/
theorem adderResult_leaves_toNat {d : RegNo} {out : AdderOut} {s t : State} (h : adderResult d out s = .next t) :
    (t.getReg d).toNat = (if d = r0 then 0 else out.result.toNat) ∧ SameRegsBut [d] s t ∧
      (t.flags.z = true ↔ out.result.toNat = 0) ∧ (t.flags.s = true ↔ 32768 ≤ out.result.toNat) ∧
      t.flags.c = out.carry ∧ t.flags.v = out.overflow ∧ t.flags.cb = s.flags.cb ∧ OnlyAdvances s t := by
  obtain ⟨hreg, hregs, hflags, honly⟩ := adderResult_leaves h
  rw [hreg, hflags]
  exact ⟨toNat_ite_r0 d _, hregs, zeroOf_iff _, signOf_iff _, rfl, rfl, rfl, honly⟩

/-! ### INC (R186) -/

/-- INC is the adder on its register and the amount, with carry-in 0. -/
theorem exec_inc (d : RegNo) (delta : Nat) (s : State) : exec (.inc d delta) s =
    adderResult d (addWithCarry (s.getReg d) (amount delta) false) s := rfl

/-- Adding an amount can overflow upwards only. -/
theorem addWithCarry_amount_overflow_iff (a : Word) {delta : Nat} (h : delta ≤ 64) :
    (addWithCarry a (amount delta) false).overflow = true ↔ 32767 < a.toInt + delta := by
  have : -32768 ≤ a.toInt := a.le_toInt
  rw [addWithCarry_overflow_iff, amount_toInt h, Bool.toNat_false]
  omega

/-- Settles O36: the adder's output on an amount as numbers; the carry-in is 0 whatever the flags are. -/
theorem incAddsTheAmount : Obligations.IncAddsTheAmount := by
  unfold Obligations.IncAddsTheAmount
  intro d delta s _ hmax u
  have hu : (s.getReg d).toNat + (amount delta).toNat + false.toNat = u := by
    rw [amount_toNat hmax, Bool.toNat_false, Nat.add_zero]
  obtain ⟨hreg, hregs, hz, hs, hc, hv, hcb, honly⟩ := adderResult_leaves_toNat (exec_inc d delta s)
  rw [addWithCarry_result_toNat, hu] at hreg hz hs
  refine ⟨wordIncDec_eq_opBits 0#1 d delta, _, exec_inc d delta s, hreg, hregs, hz, hs, ?c, ?v, hcb, honly⟩
  case c => rw [hc, addWithCarry_carry_iff, hu]
  case v => rw [hv, addWithCarry_amount_overflow_iff _ hmax]

/-! ### DEC (R187) -/

/-- DEC is the adder on its register and the complement of the amount, with carry-in 1, which is no borrow-in (D6). -/
theorem exec_dec (d : RegNo) (delta : Nat) (s : State) : exec (.dec d delta) s =
    adderResult d (addWithCarry (s.getReg d) (~~~(amount delta)) true) s := rfl

/-- Subtracting an amount can overflow downwards only. -/
theorem addWithCarry_complement_amount_overflow_iff (a : Word) {delta : Nat} (h : delta ≤ 64) :
    (addWithCarry a (~~~(amount delta)) true).overflow = true ↔ a.toInt - delta < -32768 := by
  have : a.toInt < 32768 := a.toInt_lt
  rw [addWithCarry_complement_overflow_iff (borrow := 0) rfl, amount_toInt h]
  omega

/-- Settles O37: the adder's output on the complement of an amount as numbers, under a borrow of 0 whatever the flags are. -/
theorem decSubtractsTheAmount : Obligations.DecSubtractsTheAmount := by
  unfold Obligations.DecSubtractsTheAmount
  intro d delta s _ hmax u
  have hresult : ((addWithCarry (s.getReg d) (~~~(amount delta)) true).result.toNat : Int) = u % 65536 := by
    rw [addWithCarry_complement_result (borrow := 0) rfl, amount_toNat hmax, Nat.cast_zero, sub_zero]
  obtain ⟨hreg, hregs, hz, hs, hc, hv, hcb, honly⟩ := adderResult_leaves_toNat (exec_dec d delta s)
  refine ⟨wordIncDec_eq_opBits 1#1 d delta, _, exec_dec d delta s, ?reg, hregs, ?z, ?s, ?c, ?v, hcb, honly⟩
  case reg => rw [hreg, ← hresult, Nat.cast_ite, Nat.cast_zero]
  case z => rw [hz, ← hresult, Int.natCast_eq_zero]
  case s => rw [hs, ← hresult]; omega
  case c => rw [hc, addWithCarry_complement_carry_iff (borrow := 0) rfl, amount_toNat hmax, Nat.add_zero]
  case v => rw [hv, addWithCarry_complement_amount_overflow_iff _ hmax]

end Sys2Proof.Machine
end

section
/-! PROOFS. The family 45_load_store: LOAD, the end of the logic operations on a word that is read, and STORE, one cell
written. -/

namespace Sys2Proof.Machine

/-! ### The word (R88) -/

/-- The word of LOAD or STORE with its three high bits in one piece, as the rules print it. -/
theorem wordMem_eq_top3 (t : BitVec 1) (d : BitVec 4) (o : Nat) (b : BitVec 4) : wordMem t d o b =
    (0b01#2 ++ t) ++ (BitVec.ofNat 5 o).extractLsb' 4 1 ++ d ++ (BitVec.ofNat 5 o).extractLsb' 0 4 ++ b := rfl

/-! ### LOAD (R196) -/

/-- A word that a read gives is the word of the cell, and for a cell that holds none the free value of its address (R58, D25). -/
theorem State.readData_ok_value {s : State} {a v : Word} (h : s.readData a = .ok v) :
    (∀ x, s.dm.read a = some x → v = x) ∧ (s.dm.read a = none → v = Config.uninitData a) := by
  obtain hcell | ⟨hcell, -, hfree⟩ := Memory.readOr_eq_ok.1 h
  · exact ⟨fun x hx => Option.some.inj (hcell.symm.trans hx), fun hnone => nomatch hcell.symm.trans hnone⟩
  · exact ⟨fun x hx => (nomatch hcell.symm.trans hx), fun _ => hfree.symm⟩

/-- LOAD ends as the logic operations do, with the word its cell gives in the place of their result. -/
theorem exec_load_eq_logicResult {b : RegNo} {o : Nat} {s : State} {v : Word}
    (h : s.readData (s.effectiveAddress b o) = .ok v) (d : RegNo) : exec (.load d o b) s = logicResult d v s :=
  execLoad_eq_next.2 ⟨v, h, rfl⟩

/-- Settles O38: a readable cell gives a word, and with it LOAD ends as the logic operations do. -/
theorem loadReadsTheAddressedCell : Obligations.LoadReadsTheAddressedCell := by
  unfold Obligations.LoadReadsTheAddressedCell
  intro d o b s _ ea
  refine ⟨wordMem_eq_top3 0#1 d o b, fun hreadable => ?_⟩
  obtain ⟨v, hread⟩ := hreadable.readData
  obtain ⟨hword, hfree⟩ := State.readData_ok_value hread
  have hexec : exec (.load d o b) s = logicResult d v s :=
    exec_load_eq_logicResult ((congrArg s.readData (s.effectiveAddress_eq b o)).trans hread) d
  obtain ⟨hreg, hregs, hz, hs, hv, hc, hcb, honly⟩ := logicResult_leaves (d := d) (r := v) (s := s) rfl
  refine ⟨_, v, hexec, hword, hfree, hreg, hregs, hz, ?sign, hv, hc, hcb, honly⟩
  case sign => rw [hs, ← BitVec.msb_eq_getLsbD_last, BitVec.msb_eq_toInt, decide_eq_true_iff]

/-! ### STORE (R199) -/

/-- Every cell but the written one holds what it held (R50). -/
theorem State.sameDataBut_writeData (s : State) (a v : Word) : SameDataBut a s (s.writeData a v) :=
  fun _ hx => Memory.read_write_of_ne s.dm v hx

theorem exec_store (d : RegNo) (o : Nat) (b : RegNo) (s : State) :
    exec (.store d o b) s = .next (s.writeData (s.effectiveAddress b o) (s.getReg d)).advance := rfl

/-- Settles O39: one cell is written, and the pc moves on. -/
theorem storeWritesTheAddressedCell : Obligations.StoreWritesTheAddressedCell := by
  unfold Obligations.StoreWritesTheAddressedCell
  intro d o b s _ ea
  have hexec : exec (.store d o b) s = .next (s.writeData ea (s.getReg d)).advance := by
    rw [exec_store, State.effectiveAddress_eq]
  exact ⟨wordMem_eq_top3 1#1 d o b, _, hexec, s.dm.read_write_self ea _, s.sameDataBut_writeData ea _, fun _ _ => rfl, rfl,
    rfl, ⟨rfl, rfl, rfl⟩, rfl⟩

end Sys2Proof.Machine
end

section
/-! PROOFS. The family 46_branches: the thirty branches as two families over the conditions, the comparisons after CMP, HALT,
and the stops of SWI and RTI. -/

namespace Sys2Proof.Machine

/-! ### The signed conditions as the table of R211 prints them -/

section
variable (f : Flags)

theorem Flags.holds_less : f.holds .less = (f.s != f.v) := rfl

theorem Flags.holds_greaterEq : f.holds .greaterEq = (f.s == f.v) := Bool.not_not _

theorem Flags.holds_lessEq : f.holds .lessEq = (f.s != f.v || f.z) := rfl

theorem Flags.holds_greater : f.holds .greater = (f.s == f.v && !f.z) := by
  rw [Flags.holds, Bool.not_or, ← f.holds_greaterEq, Flags.holds]

/-! Two of them are the complements of the other two. -/

theorem Flags.holds_greaterEq_eq_not : f.holds .greaterEq = !f.holds .less := rfl

theorem Flags.holds_greater_eq_not : f.holds .greater = !f.holds .lessEq := rfl

end

/-! ### A branch whose condition is known (R212, R213) -/

section
variable {s : State} {c : Cond} {taken : Bool} (h : s.flags.holds c = taken)
include h

theorem exec_branchReg_of_holds (b : RegNo) :
    exec (c.branchReg b) s = .next { s with pc := if taken then s.getReg b else s.pc + 1 } := by
  rw [exec_branchReg, branchReg, h]; rfl

theorem exec_branchRel_of_holds (o : Int) :
    exec (c.branchRel o) s = .next { s with pc := if taken then BitVec.ofInt 16 (s.pc.toNat + o) else s.pc + 1 } := by
  rw [exec_branchRel, branchRel, h, State.relTarget_eq]; rfl

/-- A row of the tables of register-mode branches: the word (R89) and the next state. -/
theorem branchReg_row (b : RegNo) : encode (c.branchReg b) = 0b0001#4 ++ c.code ++ 0b0000#4 ++ b ∧
    exec (c.branchReg b) s = .next { s with pc := if taken then s.getReg b else s.pc + 1 } :=
  ⟨encode_branchReg c b, exec_branchReg_of_holds h b⟩

/-- A row of the tables of relative branches: the word (R90) and the next state. -/
theorem branchRel_row (o : Int) : encode (c.branchRel o) = 0b0000#4 ++ c.code ++ BitVec.ofInt 8 o ∧
    exec (c.branchRel o) s = .next { s with pc := if taken then BitVec.ofInt 16 (s.pc.toNat + o) else s.pc + 1 } :=
  ⟨encode_branchRel c o, exec_branchRel_of_holds h o⟩

end

/-! ### The four tables (R211) -/

/-- Settles O41: the rows of seven conditions. -/
theorem registerBranchesOnComparisons : Obligations.RegisterBranchesOnComparisons := by
  unfold Obligations.RegisterBranchesOnComparisons
  intro b s f
  simp only [List.forall_mem_cons, List.not_mem_nil, false_imp_iff, implies_true, and_true]
  exact ⟨branchReg_row (c := .always) rfl b, branchReg_row f.holds_less b, branchReg_row f.holds_greaterEq b,
    branchReg_row f.holds_lessEq b, branchReg_row f.holds_greater b, branchReg_row (c := .lessEqU) rfl b,
    branchReg_row (c := .greaterU) rfl b⟩

/-- Settles O42: the rows of the eight conditions that are one flag or its complement. -/
theorem registerBranchesOnFlags : Obligations.RegisterBranchesOnFlags := by
  unfold Obligations.RegisterBranchesOnFlags
  intro b s f
  simp only [List.forall_mem_cons, List.not_mem_nil, false_imp_iff, implies_true, and_true]
  exact ⟨branchReg_row (c := .zero) rfl b, branchReg_row (c := .notZero) rfl b, branchReg_row (c := .carry) rfl b,
    branchReg_row (c := .notCarry) rfl b, branchReg_row (c := .sign) rfl b, branchReg_row (c := .notSign) rfl b,
    branchReg_row (c := .overflow) rfl b, branchReg_row (c := .notOverflow) rfl b⟩

/-- Settles O43: the rows of seven conditions. -/
theorem relativeBranchesOnComparisons : Obligations.RelativeBranchesOnComparisons := by
  unfold Obligations.RelativeBranchesOnComparisons
  intro o s _ _ f
  simp only [List.forall_mem_cons, List.not_mem_nil, false_imp_iff, implies_true, and_true]
  exact ⟨branchRel_row (c := .always) rfl o, branchRel_row f.holds_less o, branchRel_row f.holds_greaterEq o,
    branchRel_row f.holds_lessEq o, branchRel_row f.holds_greater o, branchRel_row (c := .lessEqU) rfl o,
    branchRel_row (c := .greaterU) rfl o⟩

/-- Settles O44: the rows of the eight conditions that are one flag or its complement. -/
theorem relativeBranchesOnFlags : Obligations.RelativeBranchesOnFlags := by
  unfold Obligations.RelativeBranchesOnFlags
  intro o s _ _ f
  simp only [List.forall_mem_cons, List.not_mem_nil, false_imp_iff, implies_true, and_true]
  exact ⟨branchRel_row (c := .zero) rfl o, branchRel_row (c := .notZero) rfl o, branchRel_row (c := .carry) rfl o,
    branchRel_row (c := .notCarry) rfl o, branchRel_row (c := .sign) rfl o, branchRel_row (c := .notSign) rfl o,
    branchRel_row (c := .overflow) rfl o, branchRel_row (c := .notOverflow) rfl o⟩

/-! ### CMP (R281) and what its flags say (R250)

The three facts about the flags of a difference are the whole of R250: each of the ten conditions combines them. -/

/-- The flags after CMP of two words: those of their difference without a borrow, carry-block kept. -/
def Flags.compared (f : Flags) (x y : Word) : Flags := f.withAdder (addWithCarry x (~~~y) true)

/-- The state after CMP: the flags of the comparison, two words on. -/
def State.compared (s : State) (a b : RegNo) : State :=
  (s.setFlags (s.flags.compared (s.getReg a) (s.getReg b))).advance.advance

theorem State.compared_pc (s : State) (a b : RegNo) : (s.compared a b).pc = s.pc + 2 := by
  rw [State.compared, State.advance_pc, State.advance_pc, State.setFlags_pc, BitVec.add_assoc]; rfl

/-- CMP writes the flags only: SETC fixes the carry-in of SUB, and SUB's result is dropped by R0. -/
theorem execAll_cmpSequence (a b : RegNo) (s : State) : execAll (cmpSequence a b) s = .next (s.compared a b) := by
  rw [cmpSequence, execAll_cons_of_next (exec_setc s), execAll, exec_sub, adderResult, State.setReg_zero]
  rfl

section
variable (f : Flags) (x y : Word)

/-- The difference is 0 exactly for equal words. -/
theorem Flags.compared_z : (f.compared x y).z = decide (x = y) := by
  have hresult := addWithCarry_complement_result (a := x) (b := y) (k := true) (borrow := 0) rfl
  have hx := x.isLt
  have hy := y.isLt
  rw [Bool.eq_iff_iff, decide_eq_true_iff, Flags.compared, Flags.withAdder_z, zeroOf_iff, ← BitVec.toNat_inj]
  omega

/-- The carry says that there was no borrow (D5). -/
theorem Flags.compared_c : (f.compared x y).c = decide (y.toNat ≤ x.toNat) := by
  rw [Bool.eq_iff_iff, decide_eq_true_iff, Flags.compared, Flags.withAdder_c,
    addWithCarry_complement_carry_iff (borrow := 0) rfl, Nat.add_zero]

/-- The sign of the difference, corrected by the overflow, is the sign of the exact difference. -/
theorem Flags.compared_s_bne_v : ((f.compared x y).s != (f.compared x y).v) = decide (x.toInt < y.toInt) := by
  have hresult := addWithCarry_complement_result (a := x) (b := y) (k := true) (borrow := 0) rfl
  have hx := x.isLt
  have hy := y.isLt
  have hs : (f.compared x y).s = true ↔ 32768 ≤ (addWithCarry x (~~~y) true).result.toNat := signOf_iff _
  have hv : (f.compared x y).v = true ↔ x.toInt - y.toInt - (0 : Nat) < -32768 ∨ 32767 < x.toInt - y.toInt - (0 : Nat) :=
    addWithCarry_complement_overflow_iff rfl
  rw [toInt_eq_ite x, toInt_eq_ite y] at hv ⊢
  rw [Bool.eq_iff_iff, bne_iff_ne, ne_eq, Bool.eq_iff_iff, hs, hv, decide_eq_true_iff]
  split <;> split <;> omega

/-! The ten rows of R250. -/

theorem Flags.compared_less : (f.compared x y).holds .less = decide (x.toInt < y.toInt) := f.compared_s_bne_v x y

theorem Flags.compared_greaterEq : (f.compared x y).holds .greaterEq = decide (y.toInt ≤ x.toInt) := by
  simp only [Flags.holds_greaterEq_eq_not, Flags.compared_less, ← decide_not, Int.not_lt]

theorem Flags.compared_lessEq : (f.compared x y).holds .lessEq = decide (x.toInt ≤ y.toInt) := by
  rw [Flags.holds_lessEq, Flags.compared_s_bne_v, Flags.compared_z, ← Bool.decide_or, decide_eq_decide,
    ← BitVec.toInt_inj, Int.le_iff_lt_or_eq]

theorem Flags.compared_greater : (f.compared x y).holds .greater = decide (y.toInt < x.toInt) := by
  simp only [Flags.holds_greater_eq_not, Flags.compared_lessEq, ← decide_not, Int.not_le]

theorem Flags.compared_lessEqU : (f.compared x y).holds .lessEqU = decide (x.toNat ≤ y.toNat) := by
  simp only [Flags.holds, Flags.compared_c, Flags.compared_z, ← decide_not, ← Bool.decide_or, decide_eq_decide,
    ← BitVec.toNat_inj]
  omega

theorem Flags.compared_greaterU : (f.compared x y).holds .greaterU = decide (y.toNat < x.toNat) := by
  simp only [Flags.holds, Flags.compared_c, Flags.compared_z, ← decide_not, ← Bool.decide_and, decide_eq_decide,
    ← BitVec.toNat_inj]
  omega

theorem Flags.compared_zero : (f.compared x y).holds .zero = decide (x = y) := f.compared_z x y

theorem Flags.compared_notZero : (f.compared x y).holds .notZero = decide (x ≠ y) := by
  rw [Flags.holds, Flags.compared_z, ← decide_not]

theorem Flags.compared_carry : (f.compared x y).holds .carry = decide (y.toNat ≤ x.toNat) := f.compared_c x y

theorem Flags.compared_notCarry : (f.compared x y).holds .notCarry = decide (x.toNat < y.toNat) := by
  simp only [Flags.holds, Flags.compared_c, ← decide_not, Nat.not_le]

end

/-- The target of a relative branch that stands two words further on (R213). -/
theorem ofInt_toNat_add_two (w : Word) (o : Int) :
    BitVec.ofInt 16 ((w + 2).toNat + o) = BitVec.ofInt 16 (w.toNat + 2 + o) := by
  simp only [BitVec.ofInt_add, BitVec.ofInt_natCast, BitVec.ofNat_toNat, BitVec.setWidth_eq]
  rfl

/-- Both branches on a condition after CMP, the condition known of the two registers. -/
theorem exec_branches_compared {s : State} {a b : RegNo} {c : Cond} {taken : Bool}
    (h : (s.flags.compared (s.getReg a) (s.getReg b)).holds c = taken) (r : RegNo) (o : Int) :
    exec (c.branchReg r) (s.compared a b) =
      .next { s.compared a b with pc := if taken then s.getReg r else s.pc + 3 } ∧
    exec (c.branchRel o) (s.compared a b) =
      .next { s.compared a b with pc := if taken then BitVec.ofInt 16 (s.pc.toNat + 2 + o) else s.pc + 3 } := by
  have htaken : (s.compared a b).flags.holds c = taken := h
  have hnext : s.pc + 2 + 1 = s.pc + 3 := BitVec.add_assoc ..
  rw [exec_branchReg_of_holds htaken, exec_branchRel_of_holds htaken, State.compared_pc, hnext, ofInt_toNat_add_two]
  exact ⟨rfl, rfl⟩

/-- Settles O45: CMP leaves the flags of the difference, and each row is a condition on them. -/
theorem branchesAfterCompareMeanWhatTheySay : Obligations.BranchesAfterCompareMeanWhatTheySay := by
  unfold Obligations.BranchesAfterCompareMeanWhatTheySay
  intro a b r o s _ _
  refine ⟨_, execAll_cmpSequence a b s, fun _ _ => rfl, fun _ => rfl, rfl, ?rows⟩
  simp only [List.forall_mem_cons, List.not_mem_nil, false_imp_iff, implies_true, and_true]
  exact ⟨exec_branches_compared (Flags.compared_less ..) r o, exec_branches_compared (Flags.compared_greaterEq ..) r o,
    exec_branches_compared (Flags.compared_lessEq ..) r o, exec_branches_compared (Flags.compared_greater ..) r o,
    exec_branches_compared (Flags.compared_lessEqU ..) r o, exec_branches_compared (Flags.compared_greaterU ..) r o,
    exec_branches_compared (Flags.compared_zero ..) r o, exec_branches_compared (Flags.compared_notZero ..) r o,
    exec_branches_compared (Flags.compared_carry ..) r o, exec_branches_compared (Flags.compared_notCarry ..) r o⟩

/-! ### HALT and NOP (R247) -/

/-- BRR with offset 0 goes to itself. -/
theorem exec_halt (s : State) : exec (.brr 0) s = .next s := by
  have htarget : s.relTarget 0 = s.pc := BitVec.add_zero s.pc
  exact (exec_branchRel .always 0 s).trans (congrArg (fun w => Host.Outcome.next (s.setPc w)) htarget)

/-- BRR with offset 1 goes where an instruction that falls through goes. -/
theorem exec_nop (s : State) : exec (.brr 1) s = .next { s with pc := s.pc + 1 } :=
  exec_branchRel .always 1 s

/-- A machine that has halted steps to its own state. -/
theorem State.Halted.step_eq {s : State} (h : s.Halted) : step s = .next s := by
  obtain ⟨hmark, hfetch⟩ := h
  rw [step_of_fetchDecode_ok hmark (State.fetchDecode_eq_ok.2 ⟨0, hfetch, decode_wordBrel .always (o := 0) rfl⟩)]
  exact exec_halt s

/-- Any number of steps from a fixed point of a machine's step ends there. -/
theorem run_of_step_fixed {M : Host.Core} {s : M.State} (h : M.step s = .next s) (n : Nat) : M.run n s = .next s := by
  induction n with
  | zero => rfl
  | succ n ih => rw [Host.Core.run, h]; exact ih

/-- A fixed point of the step is safe for any number of steps. -/
theorem State.safeFor_of_step_fixed {s : State} (h : step s = .next s) (n : Nat) : s.SafeFor n := by
  induction n with
  | zero => trivial
  | succ n ih => exact ⟨s, h, ih⟩

/-- Settles O46: HALT is a fixed point of its meaning, hence of the step and of any number of steps. -/
theorem haltIsAFixedPoint : Obligations.HaltIsAFixedPoint := by
  unfold Obligations.HaltIsAFixedPoint
  exact ⟨rfl, rfl, fun s => ⟨exec_halt s, exec_nop s⟩,
    fun s n h => ⟨run_of_step_fixed (M := Sys2Proof.core) h.step_eq n, State.safeFor_of_step_fixed h.step_eq n⟩⟩

/-! ### SWI and RTI (R244, R245) -/

/-- An instruction in the fetched cell whose meaning is a stop leaves the state marked with it. -/
theorem State.afterStep_of_fetched_stop {s : State} {w : Word} {i : Instr} {x : Stop} (hmark : s.faultMark = none)
    (hcell : s.im.read s.pc = some w) (hdecode : decode w = .ok i) (hstop : exec i s = raise x) :
    s.afterStep = s.mark x := by
  have hfetch : s.fetch = .ok w := Memory.readOr_eq_ok.2 (.inl hcell)
  have hstep : step s = exec i s := step_of_fetchDecode_ok hmark (State.fetchDecode_eq_ok.2 ⟨w, hfetch, hdecode⟩)
  exact (State.afterStep_of_stop (hstep.trans hstop)).1

/-- The word of SWI as a number (R108). -/
theorem wordSwi_eq_ofNat {n : Nat} (h : n ≤ 15) : wordSwi n = BitVec.ofNat 16 (0x1100 + n) := by
  apply BitVec.eq_of_toNat_eq
  rw [wordSwi_toNat, BitVec.toNat_ofNat]
  omega

theorem decode_swi {n : Nat} (h : n ≤ 15) : decode (BitVec.ofNat 16 (0x1100 + n)) = .ok (.swi n) :=
  decode_eq_ok_iff.2 ⟨decide_eq_true h, wordSwi_eq_ofNat h⟩

/-- Settles O9: both meanings are stops, and the words decode to them. -/
theorem swiAndRtiRefuse : Obligations.SwiAndRtiRefuse := by
  unfold Obligations.SwiAndRtiRefuse
  intro s
  exact ⟨fun _ => rfl, rfl, fun _ hn hmark hcell => State.afterStep_of_fetched_stop hmark hcell (decode_swi hn) rfl,
    fun hmark hcell => State.afterStep_of_fetched_stop hmark hcell (i := .rti) rfl rfl⟩

end Sys2Proof.Machine
end

section
/-! PROOFS. The family 47_call_return: CALL, RETURN, and a RETURN that undoes a CALL. -/

namespace Sys2Proof.Machine

/-! ### What every instruction keeps, continued -/

theorem Effect.faultMark_eq {i : Instr} {s t : State} (h : Effect s i t) : t.faultMark = s.faultMark := by
  cases h <;> simp

/-- No instruction writes the instruction memory, the fault mark or the parameters. -/
theorem exec_sameCode {i : Instr} {s t : State} (h : exec i s = .next t) : SameCode s t :=
  ⟨(exec_effect h).im_eq, (exec_effect h).faultMark_eq, exec_params h⟩

/-- Where the table names no flag, all five are kept. -/
theorem Flags.KeptOutside.eq_of_none {f g : Flags} (h : Flags.KeptOutside ⟨false, false, false, false, false⟩ f g) :
    g = f := by
  obtain ⟨hs, hz, hv, hc, hcb⟩ := h
  cases f
  cases g
  simp_all only

/-- An instruction without an entry in R31's table keeps the flags. -/
theorem exec_flags_eq {i : Instr} {s t : State} (h : exec i s = .next t)
    (hnone : flagsWritten i = ⟨false, false, false, false, false⟩) : t.flags = s.flags :=
  Flags.KeptOutside.eq_of_none (hnone ▸ (exec_effect h).keptOutside)

/-! ### CALL (R261) -/

/-- The five transfers of CALL, each from the state before (D21). -/
theorem exec_call_transfers {n : Nat} {b : RegNo} {s t : State} (h : exec (.call n b) s = .next t) :
    t.dm = s.dm.write (s.getReg sp) (s.pc + 1) ∧ t.pc = s.getReg b ∧ t.getReg rt = s.getReg fp ∧
      t.getReg fp = s.getReg sp ∧ t.getReg sp = s.raisedSp n := by
  obtain rfl := Host.Outcome.next.inj h
  simp [State.getReg_setReg, rt, fp, sp]

/-- The raised stack pointer as the spec writes it (R261, D2). -/
theorem State.raisedSp_toNat (s : State) (n : Nat) : (s.raisedSp n).toNat = ((s.getReg sp).toNat + n) % 65536 := by
  simp only [State.raisedSp, BitVec.toNat_add, BitVec.toNat_ofNat, Nat.reducePow, Nat.add_mod_mod]

/-- Settles O47: the five transfers, and the rules of all instructions for what is kept. -/
theorem callLinksTheFrames : Obligations.CallLinksTheFrames := by
  unfold Obligations.CallLinksTheFrames
  intro n b s _
  obtain ⟨t, h⟩ : ∃ t, exec (.call n b) s = .next t := ⟨_, rfl⟩
  obtain ⟨hdm, hpc, hrt, hfp, hsp⟩ := exec_call_transfers h
  refine ⟨rfl, t, h, ?cell, ?others, hpc, hrt, hfp, ?sp, (exec_effect h).sameRegsBut, exec_flags_eq h rfl, exec_sameCode h,
    (exec_effect h).draws_eq (by simp)⟩
  case cell => rw [hdm, Memory.read_write_self]
  case others => exact fun x hx => by rw [hdm, Memory.read_write_of_ne s.dm _ hx]
  case sp => rw [hsp, State.raisedSp_toNat]

/-! ### RETURN (R264) -/

/-- A RETURN whose cell at FP gives a word completes with its three transfers, each from the state before (D21). -/
theorem exec_ret_transfers {s : State} {v : Word} (h : s.readData (s.getReg fp) = .ok v) :
    ∃ t, exec .ret s = .next t ∧ t.pc = v ∧ t.getReg fp = s.getReg rt ∧ t.getReg sp = s.getReg fp :=
  ⟨_, execRet_eq_next.2 ⟨v, h, rfl⟩, rfl, by simp [State.getReg_setReg, fp, sp]⟩

/-- Settles O48: a readable cell gives a word, and the rules of all instructions say what is kept. -/
theorem returnUnlinksTheFrame : Obligations.ReturnUnlinksTheFrame := by
  unfold Obligations.ReturnUnlinksTheFrame
  refine fun s => ⟨rfl, fun hreadable => ?_⟩
  obtain ⟨v, hread⟩ := hreadable.readData
  obtain ⟨hword, hfree⟩ := State.readData_ok_value hread
  obtain ⟨t, h, hpc, hfp, hsp⟩ := exec_ret_transfers hread
  refine ⟨t, h, fun x hx => hpc.trans (hword x hx), fun hnone => hpc.trans (hfree hnone), hfp, hsp,
    (exec_effect h).sameRegsBut, exec_flags_eq h rfl, ?data, exec_sameCode h, (exec_effect h).draws_eq (by simp)⟩
  case data => exact fun a => by rw [(exec_effect h).dm_eq (by simp) (by simp)]

/-! ### RETURN after CALL (R265) -/

/-- Settles O49: CALL left the return address at the old SP, which it left in FP, and the old FP in R13; RETURN moves each
back, and R13 is none of the registers that it writes. -/
theorem returnUndoesCall : Obligations.ReturnUndoesCall := by
  unfold Obligations.ReturnUndoesCall
  intro n b s t u hcall hufp hurt hucell
  obtain ⟨hdm, -, hrt, hfp, -⟩ := exec_call_transfers hcall
  have hcell : u.dm.read (u.getReg fp) = some (s.pc + 1) := by rw [hufp, hucell, hfp, hdm, Memory.read_write_self]
  obtain ⟨w, hret, hpc, hwfp, hwsp⟩ := exec_ret_transfers (Memory.readOr_eq_ok.2 (.inl hcell))
  have hwrt : w.getReg rt = u.getReg rt := (exec_effect hret).sameRegsBut rt (by decide)
  exact ⟨w, hret, hpc, hwfp.trans (hurt.trans hrt), hwsp.trans (hufp.trans hfp), hwrt.trans (hurt.trans hrt)⟩

end Sys2Proof.Machine
end

section
/-! PROOFS. The family 48_assembly_pseudo_ops: FLAGS, NEG and NOT, the images of an assembled program, and the forms of
relative branches to labels. -/

namespace Sys2Proof.Machine

/-! ### FLAGS (R290) -/

/-- The adder on a word and 0 without a carry-in gives the word and overflows in neither sense. -/
theorem addWithCarry_zero (x : Word) : addWithCarry x 0 false = ⟨x, false, false⟩ := by
  have hunsigned := x.isLt
  have hlo := x.le_toInt
  have hhi := x.toInt_lt
  simp only [addWithCarry, BitVec.ofNat_eq_ofNat, BitVec.toNat_ofNat, Nat.zero_mod, add_zero, Bool.toNat_false,
    BitVec.ofNat_toNat, BitVec.setWidth_eq, BitVec.toInt_zero, Nat.cast_zero, AdderOut.mk.injEq,
    decide_eq_false_iff_not, Bool.or_eq_false_iff, true_and]
  omega

/-- FLAGS writes the flags only: CLRC fixes the carry-in of ADD to 0 whatever carry-block is, and R0 drops the sum. -/
theorem execAll_flagsSequence (a : RegNo) (s : State) : execAll (flagsSequence a) s =
    .next (s.setFlags (s.flags.withAdder ⟨s.getReg a, false, false⟩)).advance.advance := by
  rw [flagsSequence, execAll_cons_of_next (exec_clrc s), execAll, exec_add, adderResult, State.setReg_zero,
    State.getReg_zero, ← addWithCarry_zero]
  rfl

/-- s of a result as a signed number (R9, R17). -/
theorem signOf_iff_toInt (r : Word) : signOf r = true ↔ r.toInt < 0 := by
  rw [signOf, BitVec.msb_eq_toInt, decide_eq_true_iff]

theorem State.advance_advance_pc (s : State) : s.advance.advance.pc = s.pc + 2 := by
  rw [State.advance_pc, State.advance_pc, BitVec.add_assoc]; rfl

/-- Settles O53: the flags of the register added to 0. -/
theorem flagsSequenceDescribesTheRegister : Obligations.FlagsSequenceDescribesTheRegister := by
  unfold Obligations.FlagsSequenceDescribesTheRegister
  intro a s
  exact ⟨rfl, _, execAll_flagsSequence a s, fun _ _ => rfl, beq_iff_eq, signOf_iff_toInt _, rfl, rfl, rfl,
    State.advance_advance_pc _, fun _ => rfl⟩

/-! ### NEG (R282) -/

section
variable (b : Word)

/-- The adder on 0 and a complement with a carry-in negates. -/
theorem addWithCarry_neg_result : (addWithCarry 0 (~~~b) true).result = -b := by
  rw [addWithCarry_result]
  bv_omega

/-- 0 - b does not borrow exactly for 0 (D5). -/
theorem addWithCarry_neg_carry_iff : (addWithCarry 0 (~~~b) true).carry = true ↔ b = 0 := by
  rw [addWithCarry_complement_carry_iff (borrow := 0) rfl, ← BitVec.toNat_inj]
  simp

/-- Only the least signed number has no negation of 16 bits. -/
theorem addWithCarry_neg_overflow_iff : (addWithCarry 0 (~~~b) true).overflow = true ↔ b = 0x8000#16 := by
  have hb := b.isLt
  have hzero : (0 : Word).toInt = 0 := rfl
  rw [addWithCarry_complement_overflow_iff (borrow := 0) rfl, hzero, toInt_eq_ite b, ← BitVec.toNat_inj,
    BitVec.toNat_ofNat]
  split <;> omega

end

/-- NEG ends as SUB from R0 does, the carry-in fixed by SETC. -/
theorem execAll_negSequence (d b : RegNo) (s : State) : execAll (negSequence d b) s =
    adderResult d (addWithCarry 0 (~~~(s.getReg b)) true) s.advance := by
  rw [negSequence, execAll_cons_of_next (exec_setc s), execAll, exec_sub, State.getReg_zero]
  rw [← adderResult_withCarry d _ s.advance true]
  rfl

/-! ### NOT (R283) -/

/-- A sequence that completes is followed by the sequence behind it. -/
theorem execAll_append_of_next {is : List Instr} {s t : State} (h : execAll is s = .next t) (js : List Instr) :
    execAll (is ++ js) s = execAll js t := by
  induction is generalizing s with
  | nil => rw [List.nil_append, Host.Outcome.next.inj h]
  | cons i is ih =>
    rw [execAll] at h
    rw [List.cons_append, execAll]
    cases hi : exec i s with
    | next u => rw [hi] at h; exact ih h
    | fault f => rw [hi] at h; cases h
    | refused r => rw [hi] at h; cases h

/-- NOT's operand mask of all ones complements, and R13 is its own mask by then. -/
theorem State.allOnes_xor_getReg_setReg_rt (s : State) (b : RegNo) :
    0xFFFF#16 ^^^ (s.setReg rt 0xFFFF#16).getReg b = if b = rt then 0 else ~~~(s.getReg b) := by
  by_cases hb : b = rt
  · rw [if_pos hb, hb, State.getReg_setReg_self s (by decide), BitVec.xor_self]
    rfl
  · rw [if_neg hb, State.getReg_setReg_of_ne s hb]
    exact BitVec.allOnes_xor

theorem exec_xor (d a b : RegNo) (s : State) : exec (.xor d a b) s = logicResult d (s.getReg a ^^^ s.getReg b) s := rfl

/-- NOT ends as XOR does, from the state whose R13 holds all ones. -/
theorem execAll_notSequence (d b : RegNo) (s : State) : execAll (notSequence d b) s =
    logicResult d (if b = rt then 0 else ~~~(s.getReg b)) (s.setReg rt 0xFFFF#16).advance.advance := by
  rw [notSequence, execAll_append_of_next (execAll_setSequence rt 0xFFFF#16 s), execAll, exec_xor]
  simp only [State.advance_getReg]
  rw [State.getReg_setReg_self s (by decide), State.allOnes_xor_getReg_setReg_rt]
  rfl

/-- A sequence that writes one register and then another writes no third. -/
theorem SameRegsBut.trans {c d : RegNo} {s t u : State} (h : SameRegsBut [c] s t) (k : SameRegsBut [d] t u) :
    SameRegsBut [d, c] s u := by
  intro r hr
  obtain ⟨hd, hc⟩ : r ≠ d ∧ r ≠ c := by simpa using hr
  exact (k r (by simpa using hd)).trans (h r (by simpa using hc))

/-- Settles O54: NEG ends as the adder on 0 and the complement does, NOT as XOR with all ones, which stay in R13. -/
theorem negAndNotSequences : Obligations.NegAndNotSequences := by
  unfold Obligations.NegAndNotSequences
  refine fun d b s => ⟨?neg, ?not⟩
  case neg =>
    obtain ⟨t, h⟩ : ∃ t, adderResult d (addWithCarry 0 (~~~(s.getReg b)) true) s.advance = .next t := ⟨_, rfl⟩
    obtain ⟨hreg, hregs, hflags, -, hdata, -⟩ := adderResult_leaves h
    rw [addWithCarry_neg_result] at hreg
    refine ⟨t, (execAll_negSequence d b s).trans h, hreg, hregs, ?s, ?z, ?c, ?v, ?cb, hdata⟩
    case s => rw [hflags, Flags.withAdder_s, addWithCarry_neg_result, signOf_iff_toInt]
    case z => rw [hflags, Flags.withAdder_z, addWithCarry_neg_result, zeroOf, beq_iff_eq, neg_eq_zero]
    case c => rw [hflags, Flags.withAdder_c, addWithCarry_neg_carry_iff]
    case v => rw [hflags, Flags.withAdder_v, addWithCarry_neg_overflow_iff]
    case cb => rw [hflags]; rfl
  case not =>
    obtain ⟨t, h⟩ : ∃ t, logicResult d (if b = rt then 0 else ~~~(s.getReg b))
      (s.setReg rt 0xFFFF#16).advance.advance = .next t := ⟨_, rfl⟩
    obtain ⟨hreg, hregs, hz, hs, hv, hc, hcb, -, hdata, -⟩ := logicResult_leaves h
    have hset : (s.setReg rt 0xFFFF#16).advance.advance.flags = s.flags := s.setReg_flags rt 0xFFFF#16
    refine ⟨t, _, (execAll_notSequence d b s).trans h, rfl, hreg, ?s, hz, ?v, ?c, ?cb, ?rt, ?regs, ?data⟩
    case s => rw [hs, ← BitVec.msb_eq_getLsbD_last, BitVec.msb_eq_toInt, decide_eq_true_iff]
    case v => rw [hv, hset]
    case c => rw [hc, hset]
    case cb => rw [hcb, hset]
    case rt =>
      intro hd
      rw [hregs rt (by simpa using hd.symm)]
      exact State.getReg_setReg_self s (by decide) _
    case regs => exact (s.sameRegsBut_setReg rt _).trans hregs
    case data => exact fun a => (hdata a).trans (s.sameData_setReg rt 0xFFFF#16 a)

/-! ### The words of an item (R279, R299) -/

/-- The address of a label is passed to the sequence of an item that needs it. -/
theorem addressOf_map_ok {α : Type} {table : List (Label × Word)} {l : Label} {f : Word → α} {x : α}
    (h : (addressOf table l).map f = .ok x) : ∃ a, addressOf table l = .ok a ∧ x = f a := by
  cases ha : addressOf table l with
  | error e => rw [ha] at h; cases h
  | ok a => rw [ha] at h; exact ⟨a, rfl, (Except.ok.inj h).symm⟩

/-- An item expands to as many instructions as it was counted for; the address of a label changes their operands only. -/
theorem Item.length_expand {table : List (Label × Word)} {here : Word} {it : Item} {is : List Instr}
    (h : it.expand table here = .ok is) : is.length = it.instrCount := by
  cases it with
  | setLabel d l | callLabel n l | branchLabel c l | branchRelLabel c l =>
    obtain ⟨a, -, rfl⟩ := addressOf_map_ok h
    rfl
  | _ =>
    obtain rfl := Except.ok.inj h
    rfl

/-- One item of the instruction image: the words of its instructions, all inside their operand ranges and as many as it was
counted for, then the image of the rest. -/
theorem instrImage_cons_words {table : List (Label × Word)} {here : Word} {it : Item} {rest : List Item} {im : List Word}
    (h : instrImage table here (it :: rest) = .ok im) :
    ∃ is more, it.expand table here = .ok is ∧ (∀ i ∈ is, i.WellFormed) ∧ (is.map encode).length = it.instrCount ∧
      instrImage table (here + BitVec.ofNat 16 it.instrCount) rest = .ok more ∧ im = is.map encode ++ more := by
  obtain ⟨is, ws, more, hexpand, hencode, hmore, rfl⟩ := instrImage_cons_ok h
  obtain ⟨rfl, hwf⟩ := encodeAll_ok hencode
  exact ⟨is, more, hexpand, hwf, by rw [List.length_map, Item.length_expand hexpand], hmore, rfl⟩

/-! ### The instruction image (R392) -/

theorem instrImage_length {table : List (Label × Word)} {here : Word} {prog : List Item} {im : List Word}
    (h : instrImage table here prog = .ok im) : im.length = (prog.map Item.instrCount).sum := by
  induction prog generalizing here im with
  | nil => obtain rfl := Except.ok.inj h; rfl
  | cons it rest ih =>
    obtain ⟨is, more, -, -, hlen, hmore, rfl⟩ := instrImage_cons_words h
    rw [List.length_append, hlen, ih hmore, List.map_cons, List.sum_cons]

theorem instrImage_decodes {table : List (Label × Word)} {here : Word} {prog : List Item} {im : List Word}
    (h : instrImage table here prog = .ok im) : ∀ w ∈ im, ∃ i, decode w = .ok i := by
  induction prog generalizing here im with
  | nil => obtain rfl := Except.ok.inj h; simp
  | cons it rest ih =>
    obtain ⟨is, more, -, hwf, -, hmore, rfl⟩ := instrImage_cons_words h
    intro w hw
    rcases List.mem_append.1 hw with hw | hw
    · obtain ⟨i, hi, rfl⟩ := List.mem_map.1 hw
      exact ⟨i, decode_encode (hwf i hi)⟩
    · exact ih hmore w hw

/-- The words of an item stand behind those of the items before it, expanded where it stands. -/
theorem instrImage_append_cons {table : List (Label × Word)} {here : Word} {pre : List Item} {it : Item}
    {post : List Item} {im : List Word} (h : instrImage table here (pre ++ it :: post) = .ok im) :
    ∃ is, it.expand table (here + BitVec.ofNat 16 (pre.map Item.instrCount).sum) = .ok is ∧ (∀ i ∈ is, i.WellFormed) ∧
      (im.drop (pre.map Item.instrCount).sum).take it.instrCount = is.map encode := by
  induction pre generalizing here im with
  | nil =>
    obtain ⟨is, more, hexpand, hwf, hlen, -, rfl⟩ := instrImage_cons_words h
    exact ⟨is, by simpa using hexpand, hwf, List.take_left' hlen⟩
  | cons x pre ih =>
    obtain ⟨js, more, -, -, hlen, hmore, rfl⟩ := instrImage_cons_words h
    obtain ⟨is, hexpand, hwf, hwords⟩ := ih hmore
    refine ⟨is, ?_, hwf, ?_⟩
    · rwa [List.map_cons, List.sum_cons, BitVec.ofNat_add, ← BitVec.add_assoc]
    · rwa [List.map_cons, List.sum_cons, ← List.drop_drop, List.drop_left' hlen]

/-! ### The data image (R392) -/

theorem flatten_dataWords_length (prog : List Item) :
    (prog.map Item.dataWords).flatten.length = (prog.map fun it => it.dataWords.length).sum := by
  rw [List.length_flatten, List.map_map]
  rfl

/-- The data words of an item stand behind those of the items before it. -/
theorem flatten_dataWords_append_cons (pre : List Item) (it : Item) (post : List Item) :
    (((pre ++ it :: post).map Item.dataWords).flatten.drop (pre.map fun x => x.dataWords.length).sum).take
      it.dataWords.length = it.dataWords := by
  rw [List.map_append, List.flatten_append, List.drop_left' (flatten_dataWords_length pre), List.map_cons,
    List.flatten_cons, List.take_left]

/-! ### The addresses of the labels (R278) -/

/-- The labels of a part of a program stand where that part does. -/
theorem symbols_append (here dataHere : Word) (pre post : List Item) :
    symbols here dataHere (pre ++ post) = symbols here dataHere pre ++
      symbols (here + BitVec.ofNat 16 (pre.map Item.instrCount).sum)
        (dataHere + BitVec.ofNat 16 (pre.map fun x => x.dataWords.length).sum) post := by
  induction pre generalizing here dataHere with
  | nil => simp [symbols]
  | cons it rest ih => simp [symbols, ih, BitVec.add_assoc, BitVec.ofNat_add]

/-- An item that is no definition of a name does not give it an address. -/
theorem Item.lookup_defines_eq_none {it : Item} {l : Label} (hlabel : it ≠ .label l) (hdlabel : it ≠ .dlabel l)
    (here dataHere : Word) : (it.defines here dataHere).toList.lookup l = none := by
  cases it with
  | label m =>
    have hne : l ≠ m := fun h => hlabel (h ▸ rfl)
    simp [Item.defines, List.lookup_cons, beq_false_of_ne hne]
  | dlabel m =>
    have hne : l ≠ m := fun h => hdlabel (h ▸ rfl)
    simp [Item.defines, List.lookup_cons, beq_false_of_ne hne]
  | _ => rfl

/-- A name that no item defines has no address. -/
theorem lookup_symbols_eq_none {prog : List Item} {l : Label} (hlabel : .label l ∉ prog) (hdlabel : .dlabel l ∉ prog)
    (here dataHere : Word) : (symbols here dataHere prog).lookup l = none := by
  induction prog generalizing here dataHere with
  | nil => rfl
  | cons it rest ih =>
    obtain ⟨hlabelHead, hlabelRest⟩ := List.ne_and_not_mem_of_not_mem_cons hlabel
    obtain ⟨hdlabelHead, hdlabelRest⟩ := List.ne_and_not_mem_of_not_mem_cons hdlabel
    rw [symbols, List.lookup_append, Item.lookup_defines_eq_none hlabelHead.symm hdlabelHead.symm,
      ih hlabelRest hdlabelRest]
    rfl

/-- The address of a name is the one that its first definition gives it. -/
theorem addressOf_symbols_of_first {pre : List Item} {it : Item} {post : List Item} {l : Label} {a : Word}
    (hlabel : .label l ∉ pre) (hdlabel : .dlabel l ∉ pre)
    (ha : it.defines (BitVec.ofNat 16 (pre.map Item.instrCount).sum)
      (BitVec.ofNat 16 (pre.map fun x => x.dataWords.length).sum) = some (l, a)) :
    addressOf (symbols 0 0 (pre ++ it :: post)) l = .ok a := by
  have hlookup : (symbols 0 0 (pre ++ it :: post)).lookup l = some a := by
    rw [symbols_append, List.lookup_append, lookup_symbols_eq_none hlabel hdlabel, symbols]
    simp [ha]
  rw [addressOf, hlookup]

/-- Settles O55: the two images of the laid-out program item by item, its labels by their first definitions. -/
theorem assembledImagesAreLaidOutAndDecode : Obligations.AssembledImagesAreLaidOutAndDecode := by
  unfold Obligations.AssembledImagesAreLaidOutAndDecode
  refine ⟨fun _ _ _ _ h => Item.length_expand h, fun prog im dm h => ?_⟩
  obtain ⟨-, hlayout⟩ := assemble_ok h
  obtain ⟨him, rfl⟩ := layout_ok hlayout
  refine ⟨?item, instrImage_length him, flatten_dataWords_length _, instrImage_decodes him⟩
  case item =>
    intro pre it post hq
    rw [hq] at him ⊢
    obtain ⟨is, hexpand, hwf, hwords⟩ := instrImage_append_cons him
    refine ⟨⟨is, by simpa using hexpand, hwf, hwords⟩, flatten_dataWords_append_cons pre it post,
      fun l hlabel hdlabel => ⟨?label, ?dlabel⟩⟩
    case label => rintro rfl; exact addressOf_symbols_of_first hlabel hdlabel rfl
    case dlabel => rintro rfl; exact addressOf_symbols_of_first hlabel hdlabel rfl

/-! ### The rounds of the assembler (R298) -/

theorem forall₂_sameOrLong_refl (prog : List Item) : List.Forall₂ Item.SameOrLong prog prog :=
  List.forall₂_same.2 fun _ _ => .inl rfl

theorem forall₂_sameOrLong_trans {p q r : List Item} (h : List.Forall₂ Item.SameOrLong p q)
    (k : List.Forall₂ Item.SameOrLong q r) : List.Forall₂ Item.SameOrLong p r := by
  induction h generalizing r with
  | nil => exact k
  | cons hit _ ih =>
    cases k with
    | cons kit krest => exact .cons (hit.trans kit) (ih krest)

/-- Any number of rounds changes nothing but the form of relative branches to labels. -/
theorem lengthenRounds_forall₂ (n : Nat) (prog : List Item) :
    List.Forall₂ Item.SameOrLong prog (lengthenRounds n prog) := by
  induction n generalizing prog with
  | zero => exact forall₂_sameOrLong_refl prog
  | succ n ih => exact forall₂_sameOrLong_trans (lengthen_forall₂ _ 0 prog) (ih _)

/-- A program that a round, in the program's own layout, leaves as it is. -/
def Settled (prog : List Item) : Prop := lengthen (symbols 0 0 prog) 0 prog = prog

/-- A settled program is one whose items all reach where they stand. -/
theorem settled_iff {prog : List Item} : Settled prog ↔ ∀ pre it post, prog = pre ++ it :: post →
    it.reaches (symbols 0 0 prog) (BitVec.ofNat 16 (pre.map Item.instrCount).sum) = true := by
  rw [Settled, lengthen_eq_self_iff]
  simp only [zero_add]

theorem Settled.lengthenRounds_eq {prog : List Item} (h : Settled prog) (n : Nat) : lengthenRounds n prog = prog := by
  induction n with
  | zero => rfl
  | succ n ih => rw [lengthenRounds, h, ih]

/-- As many rounds as there are relative branches to labels leave a settled program: a round that changes anything leaves
fewer of them. -/
theorem settled_lengthenRounds {n : Nat} {prog : List Item} (h : prog.countP Item.isShort ≤ n) :
    Settled (lengthenRounds n prog) := by
  induction n generalizing prog with
  | zero => exact (lengthen_eq_or_lt _ 0 prog).resolve_right (by omega)
  | succ n ih =>
    rcases lengthen_eq_or_lt (symbols 0 0 prog) 0 prog with hsame | hfewer
    · rw [Settled.lengthenRounds_eq hsame]; exact hsame
    · exact ih (by omega)

theorem settled_chooseForms (prog : List Item) : Settled (chooseForms prog) := settled_lengthenRounds le_rfl

/-! ### Relative branches that reach, and those that a round lengthened (R296, R297, R298) -/

/-- A relative branch with a defined label reaches it exactly where its offset fits (R296). -/
theorem Item.branchRelLabel_reaches_iff {table : List (Label × Word)} {here : Word} {c : Cond} {l : Label} {a : Word}
    (ha : addressOf table l = .ok a) : (Item.branchRelLabel c l).reaches table here = true ↔
      relOffset a here ≤ 127 ∧ -128 ≤ relOffset a here := by
  rw [← Bool.not_eq_false, Item.branchRelLabel_not_reaches, ha]
  simp only [Except.ok.injEq, exists_eq_left']
  omega

/-- The offset of a relative branch to a label leads to the label (R296, D28). -/
theorem add_ofInt_relOffset (target here : Word) : here + BitVec.ofInt 16 (relOffset target here) = target := by
  rw [relOffset, BitVec.ofInt_toInt, add_sub_cancel]

theorem Item.expand_branchRelLabel {table : List (Label × Word)} {l : Label} {a : Word} (ha : addressOf table l = .ok a)
    (c : Cond) (here : Word) :
    (Item.branchRelLabel c l).expand table here = .ok [c.branchRel (relOffset a here)] := by
  rw [Item.expand, ha]; rfl

theorem Item.expand_branchLabel {table : List (Label × Word)} {l : Label} {a : Word} (ha : addressOf table l = .ok a)
    (c : Cond) (here : Word) :
    (Item.branchLabel c l).expand table here = .ok (setSequence rt a ++ [c.branchReg rt]) := by
  rw [Item.expand, ha]; rfl

/-- A round keeps an item that reaches, at its place. -/
theorem lengthen_append_cons_of_reaches {table : List (Label × Word)} {pre : List Item} {it : Item}
    (h : it.reaches table (BitVec.ofNat 16 (pre.map Item.instrCount).sum) = true) (post : List Item) :
    ∃ rest, lengthen table 0 (pre ++ it :: post) = lengthen table 0 pre ++ it :: rest :=
  ⟨_, by rw [lengthen_append, zero_add, lengthen, if_pos h]⟩

/-- A relative branch that some number of rounds gave the register-mode form stood, still relative, in the layout of a round
before, with its label out of reach: the first round that does not reach the label is the one. -/
theorem lengthenRounds_out_of_reach {n : Nat} {prog pre post pre' post' : List Item} {c : Cond} {l : Label}
    (hprog : prog = pre ++ .branchRelLabel c l :: post)
    (hrounds : lengthenRounds n prog = pre' ++ .branchLabel c l :: post') (hlen : pre'.length = pre.length) :
    ∃ k < n, ∃ before behind a, lengthenRounds k prog = before ++ .branchRelLabel c l :: behind ∧
      before.length = pre.length ∧ addressOf (symbols 0 0 (lengthenRounds k prog)) l = .ok a ∧
      (relOffset a (BitVec.ofNat 16 (before.map Item.instrCount).sum) < -128 ∨
        127 < relOffset a (BitVec.ofNat 16 (before.map Item.instrCount).sum)) := by
  induction n generalizing prog pre post with
  | zero =>
    obtain ⟨-, htail⟩ := List.append_inj (hrounds.symm.trans hprog) hlen
    cases htail
  | succ n ih =>
    cases hreach : (Item.branchRelLabel c l).reaches (symbols 0 0 prog)
        (BitVec.ofNat 16 (pre.map Item.instrCount).sum) with
    | false =>
      obtain ⟨a, ha, hout⟩ := Item.branchRelLabel_not_reaches.1 hreach
      exact ⟨0, n.succ_pos, pre, post, a, hprog, rfl, ha, hout⟩
    | true =>
      obtain ⟨post₁, hround⟩ := lengthen_append_cons_of_reaches hreach post
      rw [← hprog] at hround
      have hlenPre := lengthen_length (symbols 0 0 prog) 0 pre
      obtain ⟨k, hk, before, behind, a, hbefore, hlenBefore, ha, hout⟩ := ih hround hrounds (hlen.trans hlenPre.symm)
      exact ⟨k + 1, Nat.succ_lt_succ hk, before, behind, a, hbefore, hlenBefore.trans hlenPre, ha, hout⟩

/-- A program whose relative branches to labels all reach as written is settled; a branch to a name that nothing defines needs
no other form. -/
theorem settled_of_all_reach {prog : List Item}
    (h : ∀ pre c l post a, prog = pre ++ .branchRelLabel c l :: post → addressOf (symbols 0 0 prog) l = .ok a →
      relOffset a (BitVec.ofNat 16 (pre.map Item.instrCount).sum) ≤ 127 ∧
        -128 ≤ relOffset a (BitVec.ofNat 16 (pre.map Item.instrCount).sum)) : Settled prog := by
  refine settled_iff.2 fun pre it post hprog => ?_
  cases it with
  | branchRelLabel c l =>
    by_contra hreach
    obtain ⟨a, ha, hout⟩ := Item.branchRelLabel_not_reaches.1 (Bool.not_eq_true _ ▸ hreach)
    have := h pre c l post a hprog ha
    omega
  | _ => rfl

/-- Settles O56: the rounds end in a settled program, where every branch that is still relative reaches; each round lengthens
only what its layout puts out of reach, and a program that is settled as written stays. -/
theorem relativeBranchesReachTheirLabels : Obligations.RelativeBranchesReachTheirLabels := by
  unfold Obligations.RelativeBranchesReachTheirLabels
  intro prog
  refine ⟨lengthenRounds_forall₂ _ prog, ?short, fun here c l a ha => Item.expand_branchLabel ha c here,
    fun pre c l post pre' post' hprog hq hlen => lengthenRounds_out_of_reach hprog hq hlen,
    fun h => (settled_of_all_reach h).lengthenRounds_eq _⟩
  case short =>
    intro pre c l post a hq ha
    have hreach := settled_iff.1 (settled_chooseForms prog) pre _ post hq
    obtain ⟨hhi, hlo⟩ := (Item.branchRelLabel_reaches_iff ha).1 hreach
    exact ⟨hhi, hlo, add_ofInt_relOffset _ _, Item.expand_branchRelLabel ha c _⟩

end Sys2Proof.Machine
end

section
/-! PROOFS. The family 60_exceptions: the instructions that complete. -/

namespace Sys2Proof.Machine

/-- Settles O8: MULT completes where `MULT_D13` lets it, LOAD and RETURN where their read gives a word; the meaning of every
other instruction but SWI and RTI is a next state whatever the state and the operands. -/
theorem onlySwiAndRtiStop : Obligations.OnlySwiAndRtiStop := by
  unfold Obligations.OnlySwiAndRtiStop
  intro i s hswi hrti hmult hload hret
  cases i with
  | swi n => exact absurd rfl (hswi n)
  | rti => exact absurd rfl hrti
  | mult d a b => exact ⟨_, execMult_eq_next.2 ⟨fun hd => hmult a b (by rw [hd]), rfl⟩⟩
  | load d o b =>
    obtain ⟨v, hread⟩ := (hload d o b rfl).readData
    exact ⟨_, execLoad_eq_next.2 ⟨v, hread, rfl⟩⟩
  | ret =>
    obtain ⟨v, hread⟩ := (hret rfl).readData
    exact ⟨_, execRet_eq_next.2 ⟨v, hread, rfl⟩⟩
  | _ => exact ⟨_, rfl⟩

end Sys2Proof.Machine
end

section
/-! PROOFS. The family 70_reset_and_hazards: the machine for its inputs, the two images and a meaning of SWI and RTI. -/

namespace Sys2Proof.Machine

/-! ### The images (R391) -/

/-- What a cell holds after an image is placed in a memory: the word of its last entry, or what the cell held. -/
theorem Memory.read_foldl_write (l : List (Word × Word)) (m : Memory) (a : Word) :
    Memory.read (l.foldl (fun m p => Memory.write m p.1 p.2) m) a = (l.reverse.lookup a).or (m.read a) := by
  induction l generalizing m with
  | nil => rfl
  | cons p l ih =>
    have hhead : (m.write p.1 p.2).read a = (List.lookup a [p]).or (m.read a) := by
      rw [Memory.read_write, List.lookup_cons, List.lookup_nil]
      by_cases h : a = p.1
      · simp [h]
      · simp [h, beq_false_of_ne h]
    rw [List.foldl_cons, ih, hhead, List.reverse_cons, List.lookup_append, Option.or_assoc]

/-- A memory that starts from an image holds the word of an address's last entry, and no word elsewhere. -/
theorem Memory.read_ofImage (l : List (Word × Word)) (a : Word) : (Memory.ofImage l).read a = l.reverse.lookup a := by
  rw [Memory.ofImage, Memory.read_foldl_write]
  exact Option.or_none

/-- The registers of the machine with its inputs are those of reset (R39). -/
theorem State.ofImages_getReg (p : Params) (im dm : List (Word × Word)) (r : RegNo) :
    (State.ofImages p im dm).getReg r = 0 :=
  resetClearsRegistersAndFlags.1 r

/-! ### The step under a meaning of SWI and RTI (R244, R245, D15) -/

section
variable {run run' : Instr → State → Result} {s : State}

theorem stepBy_of_fetchDecode_ok {i : Instr} (hmark : s.faultMark = none) (h : s.fetchDecode = .ok i) :
    stepBy run s = run i s := by
  simp only [stepBy, hmark, h]

/-- Of the meanings of the instructions a step looks at the fetched one's only. -/
theorem stepBy_congr (h : ∀ i, s.fetchDecode = .ok i → run i s = run' i s) : stepBy run s = stepBy run' s := by
  unfold stepBy
  split
  · rfl
  · split
    · rfl
    · next i hi => exact h i hi

end

section
variable {swi : Nat → State → Result} {rti : State → Result} {s : State} {w : Word}

/-- A supplied meaning is looked at for SWI and RTI only. -/
theorem execWith_supplied_of_ne {i : Instr} (hswi : ∀ n, i ≠ .swi n) (hrti : i ≠ .rti) :
    execWith (.supplied swi rti) i s = exec i s := by
  cases i with
  | swi n => exact absurd rfl (hswi n)
  | rti => exact absurd rfl hrti
  | _ => rfl

/-- The word in the cell at pc is the one that the decoder is given (R16). -/
theorem State.fetchDecode_eq_ok_of_read {i : Instr} (hcell : s.im.read s.pc = some w) :
    s.fetchDecode = .ok i ↔ decode w = .ok i := by
  have hfetch : s.fetch = .ok w := Memory.readOr_eq_ok.2 (.inl hcell)
  rw [State.fetchDecode_eq_ok, hfetch]
  simp

/-- A fetched SWI or RTI does what was supplied for it. -/
theorem stepWith_supplied_of_decode {i : Instr} (hmark : s.faultMark = none) (hcell : s.im.read s.pc = some w)
    (h : decode w = .ok i) : stepWith (.supplied swi rti) s = execWith (.supplied swi rti) i s :=
  stepBy_of_fetchDecode_ok hmark ((State.fetchDecode_eq_ok_of_read hcell).2 h)

/-- A fetched word that is neither SWI's nor RTI's does what it does with nothing supplied: its instruction, if it has one, is
another one, since the decoder gives each instruction its own word only. -/
theorem stepWith_supplied_of_other_word (hcell : s.im.read s.pc = some w)
    (hswi : ∀ n ≤ 15, w ≠ BitVec.ofNat 16 (0x1100 + n)) (hrti : w ≠ 0x1110#16) :
    stepWith (.supplied swi rti) s = step s := by
  refine stepBy_congr fun i hi => execWith_supplied_of_ne ?swi ?rti
  all_goals obtain ⟨hwf, hword⟩ := decode_hasWord ((State.fetchDecode_eq_ok_of_read hcell).1 hi)
  case swi =>
    rintro n rfl
    have hn : n ≤ 15 := of_decide_eq_true hwf
    exact hswi n hn (hword.symm.trans (wordSwi_eq_ofNat hn))
  case rti =>
    rintro rfl
    exact hrti hword.symm

end

/-- Settles O59: the inputs are placed in the reset state, and the step looks at a supplied meaning for the words of SWI and
RTI only. -/
theorem machineTakesItsInputs : Obligations.MachineTakesItsInputs := by
  unfold Obligations.MachineTakesItsInputs
  intro p sem im dm
  refine ⟨rfl, ⟨State.ofImages_getReg p im dm, rfl, rfl, rfl, rfl, Memory.read_ofImage im, Memory.read_ofImage dm⟩, ?_⟩
  intro s
  refine ⟨fun hsem => hsem ▸ rfl, ?_⟩
  rintro swi rti rfl hmark w hcell
  exact ⟨fun n hn hw => stepWith_supplied_of_decode hmark hcell (hw ▸ decode_swi hn),
    fun hw => stepWith_supplied_of_decode (i := .rti) hmark hcell (hw ▸ rfl), stepWith_supplied_of_other_word hcell⟩

end Sys2Proof.Machine
end
